-- ==== Sys2Proof/Word.lean ====
section
/-! DEFINITION. The words of the block (spec/00_scope.md R9): bytes, command words, 32-bit registers. -/

namespace Sys2Proof

/-- A byte: the unit of flash, of every buffer and of both byte transports. -/
abbrev Byte := BitVec 8

/-- A command word or a CRC remainder, 16 bits (spec/30_encoding.md R59, spec/10_state.md R29). -/
abbrev Half := BitVec 16

/-- A 32-bit register or counter value; ADDR_BITS is 32 (spec/00_scope.md R7). -/
abbrev Word := BitVec 32

end Sys2Proof
end

