-- ==== Sys2Proof/Config.lean ====
section
/-! DEFINITION. The implementation parameters of spec/00_scope.md R7, the values derived from them, and the
free values of the environment's ports. Which parameter records can be built is in WellFormed.lean. -/

namespace Sys2Proof

/-- Byte order of the checksum and vector words (CS_ENDIAN, spec/20_memory.md R41). -/
inductive Endian where
  | little
  | big
deriving DecidableEq, Repr

/-- One entry of SECTOR_TABLE: `{start, size, sector_id, bank_id}` (R7, spec/90_conflicts.md C8). -/
structure Sector where
  start : Nat
  size : Nat
  sectorId : Nat
  bankId : Nat
deriving DecidableEq, Repr

/-- The parameter record of R7, before the checks of R13 and R14. ADDR_BITS (32) and TICK_US (10) are fixed. -/
structure Params where
  wbs : Nat
  sectorTable : List Sector
  csWidth : Nat
  csWordCount : Nat
  csOffset : Nat
  csEndian : Endian
  cryptoEnabled : Bool
  erasedByte : Byte
  dbufSize : Nat
  maxData : Nat
  pfTimeoutMs : Nat
  baud : Nat
  nodeId : Byte
  functionCode : Byte
  mbAcceptEmpty : Bool
  mbPreDelayTicks : Nat
  mbPostDelayTicks : Nat
deriving DecidableEq, Repr

namespace Params

/-- The number of addresses of the flash address space, `2^ADDR_BITS` (R7, R37). -/
def addrSpace : Nat := 4294967296

/-- TICK_US: one fine tick is 10 µs (R7, R133). -/
def tickUs : Nat := 10

/-- CS_BYTES (R7). -/
def csBytes (p : Params) : Nat := p.csWidth / 8

/-- MB_BUF_SIZE: the largest valid frame (R7). -/
def mbBufSize (p : Params) : Nat := p.maxData + 5

/-- The least `start` of a list of sectors, `none` for the empty list. -/
def leastStart : List Sector → Option Nat
  | [] => none
  | e :: es =>
    match leastStart es with
    | none => some e.start
    | some m => some (min e.start m)

/-- BOOT_BASE: the lowest `start` in SECTOR_TABLE (R7, R13 invariant 5). -/
def bootBase (p : Params) : Nat := (leastStart p.sectorTable).getD 0

/-- Do two sectors share a byte? (R13 invariant 3). -/
def overlap (e f : Sector) : Bool :=
  decide (e.start < f.start + f.size) && decide (f.start < e.start + e.size)

/-- No two entries share a byte (R13 invariant 3). -/
def disjointAll : List Sector → Bool
  | [] => true
  | e :: es => es.all (fun f => !overlap e f) && disjointAll es

end Params

/-- The free answer of a port that no script and no default fixes (R11, spec/93_implementation_defined.md I4):
true for success. It has no body, so no proof can know which answer it is. DESIGN CHOICE, log 7, safe. -/
opaque Config.freeAnswer : Nat → Bool

/-- A free byte: flash under a failed operation, or what Decrypt writes (spec/20_memory.md R44, R45, R47;
spec/93_implementation_defined.md I1, I2, I9). DESIGN CHOICE, log 8, safe. -/
opaque Config.freeByte : Nat → Byte

end Sys2Proof
end

