-- ==== Sys2Proof/Syntax.lean ====
section
/-! DEFINITION. The 18 commands of spec/30_encoding.md R61 (one constructor per row of spec/opcode_table.json), the
moves of the upstream agent (R58) and the moves of the environment (R69). -/

namespace Sys2Proof

/-- The commands (R61). Only CRC_BYTE carries an operand in its word (R63). -/
inductive Instr where
  | nvmInit
  | nvmWrite
  | nvmErase
  | nvmWriteChecksum
  | nvmVerifyChecksum
  | nvmDone
  | nvmGetUserProgramBase
  | pfInit
  | pfTransmit
  | pfPoll
  | crcInit
  | crcByte (b : Byte)
  | crcRead
  | crcBlock
  | mbInit
  | mbTransmit
  | mbPoll
  | mbGetT35
deriving DecidableEq, Repr

/-- The registers the upstream agent can read (spec/10_state.md R17 to R23); no other state is readable (R34). -/
inductive ReadReg where
  | cmd
  | argAddr
  | argLen
  | dbuf (i : Nat)
  | status
  | result
  | pktLen
  | pktData (i : Nat)
deriving DecidableEq, Repr

/-- A move of the upstream agent (R58, spec/10_state.md R17 to R23). -/
inductive UpMove where
  | argAddr (v : Word)
  | argLen (v : Word)
  | dbuf (i : Nat) (b : Byte)
  | cmd (w : Half)
  | read (r : ReadReg)
deriving DecidableEq, Repr

/-- The ports whose calls the environment answers with success or failure (spec/20_memory.md R44, R45, R47, R49). -/
inductive Port where
  | program
  | erase
  | decrypt
  | txPf
  | txMb
deriving DecidableEq, Repr

/-- What becomes of one answered port call: `true`, `false`, or power is lost while the call runs
(spec/60_exceptions.md R135, spec/20_memory.md R46). -/
inductive Verdict where
  | ok
  | fail
  | powerLoss
deriving DecidableEq, Repr

/-- One answer of a port: its verdict, and the bytes the environment puts where the spec leaves contents open. Bytes
that `bytes` does not give are free values (log 8). -/
structure Answer where
  verdict : Verdict
  bytes : List Byte
deriving DecidableEq, Repr

/-- What the environment does before one NOW_TICK sample inside a busy wait: bytes that reach the MB line, and the
counter's value at the sample (spec/10_state.md R31, spec/93_implementation_defined.md I18). -/
structure WaitSample where
  arrivals : List Byte
  tick : Word
deriving DecidableEq, Repr

/-- A move of the environment (R69, spec/10_state.md R15). -/
inductive EnvMove where
  | ms (t : Word)
  | tick (t : Word)
  | rxPf (b : Byte)
  | rxMb (b : Byte)
  | answer (p : Port) (a : Answer)
  | defaultAnswer (d : Option Bool)
  | waitSample (w : WaitSample)
  /-- Power is lost now (spec/60_exceptions.md R135). -/
  | powerLoss
  /-- Power will be lost just before the port call that comes after `n` further ones (R135, log 12). -/
  | powerCut (n : Nat)
deriving DecidableEq, Repr

/-- One entry of the queue that says who moves next (log 9). -/
inductive Move where
  | up (m : UpMove)
  | env (m : EnvMove)
deriving DecidableEq, Repr

end Sys2Proof
end

