-- ==== Sys2Proof/WellFormed.lean ====
section
/-! DEFINITION. Which parameter records can be built (spec/00_scope.md R8, R13, R14), the configuration type that
carries those checks, and which commands and moves are well formed. -/

namespace Sys2Proof

namespace Params

/-- R13 invariant 1. -/
def wbsOk (p : Params) : Bool := decide (1 ≤ p.wbs)

/-- R13 invariant 2: a non-empty table of non-empty entries inside the address space. -/
def tableOk (p : Params) : Bool :=
  !p.sectorTable.isEmpty &&
    p.sectorTable.all fun e => decide (1 ≤ e.size) && decide (e.start + e.size ≤ addrSpace)

/-- R13 invariant 3. -/
def tableDisjoint (p : Params) : Bool := disjointAll p.sectorTable

/-- R13 invariant 4, and with it invariant 5: BOOT_BASE is a multiple of WBS. -/
def tableAligned (p : Params) : Bool :=
  p.sectorTable.all fun e => decide (e.start % p.wbs = 0) && decide (e.size % p.wbs = 0)

/-- R13 invariant 6: the checksum field lies in the first write block. -/
def csFieldOk (p : Params) : Bool := decide (p.csOffset + p.csBytes ≤ p.wbs)

/-- R13 invariant 7: the vector region lies in the first write block and does not overlap the checksum field;
R7: at least one vector word. -/
def vectorsOk (p : Params) : Bool :=
  decide (1 ≤ p.csWordCount) && decide (p.csWordCount * p.csBytes ≤ p.wbs) &&
    decide (p.csWordCount * p.csBytes ≤ p.csOffset)

/-- R13 invariant 8. -/
def csWidthOk (p : Params) : Bool := decide (p.csWidth = 16) || decide (p.csWidth = 32)

/-- R14 invariant 1. -/
def maxDataOk (p : Params) : Bool := decide (1 ≤ p.maxData) && decide (p.maxData ≤ 255)

/-- R14 invariant 2. -/
def baudOk (p : Params) : Bool := decide (1 ≤ p.baud)

/-- R14 invariant 3. -/
def dbufOk (p : Params) : Bool := decide (p.maxData ≤ p.dbufSize) && decide (p.csBytes ≤ p.dbufSize)

/-- R14 invariant 4. -/
def timeoutOk (p : Params) : Bool := decide (1 ≤ p.pfTimeoutMs)

/-- Every invariant of R13 and R14: a record that breaks one is refused when the block is built (R8). -/
def wf (p : Params) : Bool :=
  p.wbsOk && p.tableOk && p.tableDisjoint && p.tableAligned && p.csFieldOk && p.vectorsOk && p.csWidthOk &&
    p.maxDataOk && p.baudOk && p.dbufOk && p.timeoutOk

end Params

/-- A configuration the block can be built with: a parameter record together with the proof that it keeps R13 and R14
(R8: "A model's configuration type carries these invariants as a proof obligation"). -/
structure Config extends Params where
  valid : toParams.wf = true
deriving DecidableEq, Repr

/-- Is a command well formed? Its one operand is a byte by its type (R63), so every command is. -/
def Instr.wf : Instr → Bool
  | .nvmInit | .nvmWrite | .nvmErase | .nvmWriteChecksum | .nvmVerifyChecksum | .nvmDone
  | .nvmGetUserProgramBase | .pfInit | .pfTransmit | .pfPoll | .crcInit | .crcRead | .crcBlock
  | .mbInit | .mbTransmit | .mbPoll | .mbGetT35 => true
  | .crcByte _ => true

/-- Is a readable register one that the block has? (R20, R23: DBUF_SIZE and MAX_DATA bytes). -/
def ReadReg.wf (p : Params) : ReadReg → Bool
  | .cmd | .argAddr | .argLen | .status | .result | .pktLen => true
  | .dbuf i => decide (i < p.dbufSize)
  | .pktData i => decide (i < p.maxData)

/-- Is a move of the upstream agent one that the block has a register for? -/
def UpMove.wf (p : Params) : UpMove → Bool
  | .argAddr _ | .argLen _ | .cmd _ => true
  | .dbuf i _ => decide (i < p.dbufSize)
  | .read r => r.wf p

end Sys2Proof
end

