-- ==== Sys2Proof/Machine/Timing.lean ====
section
/-! DEFINITION. The T3.5 threshold and elapsed counter time (spec/43_modbus_frame.md R109, spec/10_state.md R31). -/

namespace Sys2Proof.Machine

open Sys2Proof

/-- `T35(baud)` in fine ticks of 10 µs (R109, spec/90_conflicts.md C2 and C3). `(3850000 + baud - 1) / baud` is
`ceil(3850000 / baud)`. -/
def t35Ticks (baud : Nat) : Nat :=
  if 19200 < baud then 175 else (3850000 + baud - 1) / baud + 1

/-- Elapsed time between two samples of one counter, modulo `2^32` (R31). -/
def elapsed (now since : Word) : Nat := (now - since).toNat

end Sys2Proof.Machine
end

