-- ==== Sys2Proof/Machine/State.lean ====
section
/-! DEFINITION. The state of spec/10_state.md as plain data, the reasons a step can stop, and the state after reset
(R35, spec/70_reset_and_hazards.md R138). -/

namespace Sys2Proof.Machine

open Sys2Proof

/-- Flash contents: the listed cells, addresses strictly rising; an address not listed reads ERASED_BYTE (log 5). The
operations and the canonical form stand in Machine/Memory.lean. -/
abbrev Memory := List Host.Cell

/-- The command interface registers, R17 to R23, with the marks of R36: which of them have been written since reset. -/
structure HostRegs where
  cmd : Half
  argAddr : Word
  argLen : Word
  dbuf : List Byte
  status : BitVec 8
  result : Word
  pktLen : BitVec 8
  pktData : List Byte
  cmdWritten : Bool
  argAddrWritten : Bool
  argLenWritten : Bool
  dbufWritten : List Bool
  pktLenWritten : Bool
  /-- How many leading bytes of PKT_DATA a delivery has ever written. -/
  pktDataWritten : Nat
deriving DecidableEq, Repr

/-- A FlashBlock: the generic block (R25) or the boot block (R26). `valid = false` is INVALID. -/
structure FlashBlock where
  valid : Bool
  base : Word
  buf : List Byte
deriving DecidableEq, Repr

/-- Which of the two FlashBlocks (R12). -/
inductive BlockId where
  | gen
  | boot
deriving DecidableEq, Repr

/-- PF_STATE (R28). -/
inductive PfState where
  | idle
  | receiving
deriving DecidableEq, Repr

/-- The packet framer's reception state, R28. -/
structure PfUnit where
  state : PfState
  expected : BitVec 8
  count : BitVec 8
  lastMs : Word
  buf : List Byte
deriving DecidableEq, Repr

/-- The Modbus unit's state, R30 and R32. -/
structure MbUnit where
  t35 : Word
  lastTick : Word
  buf : List Byte
  count : Nat
  sync : Bool
  de : Bool
deriving DecidableEq, Repr

/-- The environment (R15): the two counters (R31), the two receive queues (spec/20_memory.md R48), and the coming draws
of its ports (spec/00_scope.md R11). -/
structure Env where
  nowMs : Word
  nowTick : Word
  rxPf : List Byte
  rxMb : List Byte
  programAnswers : List Answer
  eraseAnswers : List Answer
  decryptAnswers : List Answer
  txPfAnswers : List Answer
  txMbAnswers : List Answer
  /-- The answer of a call that no listed answer fixes: `some true` is R69's default, `none` leaves it open (log 7). -/
  defaultAnswer : Option Bool
  /-- The model's own counter of free values drawn (log 7, log 8). -/
  draws : Nat
  /-- What the environment does before each coming iteration of a busy wait (log 11). -/
  waitSamples : List WaitSample
  /-- `some n`: power is lost just before the port call that comes after `n` further ones (log 12). -/
  powerCut : Option Nat
deriving DecidableEq, Repr

/-- What keeps the block from accepting a command (log 11): a busy wait in progress, which is the idle-line wait of
MB_INIT (spec/43_modbus_frame.md R110) or a delay of MB_TRANSMIT (R116), or a reset sequence still to run. -/
inductive Wait where
  | idle
  /-- Power was lost: the reset sequence comes next (spec/60_exceptions.md R135, spec/70_reset_and_hazards.md R138). -/
  | reset
  /-- MB_INIT: the tick from which the silence is measured. -/
  | mbInit (t0 : Word)
  /-- MB_TRANSMIT before its first byte: the wait's start and the frame still to send. -/
  | mbPre (t0 : Word) (frame : List Byte)
  /-- MB_TRANSMIT after its last byte: the wait's start and whether every byte was accepted. -/
  | mbPost (t0 : Word) (ok : Bool)
deriving DecidableEq, Repr

/-- The calls of the block's ports, in the order they are made (spec/00_scope.md R11, spec/10_state.md R15), and power
loss (log 14). -/
inductive Event where
  /-- A sample of NOW_MS and the value it returned (R31). -/
  | nowMs (t : Word)
  /-- A sample of NOW_TICK and the value it returned (R31). -/
  | nowTick (t : Word)
  | flashRead (addr n : Nat)
  | programBlock (addr : Nat) (data : List Byte) (v : Verdict)
  | eraseSector (sectorId bankId : Nat) (v : Verdict)
  | decrypt (n : Nat) (v : Verdict)
  | rxPf (r : Option Byte)
  | rxMb (r : Option Byte)
  | txPf (b : Byte) (v : Verdict)
  | txMb (b : Byte) (v : Verdict)
  | txMbLast (b : Byte) (v : Verdict)
  | kick
  | driverEnable (on : Bool)
  | powerLoss
deriving DecidableEq, Repr

/-- The state of the block, of its environment and of the two agents that move it. -/
structure State where
  cfg : Config
  host : HostRegs
  gen : FlashBlock
  boot : FlashBlock
  pf : PfUnit
  crcReg : Half
  mb : MbUnit
  flash : Memory
  env : Env
  wait : Wait
  events : List Event
  /-- The coming moves of the upstream agent and the environment (log 9). -/
  moves : List Move
  /-- The value the upstream agent's last register read returned (log 15). -/
  readBus : Word
deriving DecidableEq, Repr

/-- Why a step stops without a next state. -/
inductive Fault where
  /-- A command reads an operand register that the upstream agent never wrote (spec/10_state.md R36,
  spec/92_eei_decisions.md D8, spec/93_implementation_defined.md I5). Raised by NVM_WRITE, NVM_ERASE, PF_TRANSMIT, MB_TRANSMIT and CRC_BLOCK. Safe. -/
  | unwrittenOperand
  /-- The upstream agent reads a register whose reset value is unspecified before anything wrote it (R36,
  spec/92_eei_decisions.md D8, spec/93_implementation_defined.md I8). Safe. -/
  | unwrittenRead
  /-- A flash port is called outside the covered addresses: the spec says the block never does (spec/20_memory.md R38).
  Raised by FlashRead and ProgramBlock, in states no run reaches. Safe. -/
  | uncoveredFlash
deriving DecidableEq, Repr

/-- Why a move is refused. -/
inductive Refusal where
  /-- An instruction without a meaning yet; raised by exec's arms alone. Safe. -/
  | notModelled (mnemonic : String)
  /-- The upstream agent names a DBUF or PKT_DATA byte the block does not have (R20, R23). Safe. -/
  | noSuchRegister
deriving DecidableEq, Repr

/-- The command interface registers after reset: R35, and zero where R35 says unspecified (log 2, unsafe). -/
def HostRegs.reset (c : Config) : HostRegs where
  cmd := 0
  argAddr := 0
  argLen := 0
  dbuf := List.replicate c.dbufSize 0
  status := 0
  result := 0
  pktLen := 0
  pktData := List.replicate c.maxData 0
  cmdWritten := false
  argAddrWritten := false
  argLenWritten := false
  dbufWritten := List.replicate c.dbufSize false
  pktLenWritten := false
  pktDataWritten := 0

/-- A FlashBlock after reset: INVALID (R35); base and buffer zero (log 2, unsafe). -/
def FlashBlock.reset (c : Config) : FlashBlock where
  valid := false
  base := 0
  buf := List.replicate c.wbs 0

/-- The framer after reset (R35); PF_EXPECTED, PF_LAST_MS and PF_BUF zero (log 2, unsafe). -/
def PfUnit.reset (c : Config) : PfUnit where
  state := .idle
  expected := 0
  count := 0
  lastMs := 0
  buf := List.replicate c.maxData 0

/-- The Modbus unit after reset (R35); MB_BUF zero (log 2), MB_LAST_TICK the end of an idle-line wait that began at tick
0 on a silent line (log 4, unsafe). -/
def MbUnit.reset (c : Config) : MbUnit where
  t35 := BitVec.ofNat 32 (t35Ticks c.baud)
  lastTick := BitVec.ofNat 32 (t35Ticks c.baud)
  buf := List.replicate c.mbBufSize 0
  count := 0
  sync := false
  de := false

/-- The environment beside a block just reset: no byte waiting, no answer fixed (log 4, log 7, log 22, unsafe). -/
def Env.reset (c : Config) : Env where
  nowMs := 0
  nowTick := BitVec.ofNat 32 (t35Ticks c.baud)
  rxPf := []
  rxMb := []
  programAnswers := []
  eraseAnswers := []
  decryptAnswers := []
  txPfAnswers := []
  txMbAnswers := []
  defaultAnswer := none
  draws := 0
  waitSamples := []
  powerCut := none

/-- The state after reset of a block built with configuration `c` (R35, R138). -/
def State.resetWith (c : Config) : State where
  cfg := c
  host := HostRegs.reset c
  gen := FlashBlock.reset c
  boot := FlashBlock.reset c
  pf := PfUnit.reset c
  crcReg := 0xFFFF
  mb := MbUnit.reset c
  flash := []
  env := Env.reset c
  wait := .idle
  events := []
  moves := []
  readBus := 0

/-- The configuration of State.reset: `CFG1` with the common values of spec/95_test_vectors.md section 1. DESIGN CHOICE,
log 1, unsafe for a statement about State.reset alone. -/
def resetConfig : Config where
  wbs := 512
  sectorTable := [{ start := 0x08002000, size := 0x800, sectorId := 0, bankId := 0 }]
  csWidth := 32
  csWordCount := 7
  csOffset := 0x1C
  csEndian := .little
  cryptoEnabled := false
  erasedByte := 0xFF
  dbufSize := 64
  maxData := 8
  pfTimeoutMs := 100
  baud := 9600
  nodeId := 0x01
  functionCode := 0x50
  mbAcceptEmpty := false
  mbPreDelayTicks := 0
  mbPostDelayTicks := 0
  valid := by decide

/-- The machine right after reset. -/
def State.reset : State := State.resetWith resetConfig

end Sys2Proof.Machine
end

