-- ==== Sys2Proof/Machine/Memory.lean ====
section
/-! DEFINITION. Flash as a list of cells in one canonical form (spec/20_memory.md R37), and the address helpers of
spec/40_nvm_block.md R73. -/

namespace Sys2Proof.Machine

open Sys2Proof

/-- One byte of flash; an address not listed reads `d` (ERASED_BYTE, log 5). -/
def Memory.read (d : Byte) : Memory → Nat → Byte
  | [], _ => d
  | (x, b) :: m, a => if a = x then b else Memory.read d m a

/-- Write one byte, keeping the canonical form: writing `d` removes the entry. -/
def Memory.write (d : Byte) : Memory → Nat → Byte → Memory
  | [], a, b => if b = d then [] else [(a, b)]
  | (x, c) :: m, a, b =>
    if a < x then (if b = d then (x, c) :: m else (a, b) :: (x, c) :: m)
    else if a = x then (if b = d then m else (a, b) :: m)
    else (x, c) :: Memory.write d m a b

/-- Write a run of bytes from address `a` upwards. -/
def Memory.writeBytes (d : Byte) : Memory → Nat → List Byte → Memory
  | m, _, [] => m
  | m, a, b :: bs => Memory.writeBytes d (Memory.write d m a b) (a + 1) bs

/-- Read `n` bytes from address `a` upwards. -/
def Memory.readBytes (d : Byte) (m : Memory) : Nat → Nat → List Byte
  | _, 0 => []
  | a, n + 1 => Memory.read d m a :: Memory.readBytes d m (a + 1) n

/-- Make every byte of `[lo, lo + n)` read as an unlisted address does. -/
def Memory.erase (m : Memory) (lo n : Nat) : Memory :=
  m.filter fun c => decide (c.1 < lo) || decide (lo + n ≤ c.1)

/-- The canonical form from address `lo` upwards: addresses strictly rising and inside the address space, and no entry
equal to what an unlisted address reads as. -/
def Memory.wfFrom (d : Byte) : Nat → Memory → Bool
  | _, [] => true
  | lo, (x, b) :: m =>
    decide (lo ≤ x) && decide (x < Params.addrSpace) && decide (b ≠ d) && Memory.wfFrom d (x + 1) m

/-- The canonical form of flash. -/
def Memory.wf (d : Byte) (m : Memory) : Bool := Memory.wfFrom d 0 m

/-- `Covered(a)` (R73). -/
def covered (c : Config) (a : Nat) : Bool :=
  c.sectorTable.any fun e => decide (e.start ≤ a) && decide (a < e.start + e.size)

/-- Every byte of `[a, a + n)` is covered. -/
def allCovered (c : Config) : Nat → Nat → Bool
  | _, 0 => true
  | a, n + 1 => covered c a && allCovered c (a + 1) n

/-- `RangeCovered(a, n)` (R73). -/
def rangeCovered (c : Config) (a n : Nat) : Bool :=
  decide (1 ≤ n) && decide (a + n ≤ Params.addrSpace) && allCovered c a n

/-- `BlockBase(a)` (R73). -/
def blockBase (c : Config) (a : Nat) : Nat := a - a % c.wbs

/-- `Intersects(e, a, n)` (R73). -/
def intersects (e : Sector) (a n : Nat) : Bool :=
  decide (e.start < a + n) && decide (a < e.start + e.size)

/-- The value of a byte run, first byte least significant. -/
def littleValue : List Byte → Nat
  | [] => 0
  | b :: bs => b.toNat + 256 * littleValue bs

/-- The value of a byte run in the order CS_ENDIAN gives (spec/20_memory.md R41 (c)). -/
def wordValue (e : Endian) (bs : List Byte) : Nat :=
  match e with
  | .little => littleValue bs
  | .big => littleValue bs.reverse

/-- `WordOf(s, off)` (R73). -/
def wordOf (c : Config) (s : List Byte) (off : Nat) : Nat :=
  wordValue c.csEndian ((s.drop off).take c.csBytes)

/-- The `n` bytes of `v`, least significant first. -/
def littleBytes : Nat → Nat → List Byte
  | 0, _ => []
  | n + 1, v => BitVec.ofNat 8 v :: littleBytes n (v / 256)

/-- `Serialize(v)` (R73). -/
def serialize (c : Config) (v : Nat) : List Byte :=
  match c.csEndian with
  | .little => littleBytes c.csBytes v
  | .big => (littleBytes c.csBytes v).reverse

end Sys2Proof.Machine
end

