-- ==== Sys2Proof/Machine/Flags.lean ====
section
/-! DEFINITION. The status codes and every writer of a status flag or result register (spec/10_state.md R21 to R23,
R33; spec/60_exceptions.md R121). -/

namespace Sys2Proof.Machine

open Sys2Proof

/-- The completion codes of R121. -/
inductive StatusCode where
  | ok
  | rangeError
  | hwError
  | illegal
deriving DecidableEq, Repr

/-- The value of a code in STATUS (R121). -/
def statusValue : StatusCode → BitVec 8
  | .ok => 0
  | .rangeError => 1
  | .hwError => 2
  | .illegal => 3

/-- `status <- c`. -/
def State.setStatus (s : State) (c : StatusCode) : State :=
  { s with host := { s.host with status := statusValue c } }

/-- `RESULT <- v` (R22). -/
def State.setResult (s : State) (v : Word) : State :=
  { s with host := { s.host with result := v } }

/-- Deliver a packet: PKT_LEN, the leading bytes of PKT_DATA, and `RESULT <- 1` (R22, R23, spec/41_packet_framer.md R98,
spec/43_modbus_frame.md R113). PKT_DATA beyond the payload keeps its old contents. -/
def State.deliver (s : State) (len : BitVec 8) (payload : List Byte) : State :=
  { s with host := { s.host with
      pktLen := len
      pktData := payload ++ s.host.pktData.drop payload.length
      pktLenWritten := true
      pktDataWritten := max s.host.pktDataWritten payload.length
      result := 1 } }

/-- The FlashBlock `b` (R25, R26). -/
def State.block (s : State) : BlockId → FlashBlock
  | .gen => s.gen
  | .boot => s.boot

/-- Replace the FlashBlock `b`. -/
def State.setBlock (s : State) (b : BlockId) (f : FlashBlock) : State :=
  match b with
  | .gen => { s with gen := f }
  | .boot => { s with boot := f }

/-- `B.valid <- v`: GEN_VALID or BOOT_VALID (R33). -/
def State.setValid (s : State) (b : BlockId) (v : Bool) : State :=
  s.setBlock b { s.block b with valid := v }

/-- `B.buf <- bytes`. -/
def State.setBuf (s : State) (b : BlockId) (bytes : List Byte) : State :=
  s.setBlock b { s.block b with buf := bytes }

/-- `B.buf[off] <- v`. -/
def State.setBufByte (s : State) (b : BlockId) (off : Nat) (v : Byte) : State :=
  s.setBuf b ((s.block b).buf.set off v)

/-- Record a port call (spec/00_scope.md R11). -/
def State.record (s : State) (e : Event) : State := { s with events := s.events ++ [e] }

end Sys2Proof.Machine
end

