-- ==== Sys2Proof/Machine/Power.lean ====
section
/-! DEFINITION. How the parts of a command follow one another and how a command ends (spec/60_exceptions.md R120, R121,
R128, R129), power loss at any point (R135), and the port calls that take no answer of the environment's choice. -/

namespace Sys2Proof.Machine

open Sys2Proof

/-! ## A command in progress -/

/-- The result of a part of a command: it goes on with a value, it has ended the command (R10 `finish`), or the machine
stops. -/
inductive Res (α : Type) where
  | ok (a : α) (s : State)
  | ended (s : State)
  | fault (f : Fault)

/-- The next part of a command; nothing runs after `finish` (R10). -/
def Res.bind {α β : Type} (r : Res α) (f : α → State → Res β) : Res β :=
  match r with
  | .ok a s => f a s
  | .ended s => .ended s
  | .fault e => .fault e

/-- "A command that reaches its end without `finish` ends with `status <- OK`" (R10). -/
def Res.finish (r : Res Unit) : Host.Outcome State Fault Refusal :=
  match r with
  | .ok _ s => .next (s.setStatus .ok)
  | .ended s => .next s
  | .fault e => .fault e

/-- `raise X`: the one way an exceptional condition is taken. STATUS gets the code and the command ends; no state is
saved and control goes nowhere (R120, R121, R129). -/
def raise {α : Type} (c : StatusCode) (s : State) : Res α := .ended (s.setStatus c)

/-- The end of an error (R130): there is no return command; the block accepts the next CMD write as soon as `wait` is
idle, and the state is the one the failing command left. -/
def acceptsCommand (s : State) : Bool := decide (s.wait = .idle)

/-- An ILLEGAL word: `STATUS <- ILLEGAL`, nothing else (spec/30_encoding.md R65, R124). -/
def illegal (s : State) : State := s.setStatus .illegal

/-! ## Power -/

/-- Power is lost (R135): every register and RAM buffer of the block is lost and flash is kept (R46). What the block holds
until the reset sequence has run is what State.resetWith gives it (log 2); the environment, the agents' coming moves
and the record of events go on (log 12). -/
def powerOff (s : State) : State :=
  { State.resetWith s.cfg with
    flash := s.flash
    env := { s.env with powerCut := none }
    wait := .reset
    events := s.events ++ [.powerLoss]
    moves := s.moves
    readBus := s.readBus }

/-- The instant before a port call: power may be lost here (R135, log 12). -/
def beforeCall (s : State) : Res Unit :=
  match s.env.powerCut with
  | none => .ok () s
  | some 0 => .ended (powerOff s)
  | some (n + 1) => .ok () { s with env := { s.env with powerCut := some n } }

/-- One port call, recorded (spec/00_scope.md R11). -/
def call (e : Event) (s : State) : Res Unit := (beforeCall s).bind fun _ s => .ok () (s.record e)

/-! ## Tick sources, watchdog and direction hook -/

/-- A sample of NOW_MS (spec/10_state.md R31). -/
def readMs (s : State) : Res Word := (call (.nowMs s.env.nowMs) s).bind fun _ s => .ok s.env.nowMs s

/-- A sample of NOW_TICK (R31). -/
def readTick (s : State) : Res Word := (call (.nowTick s.env.nowTick) s).bind fun _ s => .ok s.env.nowTick s

/-- `Kick()` (R134). -/
def kick (s : State) : Res Unit := call .kick s

/-- `MB_DE <- on`, a call of the direction hook (spec/43_modbus_frame.md R116). -/
def driveEnable (on : Bool) (s : State) : Res Unit :=
  (call (.driverEnable on) s).bind fun _ s => .ok () { s with mb := { s.mb with de := on } }

end Sys2Proof.Machine
end

