-- ==== Sys2Proof/Machine/Waits.lean ====
section
/-! DEFINITION. The receive side of the byte primitives (spec/20_memory.md R48) and the two kinds of busy wait
(spec/43_modbus_frame.md R110, R116; log 11). -/

namespace Sys2Proof.Machine

open Sys2Proof

/-- `RxByte_PF()` (R48): the first waiting byte, consumed. -/
def rxBytePf (s : State) : Res (Option Byte) :=
  (call (.rxPf s.env.rxPf.head?) s).bind fun _ s =>
    .ok s.env.rxPf.head? { s with env := { s.env with rxPf := s.env.rxPf.tail } }

/-- `RxByte_MB()` (R48). -/
def rxByteMb (s : State) : Res (Option Byte) :=
  (call (.rxMb s.env.rxMb.head?) s).bind fun _ s =>
    .ok s.env.rxMb.head? { s with env := { s.env with rxMb := s.env.rxMb.tail } }

/-- What the environment does before a NOW_TICK sample: bytes reach the MB line and the counter moves (R31). -/
def applySample (w : WaitSample) (rest : List WaitSample) (s : State) : State :=
  { s with env := { s.env with
      rxMb := s.env.rxMb ++ w.arrivals
      nowTick := w.tick
      waitSamples := rest } }

/-- The environment may move before one more sample of NOW_TICK inside a command. -/
def moveTick (s : State) : State :=
  match s.env.waitSamples with
  | [] => s
  | w :: ws => applySample w ws s

/-- One iteration of the idle-line wait of R110, from the silence's start `t0`: a byte restarts the silence at the tick
of this iteration. The answer is the new start, or the tick at which the loop exits, and whether it exits. -/
def idleIteration (t0 : Word) (s : State) : Res (Word × Bool) :=
  (kick s).bind fun _ s =>
    (rxByteMb s).bind fun r s =>
      (readTick s).bind fun now s =>
        if r.isSome then .ok (now, false) s
        else if s.mb.t35.toNat ≤ elapsed now t0 then .ok (now, true) s
        else .ok (t0, false) s

/-- After the idle-line wait: `MB_LAST_TICK <- now` (R110). -/
def idleDone (now : Word) (s : State) : Res Unit :=
  .ok () { s with mb := { s.mb with lastTick := now }, wait := .idle }

/-- The idle-line wait of R110, over the samples the environment has scripted, then once more as the line and the
counter stand. If the loop has not ended then, MB_INIT stays in progress (log 11). -/
def idleWait : List WaitSample → Word → State → Res Unit
  | [], t0, s =>
    (idleIteration t0 s).bind fun r s =>
      if r.2 then idleDone r.1 s else .ended { s with wait := .mbInit r.1 }
  | w :: ws, t0, s =>
    (idleIteration t0 (applySample w ws s)).bind fun r s =>
      if r.2 then idleDone r.1 s else idleWait ws r.1 s

/-- One iteration of `Wait(d)` of R116 from `t0`: does the loop exit? -/
def delayIteration (d : Nat) (t0 : Word) (s : State) : Res Bool :=
  (kick s).bind fun _ s => (readTick s).bind fun now s => .ok (decide (d ≤ elapsed now t0)) s

/-- `Wait(d)` of R116 from `t0`, over the scripted samples, then once more as the counter stands: has it ended? -/
def delayWait (d : Nat) (t0 : Word) : List WaitSample → State → Res Bool
  | [], s => delayIteration d t0 s
  | w :: ws, s =>
    (delayIteration d t0 (applySample w ws s)).bind fun done s => if done then .ok true s else delayWait d t0 ws s

end Sys2Proof.Machine
end

