-- ==== Sys2Proof/Machine/Ops.lean ====
section
/-! DEFINITION. The four initialisations and the reset sequence (spec/70_reset_and_hazards.md R138), and the ports of
spec/20_memory.md R44 to R49 whose answers the environment chooses, with FlashRead (R43). -/

namespace Sys2Proof.Machine

open Sys2Proof

/-! ## Initialisation and reset -/

/-- The effect of NVM_INIT (spec/40_nvm_block.md R79). -/
def nvmInitBody (s : State) : State := ((s.setValid .gen false).setValid .boot false).setStatus .ok

/-- The effect of PF_INIT (spec/41_packet_framer.md R92). -/
def pfInitBody (s : State) : State :=
  { s with pf := { s.pf with state := .idle, count := 0 } }.setStatus .ok

/-- The effect of CRC_INIT (spec/42_crc16.md R103). -/
def crcInitBody (s : State) : State := { s with crcReg := 0xFFFF }.setStatus .ok

/-- MB_INIT up to its wait (spec/43_modbus_frame.md R110). -/
def mbInitPrelude (s : State) : State :=
  { s with mb := { s.mb with
      t35 := BitVec.ofNat 32 (t35Ticks s.cfg.baud), count := 0, sync := false, de := false } }

/-- The effect of MB_INIT (R110): `t0 <- NOW_TICK` is the sample at the command's start (R31). -/
def mbInitBody (s : State) : Res Unit :=
  (readTick (mbInitPrelude s)).bind fun t0 s => idleWait s.env.waitSamples t0 s

/-- The reset sequence: NVM_INIT, PF_INIT, CRC_INIT, MB_INIT, in that order (R138). -/
def resetSequence (s : State) : Res Unit := mbInitBody (crcInitBody (pfInitBody (nvmInitBody s)))

/-! ## Draws of the environment -/

/-- The listed answers of a port. -/
def Env.answersOf (e : Env) : Port → List Answer
  | .program => e.programAnswers
  | .erase => e.eraseAnswers
  | .decrypt => e.decryptAnswers
  | .txPf => e.txPfAnswers
  | .txMb => e.txMbAnswers

/-- Replace the listed answers of a port. -/
def Env.setAnswers (e : Env) (p : Port) (l : List Answer) : Env :=
  match p with
  | .program => { e with programAnswers := l }
  | .erase => { e with eraseAnswers := l }
  | .decrypt => { e with decryptAnswers := l }
  | .txPf => { e with txPfAnswers := l }
  | .txMb => { e with txMbAnswers := l }

/-- The verdict of the next call of a port: the listed answer, else R69's default, else a free value (log 7). -/
def Env.verdictOf (e : Env) (p : Port) : Verdict :=
  match e.answersOf p with
  | a :: _ => a.verdict
  | [] =>
    match e.defaultAnswer with
    | some d => if d then .ok else .fail
    | none => if Config.freeAnswer e.draws then .ok else .fail

/-- `n` bytes: those listed, then free values from index `k` on (log 8). -/
def openBytes : Nat → Nat → List Byte → List Byte
  | _, 0, _ => []
  | k, n + 1, [] => Config.freeByte k :: openBytes (k + 1) n []
  | k, n + 1, b :: bs => b :: openBytes (k + 1) n bs

/-- The bytes of the next call of a port, where the spec leaves contents open. -/
def Env.bytesOf (e : Env) (p : Port) (n : Nat) : List Byte :=
  match e.answersOf p with
  | a :: _ => openBytes e.draws n a.bytes
  | [] => openBytes e.draws n []

/-- The environment after it has answered a call of a port with `n` open bytes. -/
def Env.answered (e : Env) (p : Port) (n : Nat) : Env :=
  { e.setAnswers p (e.answersOf p).tail with draws := e.draws + n + 1 }

/-- The state after a port answered. -/
def State.answered (s : State) (p : Port) (n : Nat) : State := { s with env := s.env.answered p n }

/-! ## Flash ports -/

/-- One byte of flash (spec/20_memory.md R43). -/
def State.flashByte (s : State) (a : Nat) : Byte := s.flash.read s.cfg.erasedByte a

/-- Flash bytes of `[a, a + n)`. -/
def State.flashBytes (s : State) (a n : Nat) : List Byte := s.flash.readBytes s.cfg.erasedByte a n

/-- Flash from `a` upwards becomes `bytes`. -/
def State.setFlash (s : State) (a : Nat) (bytes : List Byte) : State :=
  { s with flash := s.flash.writeBytes s.cfg.erasedByte a bytes }

/-- Flash of `[a, a + n)` becomes ERASED_BYTE. -/
def State.eraseFlash (s : State) (a n : Nat) : State := { s with flash := s.flash.erase a n }

/-- `FlashRead(a, n)` (R43). Outside the covered addresses the spec makes no call (R38, log 6). -/
def flashRead (a n : Nat) (s : State) : Res (List Byte) :=
  if rangeCovered s.cfg a n then (call (.flashRead a n) s).bind fun _ s => .ok (s.flashBytes a n) s
  else .fault .uncoveredFlash

/-- One call of a port with a verdict of the environment's, recorded as `e` of that verdict, with `n` open bytes. Power
may be lost before it. -/
def answeredCall (p : Port) (n : Nat) (e : Verdict → Event) (s : State) : Res Verdict :=
  (call (e (s.env.verdictOf p)) s).bind fun _ s => .ok (s.env.verdictOf p) (s.answered p n)

/-- The outcome of an answered call; power may be lost while it runs (R46, R135). -/
def verdictResult (v : Verdict) (s : State) : Res Bool :=
  match v with
  | .ok => .ok true s
  | .fail => .ok false s
  | .powerLoss => .ended (powerOff s)

/-- `ProgramBlock(a, data)` (R44). On `false` the range holds unspecified bytes; the same when power is lost during the
call (R46, spec/93_implementation_defined.md I9). -/
def programBlock (a : Nat) (data : List Byte) (s : State) : Res Bool :=
  if rangeCovered s.cfg a data.length then
    let junk := s.env.bytesOf .program data.length
    (answeredCall .program data.length (.programBlock a data) s).bind fun v s =>
      verdictResult v (s.setFlash a (if v = .ok then data else junk))
  else .fault .uncoveredFlash

/-- `EraseSector(sector_id, bank_id)` of one table entry (R45). -/
def eraseSector (e : Sector) (s : State) : Res Bool :=
  let junk := s.env.bytesOf .erase e.size
  (answeredCall .erase e.size (.eraseSector e.sectorId e.bankId) s).bind fun v s =>
    verdictResult v (if v = .ok then s.eraseFlash e.start e.size else s.setFlash e.start junk)

/-- `Decrypt(B.buf, WBS)` (R47): the buffer becomes any WBS bytes, whatever the result. -/
def decrypt (b : BlockId) (s : State) : Res Bool :=
  let bytes := s.env.bytesOf .decrypt s.cfg.wbs
  (answeredCall .decrypt s.cfg.wbs (.decrypt s.cfg.wbs) s).bind fun v s => verdictResult v (s.setBuf b bytes)

/-! ## Byte transmit ports -/

/-- `TxByte_PF(b)` (R49). -/
def txBytePf (b : Byte) (s : State) : Res Bool := (answeredCall .txPf 0 (.txPf b) s).bind verdictResult

/-- `TxByte_MB(b)` (R49). -/
def txByteMb (b : Byte) (s : State) : Res Bool := (answeredCall .txMb 0 (.txMb b) s).bind verdictResult

/-- `TxByte_MB_Last(b)`: it returns only when the last bit has left the wire (R49,
spec/70_reset_and_hazards.md R147). -/
def txByteMbLast (b : Byte) (s : State) : Res Bool := (answeredCall .txMb 0 (.txMbLast b) s).bind verdictResult

end Sys2Proof.Machine
end

