-- ==== Sys2Proof/Machine/Operands.lean ====
section
/-! DEFINITION. The operand forms of spec/30_encoding.md R64: ARG_ADDR, ARG_LEN, `DBUF[0 .. len)`, and the range checks
that read them. A read of an operand the upstream agent never wrote faults (spec/10_state.md R36, log 3). -/

namespace Sys2Proof.Machine

open Sys2Proof

/-- `addr = ARG_ADDR`. Never written: "a fault, never a value" (spec/10_state.md R36). -/
def readArgAddr (s : State) : Res Nat :=
  if s.host.argAddrWritten then .ok s.host.argAddr.toNat s else .fault .unwrittenOperand

/-- `len = ARG_LEN`. Never written: "a fault, never a value" (R36). -/
def readArgLen (s : State) : Res Nat :=
  if s.host.argLenWritten then .ok s.host.argLen.toNat s else .fault .unwrittenOperand

/-- Has every byte of `DBUF[0 .. n)` been written since reset? -/
def dataWritten (h : HostRegs) (n : Nat) : Bool :=
  decide (n ≤ h.dbufWritten.length) && (h.dbufWritten.take n).all fun w => w

/-- `data = DBUF[0 .. n)`, read whole (log 13). A byte of it never written: "a fault, never a value" (R36). -/
def readData (n : Nat) (s : State) : Res (List Byte) :=
  if dataWritten s.host n then .ok (s.host.dbuf.take n) s else .fault .unwrittenOperand

/-- The length check of every command that reads DBUF: it comes before anything else is read (spec/30_encoding.md R64,
decision D10). -/
def dataLenOk (c : Config) (n : Nat) : Bool := decide (n ≤ c.dbufSize)

/-- The length check of PF_TRANSMIT and MB_TRANSMIT (spec/41_packet_framer.md R93, spec/43_modbus_frame.md R116). -/
def packetLenOk (c : Config) (n : Nat) : Bool :=
  dataLenOk c n && decide (n ≠ 0) && decide (n ≤ c.maxData)

/-- The operands of PF_TRANSMIT and MB_TRANSMIT: RangeError before anything else happens. -/
def readPacket (s : State) : Res (List Byte) :=
  (readArgLen s).bind fun n s =>
    if packetLenOk s.cfg n then readData n s else raise .rangeError s

/-- The range check of NVM_WRITE (spec/40_nvm_block.md R80). -/
def writeRangeOk (c : Config) (a n : Nat) : Bool := dataLenOk c n && rangeCovered c a n

/-- The range check of NVM_ERASE (R82): only the two boundary bytes are covered. -/
def eraseRangeOk (c : Config) (a n : Nat) : Bool :=
  decide (n ≠ 0) && decide (a + n ≤ Params.addrSpace) && covered c a && covered c (a + n - 1)

end Sys2Proof.Machine
end

