-- ==== Sys2Proof/Machine/Crc.lean ====
section
/-! DEFINITION. The CRC-16/Modbus generator, spec/42_crc16.md R101 to R106 (log 16). -/

namespace Sys2Proof.Machine

open Sys2Proof

/-- One bit of R102's loop. -/
def crcBit (c : Half) : Half := if c.getLsbD 0 then (c >>> 1) ^^^ 0xA001 else c >>> 1

/-- `n` bits of R102's loop. -/
def crcBits : Nat → Half → Half
  | 0, c => c
  | n + 1, c => crcBits n (crcBit c)

/-- `CrcStep(c, b)` (R102). -/
def crcStep (c : Half) (b : Byte) : Half := crcBits 8 (c ^^^ b.setWidth 16)

/-- The remainder after a byte run, from `c`. -/
def crcFeed : Half → List Byte → Half
  | c, [] => c
  | c, b :: bs => crcFeed (crcStep c b) bs

/-- `Crc16(s)` (R102). -/
def crc16 (s : List Byte) : Half := crcFeed 0xFFFF s

/-- CRC-lo, the byte sent first (R106, spec/20_memory.md R41 (b)). -/
def crcLo (c : Half) : Byte := c.setWidth 8

/-- CRC-hi (R106). -/
def crcHi (c : Half) : Byte := (c >>> 8).setWidth 8

/-- CRC_INIT (R103). -/
def execCrcInit (s : State) : Host.Outcome State Fault Refusal := .next (crcInitBody s)

/-- CRC_BYTE (R104). -/
def execCrcByte (b : Byte) (s : State) : Host.Outcome State Fault Refusal :=
  .next ({ s with crcReg := crcStep s.crcReg b }.setStatus .ok)

/-- CRC_READ (R106). -/
def execCrcRead (s : State) : Host.Outcome State Fault Refusal :=
  .next ((s.setResult (s.crcReg.setWidth 32)).setStatus .ok)

/-- CRC_BLOCK (R105). -/
def execCrcBlock (s : State) : Host.Outcome State Fault Refusal :=
  ((readArgLen s).bind fun n s =>
    if dataLenOk s.cfg n then
      (readData n s).bind fun data s => .ok () { s with crcReg := crcFeed s.crcReg data }
    else raise .rangeError s).finish

end Sys2Proof.Machine
end

