-- ==== Sys2Proof/Machine/Mb.lean ====
section
/-! DEFINITION. The Modbus RTU frame unit, spec/43_modbus_frame.md R108 to R118. -/

namespace Sys2Proof.Machine

open Sys2Proof

/-- The frame bytes before the CRC (R108). -/
def frameBody (c : Config) (p : List Byte) : List Byte :=
  c.nodeId :: c.functionCode :: BitVec.ofNat 8 p.length :: p

/-- `Frame(P)` (R108). -/
def frame (c : Config) (p : List Byte) : List Byte :=
  frameBody c p ++ [crcLo (crc16 (frameBody c p)), crcHi (crc16 (frameBody c p))]

/-! ## Reception -/

/-- The checks of R113 on the buffered bytes `f`; the length check is between integers. -/
def frameValid (c : Config) (f : List Byte) : Bool :=
  let n := f.length
  let len := (f.getD 2 0).toNat
  decide ((crc16 (f.take (n - 2))).toNat = (f.getD (n - 2) 0).toNat + 256 * (f.getD (n - 1) 0).toNat) &&
    decide (f.getD 0 0 = c.nodeId) && decide (f.getD 1 0 = c.functionCode) &&
    decide ((len : Int) = (n : Int) - 5) && (decide (1 ≤ len) || c.mbAcceptEmpty)

/-- `MB_Validate()` (R113). -/
def mbValidate (s : State) : State :=
  let f := s.mb.buf.take s.mb.count
  if frameValid s.cfg f then s.deliver (f.getD 2 0) ((f.drop 3).take (f.getD 2 0).toNat) else s

/-- `MB_COUNT <- n`. -/
def setMbCount (n : Nat) (s : State) : State := { s with mb := { s.mb with count := n } }

/-- `MB_Boundary(now)` (R112). -/
def mbBoundary (now : Word) (s : State) : State :=
  if s.mb.t35.toNat ≤ elapsed now s.mb.lastTick then
    if s.mb.sync then { s with mb := { s.mb with sync := false } }
    else if 4 ≤ s.mb.count then setMbCount 0 (mbValidate s)
    else if 1 ≤ s.mb.count then setMbCount 0 s
    else s
  else s

/-- `MB_Byte(b, now)` (R114). -/
def mbByte (b : Byte) (now : Word) (s : State) : State :=
  let s1 := { s with mb := { s.mb with lastTick := now } }
  if s1.mb.sync then s1
  else if s1.mb.count = s1.cfg.mbBufSize then { s1 with mb := { s1.mb with count := 0, sync := true } }
  else { s1 with mb := { s1.mb with buf := s1.mb.buf.set s1.mb.count b, count := s1.mb.count + 1 } }

/-- What a poll does with the answer of `RxByte_MB` (R111). -/
def mbTake (r : Option Byte) (now : Word) (s : State) : State :=
  match r with
  | none => s
  | some b => mbByte b now s

/-! ## Transmission -/

/-- The send loop of MB_TRANSMIT (R116): the last byte with `TxByte_MB_Last`, and no byte after one that fails. -/
def mbSend : List Byte → State → Res Bool
  | [], s => .ok true s
  | [b], s => txByteMbLast b s
  | b :: b' :: bs, s => (txByteMb b s).bind fun ok s => if ok then mbSend (b' :: bs) s else .ok false s

/-- The end of MB_TRANSMIT: release the driver, then HwError or OK (R116). -/
def mbRelease (ok : Bool) (s : State) : Res Unit :=
  (driveEnable false s).bind fun _ s =>
    let s := { s with wait := .idle }
    if ok then .ok () s else raise .hwError s

/-- The post-delay of MB_TRANSMIT (R116). -/
def mbPostWait (t0 : Word) (ok : Bool) (s : State) : Res Unit :=
  (delayWait s.cfg.mbPostDelayTicks t0 s.env.waitSamples s).bind fun done s =>
    if done then mbRelease ok s else .ended { s with wait := .mbPost t0 ok }

/-- MB_TRANSMIT after its pre-delay: the bytes, then the post-delay from a new NOW_TICK sample (R116). -/
def mbSendFrame (f : List Byte) (s : State) : Res Unit :=
  (mbSend f s).bind fun ok s => (readTick (moveTick s)).bind fun t0 s => mbPostWait t0 ok s

/-- The pre-delay of MB_TRANSMIT (R116). -/
def mbPreWait (t0 : Word) (f : List Byte) (s : State) : Res Unit :=
  (delayWait s.cfg.mbPreDelayTicks t0 s.env.waitSamples s).bind fun done s =>
    if done then mbSendFrame f s else .ended { s with wait := .mbPre t0 f }

/-! ## The commands -/

/-- MB_INIT (R110). -/
def execMbInit (s : State) : Host.Outcome State Fault Refusal := (mbInitBody s).finish

/-- MB_TRANSMIT (R116): the pre-delay's `t0 <- NOW_TICK` is the sample at the command's start (R31). -/
def execMbTransmit (s : State) : Host.Outcome State Fault Refusal :=
  ((readPacket s).bind fun data s =>
    (driveEnable true s).bind fun _ s =>
      (readTick s).bind fun t0 s => mbPreWait t0 (frame s.cfg data) s).finish

/-- MB_POLL (R111): the boundary first, then at most one byte. -/
def execMbPoll (s : State) : Host.Outcome State Fault Refusal :=
  ((readTick s).bind fun now s =>
    (rxByteMb (mbBoundary now (s.setResult 0))).bind fun r s => .ok () (mbTake r now s)).finish

/-- MB_GET_T35 (R118). -/
def execMbGetT35 (s : State) : Host.Outcome State Fault Refusal :=
  .next ((s.setResult s.mb.t35).setStatus .ok)

/-- One more turn of what keeps the block from accepting a command: the busy wait of a command in progress goes on
(log 11), or the reset sequence runs after a power loss (R135, R138). -/
def resumeWait (s : State) : Host.Outcome State Fault Refusal :=
  match s.wait with
  | .idle => .next s
  | .reset => (resetSequence s).finish
  | .mbInit t0 => (idleWait s.env.waitSamples t0 s).finish
  | .mbPre t0 f => (mbPreWait t0 f s).finish
  | .mbPost t0 ok => (mbPostWait t0 ok s).finish

end Sys2Proof.Machine
end

