-- ==== Sys2Proof/Machine/Nvm.lean ====
section
/-! DEFINITION. The NVM block buffer unit, spec/40_nvm_block.md R74 to R91. -/

namespace Sys2Proof.Machine

open Sys2Proof

/-! ## The internal operations of R74 to R77 -/

/-- `OpenBlock(B, base)` (R74). -/
def openBlock (b : BlockId) (base : Nat) (s : State) : Res Unit :=
  if (s.block b).valid && decide ((s.block b).base.toNat = base) then .ok () s
  else
    (flashRead base s.cfg.wbs s).bind fun bytes s =>
      .ok () (s.setBlock b { valid := true, base := BitVec.ofNat 32 base, buf := bytes })

/-- `FlushBlock(B)` (R75): Decrypt first when CRYPTO_ENABLED, then ProgramBlock. -/
def flushBlock (b : BlockId) (s : State) : Res Bool :=
  if s.cfg.cryptoEnabled then
    (decrypt b s).bind fun ok s =>
      if ok then programBlock (s.block b).base.toNat (s.block b).buf s else .ok false s
  else programBlock (s.block b).base.toNat (s.block b).buf s

/-- `SwitchBlock(B, nb)` (R76); `none` is FAIL. -/
def switchBlock (b : BlockId) (nb : Nat) (s : State) : Res (Option BlockId) :=
  match b with
  | .boot =>
    (if s.gen.valid && decide (s.gen.base.toNat ≠ nb) then flushBlock .gen s else .ok true s).bind
      fun ok s =>
        if ok then (openBlock .gen nb s).bind fun _ s => .ok (some .gen) s else .ok none s
  | .gen =>
    if nb = s.cfg.bootBase then
      (openBlock .boot s.cfg.bootBase s).bind fun _ s => .ok (some .boot) s
    else
      (flushBlock .gen s).bind fun ok s =>
        if ok then (openBlock .gen nb s).bind fun _ s => .ok (some .gen) s else .ok none s

/-- The copying loop of `AddToBlock` (R77) with B at base `cb` and the next byte at offset `off`: it switches only when
another byte remains. -/
def copyBytes : BlockId → Nat → Nat → List Byte → State → Res Unit
  | _, _, _, [], s => .ok () s
  | b, cb, off, d :: ds, s =>
    if off = s.cfg.wbs then
      (switchBlock b (cb + s.cfg.wbs) s).bind fun r s =>
        match r with
        | none => raise .hwError s
        | some b' => copyBytes b' (cb + s.cfg.wbs) 1 ds (s.setBufByte b' 0 d)
    else copyBytes b cb (off + 1) ds (s.setBufByte b off d)

/-- The block that `AddToBlock` starts in: opened lazily, or switched to when open at another base (R77). -/
def enterBlock (b : BlockId) (cb : Nat) (s : State) : Res (Option BlockId) :=
  if (s.block b).valid then
    if (s.block b).base.toNat = cb then .ok (some b) s else switchBlock b cb s
  else (openBlock b cb s).bind fun _ s => .ok (some b) s

/-- `AddToBlock(B, a, data, n)` (R77). -/
def addToBlock (b : BlockId) (a : Nat) (data : List Byte) (s : State) : Res Unit :=
  (enterBlock b (blockBase s.cfg a) s).bind fun r s =>
    match r with
    | none => raise .hwError s
    | some b' => copyBytes b' (blockBase s.cfg a) (a - blockBase s.cfg a) data s

/-- The routing of NVM_WRITE: to the boot block if the block base is BOOT_BASE, else to the generic block (R80). -/
def routeWrite (a : Nat) (data : List Byte) (s : State) : Res Unit :=
  if blockBase s.cfg a = s.cfg.bootBase then addToBlock .boot a data s else addToBlock .gen a data s

/-- The body of NVM_WRITE (R80), with its data from DBUF or from an internal copy (R85). -/
def writeBody (a n : Nat) (data : State → Res (List Byte)) (s : State) : Res Unit :=
  if writeRangeOk s.cfg a n then (data s).bind fun bytes s => routeWrite a bytes s
  else raise .rangeError s

/-- The erase loop of R82: every entry that intersects `[a, a + n)`, in table order. -/
def eraseLoop (a n : Nat) : List Sector → State → Res Unit
  | [], s => .ok () s
  | e :: es, s =>
    if intersects e a n then
      (eraseSector e s).bind fun ok s => if ok then eraseLoop a n es s else raise .hwError s
    else eraseLoop a n es s

/-- The sum of the first `k` vector words of a boot block image. -/
def vectorSum (c : Config) (buf : List Byte) : Nat → Nat
  | 0 => 0
  | k + 1 => vectorSum c buf k + wordOf c buf (k * c.csBytes)

/-- `Checksum(s)` (R84). -/
def checksum (c : Config) (buf : List Byte) : Nat :=
  (2 ^ c.csWidth - vectorSum c buf c.csWordCount % 2 ^ c.csWidth) % 2 ^ c.csWidth

/-- The summing loop of NVM_VERIFY_CHECKSUM (R87): `n` words from word `k` on. -/
def verifySum : Nat → Nat → Nat → State → Res Nat
  | _, 0, sum, s => .ok sum s
  | k, n + 1, sum, s =>
    (flashRead (s.cfg.bootBase + k * s.cfg.csBytes) s.cfg.csBytes s).bind fun bytes s =>
      verifySum (k + 1) n ((sum + wordOf s.cfg bytes 0) % 2 ^ s.cfg.csWidth) s

/-- Flush a block if it is open, and make it INVALID once flushed (R89). -/
def commitBlock (b : BlockId) (s : State) : Res Unit :=
  if (s.block b).valid then
    (flushBlock b s).bind fun ok s => if ok then .ok () (s.setValid b false) else raise .hwError s
  else .ok () s

/-! ## The commands -/

/-- NVM_INIT (R79). -/
def execNvmInit (s : State) : Host.Outcome State Fault Refusal := .next (nvmInitBody s)

/-- NVM_WRITE (R80). A length above DBUF_SIZE is a RangeError before ARG_ADDR is read (spec/30_encoding.md R64). -/
def execNvmWrite (s : State) : Host.Outcome State Fault Refusal :=
  ((readArgLen s).bind fun n s =>
    if dataLenOk s.cfg n then (readArgAddr s).bind fun a s => writeBody a n (fun s => readData n s) s
    else raise .rangeError s).finish

/-- NVM_ERASE (R82). -/
def execNvmErase (s : State) : Host.Outcome State Fault Refusal :=
  ((readArgAddr s).bind fun a s =>
    (readArgLen s).bind fun n s =>
      if eraseRangeOk s.cfg a n then eraseLoop a n s.cfg.sectorTable s else raise .rangeError s).finish

/-- NVM_WRITE_CHECKSUM (R85). -/
def execNvmWriteChecksum (s : State) : Host.Outcome State Fault Refusal :=
  (if s.boot.valid then
    writeBody (s.cfg.bootBase + s.cfg.csOffset) s.cfg.csBytes
      (fun s' => .ok (serialize s.cfg (checksum s.cfg s.boot.buf)) s') s
  else .ok () s).finish

/-- NVM_VERIFY_CHECKSUM (R87). -/
def execNvmVerifyChecksum (s : State) : Host.Outcome State Fault Refusal :=
  ((verifySum 0 s.cfg.csWordCount 0 s).bind fun sum s =>
    (flashRead (s.cfg.bootBase + s.cfg.csOffset) s.cfg.csBytes s).bind fun bytes s =>
      .ok () (s.setResult
        (if (sum + wordOf s.cfg bytes 0) % 2 ^ s.cfg.csWidth = 0 then 1 else 0))).finish

/-- NVM_DONE (R89): the generic block first, the boot block last (spec/90_conflicts.md C1). -/
def execNvmDone (s : State) : Host.Outcome State Fault Refusal :=
  ((commitBlock .gen s).bind fun _ s => commitBlock .boot s).finish

/-- NVM_GET_USER_PROGRAM_BASE (R91). -/
def execNvmGetUserProgramBase (s : State) : Host.Outcome State Fault Refusal :=
  .next ((s.setResult (BitVec.ofNat 32 s.cfg.bootBase)).setStatus .ok)

end Sys2Proof.Machine
end

