-- ==== Sys2Proof/Machine/Pf.lean ====
section
/-! DEFINITION. The length-prefixed packet framer, spec/41_packet_framer.md R92 to R98. -/

namespace Sys2Proof.Machine

open Sys2Proof

/-- The send loop of PF_TRANSMIT (R93): stop at the first byte that is not accepted. -/
def pfSend : List Byte → State → Res Unit
  | [], s => .ok () s
  | b :: bs, s => (txBytePf b s).bind fun ok s => if ok then pfSend bs s else raise .hwError s

/-- `PF_Timeout(now)` (R96). -/
def pfTimeout (now : Word) (s : State) : State :=
  if s.pf.state = .receiving ∧ s.cfg.pfTimeoutMs ≤ elapsed now s.pf.lastMs then
    { s with pf := { s.pf with state := .idle, count := 0 } }
  else s

/-- `PF_Idle(b, now)` (R97): a byte in IDLE is a length byte, or is dropped. -/
def pfIdle (b : Byte) (now : Word) (s : State) : State :=
  if 1 ≤ b.toNat ∧ b.toNat ≤ s.cfg.maxData then
    { s with pf := { s.pf with state := .receiving, expected := b, count := 0, lastMs := now } }
  else s

/-- `PF_Recv(b, now)` (R98): a byte in RECEIVING is payload; the last one delivers the packet. -/
def pfRecv (b : Byte) (now : Word) (s : State) : State :=
  let buf := s.pf.buf.set s.pf.count.toNat b
  let count := s.pf.count + 1
  if count = s.pf.expected then
    { s with pf := { s.pf with state := .idle, count := 0, lastMs := now, buf := buf } }.deliver
      s.pf.expected (buf.take s.pf.expected.toNat)
  else { s with pf := { s.pf with count := count, lastMs := now, buf := buf } }

/-- What a poll does with the answer of `RxByte_PF` (R95). -/
def pfTake (r : Option Byte) (now : Word) (s : State) : State :=
  match r with
  | none => s
  | some b => if s.pf.state = .idle then pfIdle b now s else pfRecv b now s

/-- PF_INIT (R92). -/
def execPfInit (s : State) : Host.Outcome State Fault Refusal := .next (pfInitBody s)

/-- PF_TRANSMIT (R93): the length byte, then the payload. -/
def execPfTransmit (s : State) : Host.Outcome State Fault Refusal :=
  ((readPacket s).bind fun data s => pfSend (BitVec.ofNat 8 data.length :: data) s).finish

/-- PF_POLL (R95): the timeout first, then at most one byte. -/
def execPfPoll (s : State) : Host.Outcome State Fault Refusal :=
  ((readMs s).bind fun now s =>
    (rxBytePf (pfTimeout now (s.setResult 0))).bind fun r s => .ok () (pfTake r now s)).finish

end Sys2Proof.Machine
end

