-- ==== Sys2Proof/Machine/Dispatch.lean ====
section
/-! DEFINITION. The dispatch of a decoded command to its meaning (spec/30_encoding.md R62). -/

namespace Sys2Proof.Machine

open Sys2Proof

def exec (i : Instr) (s : State) : Host.Outcome State Fault Refusal :=
  match i with
  | .nvmInit => Sys2Proof.Machine.execNvmInit s
  | .nvmWrite => Sys2Proof.Machine.execNvmWrite s
  | .nvmErase => Sys2Proof.Machine.execNvmErase s
  | .nvmWriteChecksum => Sys2Proof.Machine.execNvmWriteChecksum s
  | .nvmVerifyChecksum => Sys2Proof.Machine.execNvmVerifyChecksum s
  | .nvmDone => Sys2Proof.Machine.execNvmDone s
  | .nvmGetUserProgramBase => Sys2Proof.Machine.execNvmGetUserProgramBase s
  | .pfInit => Sys2Proof.Machine.execPfInit s
  | .pfTransmit => Sys2Proof.Machine.execPfTransmit s
  | .pfPoll => Sys2Proof.Machine.execPfPoll s
  | .crcInit => Sys2Proof.Machine.execCrcInit s
  | .crcByte b => Sys2Proof.Machine.execCrcByte b s
  | .crcRead => Sys2Proof.Machine.execCrcRead s
  | .crcBlock => Sys2Proof.Machine.execCrcBlock s
  | .mbInit => Sys2Proof.Machine.execMbInit s
  | .mbTransmit => Sys2Proof.Machine.execMbTransmit s
  | .mbPoll => Sys2Proof.Machine.execMbPoll s
  | .mbGetT35 => Sys2Proof.Machine.execMbGetT35 s

end Sys2Proof.Machine
end

