-- ==== Sys2Proof/Decode.lean ====
section
/-! DEFINITION. The decoder of spec/30_encoding.md R71, total on 16-bit words, with a name for each reason of R65, and
after it the encoder of R61. -/

namespace Sys2Proof

/-- Why a word is ILLEGAL (R65 (a), (b), (c)). All three have one effect, `STATUS <- 3`. -/
inductive DecodeError where
  /-- R65 (a): UNIT is 0x4 to 0xF. -/
  | reservedUnit
  /-- R65 (b): the unit is defined, the OP is reserved. -/
  | reservedOp
  /-- R65 (c): a defined UNIT and OP other than CRC_BYTE with a non-zero IMM8. -/
  | nonzeroImm
deriving DecidableEq, Repr

/-- `UNIT = w[15:12]` (R59). -/
def unitOf (w : Half) : Nat := w.toNat / 4096

/-- `OP = w[11:8]` (R59). -/
def opOf (w : Half) : Nat := w.toNat / 256 % 16

/-- `IMM8 = w[7:0]` (R59). -/
def immOf (w : Half) : Byte := BitVec.ofNat 8 w.toNat

/-- The opcode map of R61 and R71 without the immediate: the command of a UNIT and an OP. -/
def commandOf (unit op : Nat) (imm : Byte) : Except DecodeError Instr :=
  match unit with
  | 0 =>
    match op with
    | 0 => .ok .nvmInit
    | 1 => .ok .nvmWrite
    | 2 => .ok .nvmErase
    | 3 => .ok .nvmWriteChecksum
    | 4 => .ok .nvmVerifyChecksum
    | 5 => .ok .nvmDone
    | 6 => .ok .nvmGetUserProgramBase
    | _ => .error .reservedOp
  | 1 =>
    match op with
    | 0 => .ok .pfInit
    | 1 => .ok .pfTransmit
    | 2 => .ok .pfPoll
    | _ => .error .reservedOp
  | 2 =>
    match op with
    | 0 => .ok .crcInit
    | 1 => .ok (.crcByte imm)
    | 2 => .ok .crcRead
    | 3 => .ok .crcBlock
    | _ => .error .reservedOp
  | 3 =>
    match op with
    | 0 => .ok .mbInit
    | 1 => .ok .mbTransmit
    | 2 => .ok .mbPoll
    | 3 => .ok .mbGetT35
    | _ => .error .reservedOp
  | _ => .error .reservedUnit

/-- Does a command use IMM8? Only CRC_BYTE does (R63). -/
def usesImm : Instr → Bool
  | .crcByte _ => true
  | .nvmInit | .nvmWrite | .nvmErase | .nvmWriteChecksum | .nvmVerifyChecksum | .nvmDone
  | .nvmGetUserProgramBase | .pfInit | .pfTransmit | .pfPoll | .crcInit | .crcRead | .crcBlock
  | .mbInit | .mbTransmit | .mbPoll | .mbGetT35 => false

/-- `Decode(w)` of R71. -/
def decode (w : Half) : Except DecodeError Instr :=
  match commandOf (unitOf w) (opOf w) (immOf w) with
  | .error e => .error e
  | .ok i => if usesImm i || decide (immOf w = 0) then .ok i else .error .nonzeroImm

/-- The decoder as the host asks for it: the command of a table word. A command word is one 16-bit word written to CMD
(R67), so there is no byte order and no length to determine. -/
def decodeTableWord (nbits w : Nat) : Option Instr :=
  match decode (BitVec.ofNat 16 (w % 2 ^ nbits)) with
  | .ok i => some i
  | .error _ => none

/-- The UNIT and OP of a command, as the one number `w[15:8]` (R60, R61). -/
def opByte : Instr → Nat
  | .nvmInit => 0x00
  | .nvmWrite => 0x01
  | .nvmErase => 0x02
  | .nvmWriteChecksum => 0x03
  | .nvmVerifyChecksum => 0x04
  | .nvmDone => 0x05
  | .nvmGetUserProgramBase => 0x06
  | .pfInit => 0x10
  | .pfTransmit => 0x11
  | .pfPoll => 0x12
  | .crcInit => 0x20
  | .crcByte _ => 0x21
  | .crcRead => 0x22
  | .crcBlock => 0x23
  | .mbInit => 0x30
  | .mbTransmit => 0x31
  | .mbPoll => 0x32
  | .mbGetT35 => 0x33

/-- The IMM8 of a command: the byte of CRC_BYTE, else 0 (R63). -/
def immByte : Instr → Nat
  | .crcByte b => b.toNat
  | .nvmInit | .nvmWrite | .nvmErase | .nvmWriteChecksum | .nvmVerifyChecksum | .nvmDone
  | .nvmGetUserProgramBase | .pfInit | .pfTransmit | .pfPoll | .crcInit | .crcRead | .crcBlock
  | .mbInit | .mbTransmit | .mbPoll | .mbGetT35 => 0

/-- The command word of a command (R61). -/
def encode (i : Instr) : Half := BitVec.ofNat 16 (256 * opByte i + immByte i)

end Sys2Proof
end

