-- ==== Sys2Proof/Machine/Upstream.lean ====
section
/-! DEFINITION. The register interface as the upstream agent sees it (spec/10_state.md R17 to R23, R36), the moves of the
environment (spec/30_encoding.md R69), the pseudo-commands (R70), and how a command word is placed (R58). -/

namespace Sys2Proof.Machine

open Sys2Proof

/-- The value of a readable register, `none` before anything wrote it (R36). -/
def readValue (h : HostRegs) : ReadReg → Option Word
  | .cmd => if h.cmdWritten then some (h.cmd.setWidth 32) else none
  | .argAddr => if h.argAddrWritten then some h.argAddr else none
  | .argLen => if h.argLenWritten then some h.argLen else none
  | .dbuf i => if h.dbufWritten.getD i false then some ((h.dbuf.getD i 0).setWidth 32) else none
  | .status => some (h.status.setWidth 32)
  | .result => some h.result
  | .pktLen => if h.pktLenWritten then some (h.pktLen.setWidth 32) else none
  | .pktData i => if i < h.pktDataWritten then some ((h.pktData.getD i 0).setWidth 32) else none

/-- A register read by the upstream agent; it changes nothing the block holds (log 15). Of what nothing has written it is
"fault on read" (spec/93_implementation_defined.md I8; spec/10_state.md R36). -/
def readRegister (r : ReadReg) (s : State) : Host.Outcome State Fault Refusal :=
  match readValue s.host r with
  | some v => .next { s with readBus := v }
  | none => .fault .unwrittenRead

/-- A write of ARG_ADDR (R18). -/
def writeArgAddr (v : Word) (s : State) : State :=
  { s with host := { s.host with argAddr := v, argAddrWritten := true } }

/-- A write of ARG_LEN (R19). -/
def writeArgLen (v : Word) (s : State) : State :=
  { s with host := { s.host with argLen := v, argLenWritten := true } }

/-- A write of one DBUF byte (R20). -/
def writeDbuf (i : Nat) (b : Byte) (s : State) : State :=
  { s with host := { s.host with dbuf := s.host.dbuf.set i b, dbufWritten := s.host.dbufWritten.set i true } }

/-- A write of CMD, before its command runs (R17). -/
def writeCmd (w : Half) (s : State) : State :=
  { s with host := { s.host with cmd := w, cmdWritten := true } }

/-- A move of the environment (R69, spec/10_state.md R15, R31; spec/20_memory.md R48). -/
def applyEnvMove (m : EnvMove) (s : State) : State :=
  match m with
  | .ms t => { s with env := { s.env with nowMs := t } }
  | .tick t => { s with env := { s.env with nowTick := t } }
  | .rxPf b => { s with env := { s.env with rxPf := s.env.rxPf ++ [b] } }
  | .rxMb b => { s with env := { s.env with rxMb := s.env.rxMb ++ [b] } }
  | .answer p a => { s with env := s.env.setAnswers p (s.env.answersOf p ++ [a]) }
  | .defaultAnswer d => { s with env := { s.env with defaultAnswer := d } }
  | .waitSample w => { s with env := { s.env with waitSamples := s.env.waitSamples ++ [w] } }
  | .powerLoss => powerOff s
  | .powerCut n => { s with env := { s.env with powerCut := some n } }

/-- The next command word: the upstream agent's next move is the write of `w` to CMD, the block accepts it, and the
operand registers hold what the agent wrote into them (R58 step 1; log 10). -/
def placeCommand (w : Half) (s : State) : State :=
  { s with
    host := { s.host with
      argAddrWritten := true
      argLenWritten := true
      dbufWritten := s.host.dbufWritten.map fun _ => true }
    wait := .idle
    moves := .up (.cmd w) :: s.moves }

/-! ## The pseudo-commands of R70 -/

/-- `DBUF[i ..] <- bytes`. -/
def fillDbuf : Nat → List Byte → List UpMove
  | _, [] => []
  | i, b :: bs => .dbuf i b :: fillDbuf (i + 1) bs

/-- `write(addr, len, data)`: `DBUF[0 .. len) <- data`. -/
def pseudoWrite (addr len : Word) (data : List Byte) : List UpMove :=
  .argAddr addr :: .argLen len :: fillDbuf 0 (data.take len.toNat) ++ [.cmd (encode .nvmWrite)]

/-- `erase(addr, len)`. -/
def pseudoErase (addr len : Word) : List UpMove := [.argAddr addr, .argLen len, .cmd (encode .nvmErase)]

/-- `write_checksum()`. -/
def pseudoWriteChecksum : List UpMove := [.cmd (encode .nvmWriteChecksum)]

/-- `verify_checksum()`. -/
def pseudoVerifyChecksum : List UpMove := [.cmd (encode .nvmVerifyChecksum)]

/-- `done()`. -/
def pseudoDone : List UpMove := [.cmd (encode .nvmDone)]

/-- `get_user_program_base()`. -/
def pseudoGetUserProgramBase : List UpMove := [.cmd (encode .nvmGetUserProgramBase)]

/-- `transmit_packet(data, len)` on PF or on MB: `DBUF <- data`. -/
def pseudoTransmit (onMb : Bool) (len : Word) (data : List Byte) : List UpMove :=
  .argLen len :: fillDbuf 0 data ++ [.cmd (encode (if onMb then .mbTransmit else .pfTransmit))]

/-- `receive_packet(&data, &len)` on PF or on MB. -/
def pseudoReceive (onMb : Bool) : List UpMove := [.cmd (encode (if onMb then .mbPoll else .pfPoll))]

/-- `crc16(bytes)`. -/
def pseudoCrc16 (bytes : List Byte) : List UpMove :=
  .cmd (encode .crcInit) :: .argLen (BitVec.ofNat 32 bytes.length) :: fillDbuf 0 bytes ++
    [.cmd (encode .crcBlock), .cmd (encode .crcRead)]

/-- The source's calls (R70). -/
inductive SourceCall where
  | write (addr len : Word) (data : List Byte)
  | erase (addr len : Word)
  | writeChecksum
  | verifyChecksum
  | done
  | getUserProgramBase
  | transmitPacket (onMb : Bool) (data : List Byte) (len : Word)
  | receivePacket (onMb : Bool)
  | crc16 (bytes : List Byte)
deriving DecidableEq, Repr

/-- The expansion column of R70. -/
def sourceCallMoves : SourceCall → List UpMove
  | .write addr len data => pseudoWrite addr len data
  | .erase addr len => pseudoErase addr len
  | .writeChecksum => pseudoWriteChecksum
  | .verifyChecksum => pseudoVerifyChecksum
  | .done => pseudoDone
  | .getUserProgramBase => pseudoGetUserProgramBase
  | .transmitPacket onMb data len => pseudoTransmit onMb len data
  | .receivePacket onMb => pseudoReceive onMb
  | .crc16 bytes => pseudoCrc16 bytes

/-- Does `RESULT = 1` give a call's boolean, and not `STATUS = OK`? (R70). -/
def successFromResult : SourceCall → Bool
  | .verifyChecksum | .receivePacket _ => true
  | .write _ _ _ | .erase _ _ | .writeChecksum | .done | .getUserProgramBase | .transmitPacket _ _ _ | .crc16 _ => false

/-- The boolean a call returns, in the state its last command left (R70). -/
def callSuccess (c : SourceCall) (s : State) : Bool :=
  if successFromResult c then decide (s.host.result = 1) else decide (s.host.status = statusValue .ok)

/-- The number a call returns: RESULT (R70). -/
def callResult (s : State) : Word := s.host.result

/-- What `receive_packet` returns beside its boolean: `len = PKT_LEN` and `data = PKT_DATA[0 .. PKT_LEN)` (R70). -/
def receivedPacket (s : State) : Nat × List Byte :=
  (s.host.pktLen.toNat, s.host.pktData.take s.host.pktLen.toNat)

/-- The register reads by which the upstream agent takes a call's boolean and number (R70). -/
def callReads : List UpMove := [.read .status, .read .result]

/-- The register reads by which it takes a received packet of length `n` (R70). -/
def packetReads (n : Nat) : List UpMove := .read .pktLen :: (List.range n).map fun i => .read (.pktData i)

end Sys2Proof.Machine
end

