-- ==== Sys2Proof/Machine/Issue.lean ====
section
/-! DEFINITION. A write of CMD starts exactly one execution of the decoded word (spec/30_encoding.md R62), and the other
moves of the upstream agent. -/

namespace Sys2Proof.Machine

open Sys2Proof

/-- A write of the word `w` to CMD: it is held in CMD, and the command it decodes to runs to completion; an ILLEGAL word
sets STATUS and nothing else (R62, R65). -/
def issue (w : Half) (s : State) : Host.Outcome State Fault Refusal :=
  match decode w with
  | .ok i => exec i (writeCmd w s)
  | .error _ => .next (illegal (writeCmd w s))

/-- A well-formed move of the upstream agent. -/
def runUpMove (m : UpMove) (s : State) : Host.Outcome State Fault Refusal :=
  match m with
  | .argAddr v => .next (writeArgAddr v s)
  | .argLen v => .next (writeArgLen v s)
  | .dbuf i b => .next (writeDbuf i b s)
  | .cmd w => issue w s
  | .read r => readRegister r s

/-- A move of the upstream agent; a DBUF or PKT_DATA byte the block does not have is refused. -/
def applyUpMove (m : UpMove) (s : State) : Host.Outcome State Fault Refusal :=
  if m.wf s.cfg.toParams then runUpMove m s else .refused .noSuchRegister

/-- The next move: the environment's are taken as they come; the upstream agent's wait while a command is in progress
(R62), which then goes on; with no move left the block does nothing of its own (spec/10_state.md R15). -/
def nextMove (s : State) : Host.Outcome State Fault Refusal :=
  match s.moves with
  | [] => resumeWait s
  | .env m :: ms => .next (applyEnvMove m { s with moves := ms })
  | .up m :: ms => if acceptsCommand s then applyUpMove m { s with moves := ms } else resumeWait s

end Sys2Proof.Machine
end

