-- ==== Sys2Proof/Safety.lean ====
section
/-! DEFINITION. What counts as a safe run: the invariants of spec/10_state.md R27, R28, R30 and of the model's own data,
and the terms in which statements speak of port calls and their coming answers. -/

namespace Sys2Proof.Machine

open Sys2Proof

/-- Flash is in its canonical form. -/
abbrev State.FlashOk (s : State) : Prop := s.flash.wf s.cfg.erasedByte = true

/-- The command interface: the buffers have their sizes (R20, R23), STATUS is one of the four codes (R21). -/
abbrev State.HostOk (s : State) : Prop :=
  s.host.dbuf.length = s.cfg.dbufSize ∧ s.host.dbufWritten.length = s.cfg.dbufSize ∧
    s.host.pktData.length = s.cfg.maxData ∧ s.host.pktDataWritten ≤ s.cfg.maxData ∧ s.host.status.toNat ≤ 3

/-- R27 (a), (c), (d) for the generic block. -/
abbrev State.GenOk (s : State) : Prop :=
  s.gen.buf.length = s.cfg.wbs ∧
    (s.gen.valid = true →
      s.gen.base.toNat % s.cfg.wbs = 0 ∧ s.gen.base.toNat ≠ s.cfg.bootBase ∧
        covered s.cfg s.gen.base.toNat = true)

/-- R27 (b) for the boot block. -/
abbrev State.BootOk (s : State) : Prop :=
  s.boot.buf.length = s.cfg.wbs ∧ (s.boot.valid = true → s.boot.base.toNat = s.cfg.bootBase)

/-- R28: in RECEIVING the length is in `1..MAX_DATA` and not yet reached; in IDLE nothing is accumulated. -/
abbrev State.PfOk (s : State) : Prop :=
  s.pf.buf.length = s.cfg.maxData ∧
    (s.pf.state = .receiving →
      1 ≤ s.pf.expected.toNat ∧ s.pf.expected.toNat ≤ s.cfg.maxData ∧ s.pf.count.toNat < s.pf.expected.toNat) ∧
    (s.pf.state = .idle → s.pf.count = 0)

/-- R30: the frame fits its buffer; nothing is kept while resynchronising; MB_T35 is T35(BAUD). -/
abbrev State.MbOk (s : State) : Prop :=
  s.mb.buf.length = s.cfg.mbBufSize ∧ s.mb.count ≤ s.cfg.mbBufSize ∧
    (s.mb.sync = true → s.mb.count = 0) ∧ s.mb.t35 = BitVec.ofNat 32 (t35Ticks s.cfg.baud)

/-- Is the command in progress an MB_TRANSMIT? -/
def Wait.transmitting : Wait → Bool
  | .idle => false
  | .reset => false
  | .mbInit _ => false
  | .mbPre _ _ => true
  | .mbPost _ _ => true

/-- R32: MB_DE is 1 only while MB_TRANSMIT runs, and 0 between commands. -/
abbrev State.DriverOk (s : State) : Prop := s.mb.de = s.wait.transmitting

/-- The invariant of every run. -/
abbrev State.Inv (s : State) : Prop :=
  s.FlashOk ∧ s.HostOk ∧ s.GenOk ∧ s.BootOk ∧ s.PfOk ∧ s.MbOk ∧ s.DriverOk

/-- Power stays on: no cut is coming and no listed answer cuts it. -/
def Env.noPowerLoss (e : Env) : Bool :=
  decide (e.powerCut = none) &&
    (e.programAnswers ++ e.eraseAnswers ++ e.decryptAnswers ++ e.txPfAnswers ++ e.txMbAnswers).all fun a =>
      decide (a.verdict ≠ .powerLoss)

/-- The verdicts of the coming calls of a port, `ns` their numbers of open bytes. -/
def Env.verdictsOf (e : Env) (p : Port) : List Nat → List Verdict
  | [] => []
  | n :: ns => e.verdictOf p :: (e.answered p n).verdictsOf p ns

/-- The environment after those calls. -/
def Env.afterCalls (e : Env) (p : Port) : List Nat → Env
  | [] => e
  | n :: ns => (e.answered p n).afterCalls p ns

/-- `buf` with `data` from offset `off` on. -/
def splice (buf : List Byte) (off : Nat) (data : List Byte) : List Byte :=
  buf.take off ++ data ++ buf.drop (off + data.length)

/-- The environment once a flush comes to its ProgramBlock: Decrypt has answered if CRYPTO_ENABLED (R75). -/
def State.flushEnv (s : State) : Env :=
  if s.cfg.cryptoEnabled then s.env.answered .decrypt s.cfg.wbs else s.env

/-- What a flush of block `b` programs: its buffer, or what Decrypt left in it (R75, R47). -/
def State.flushImage (s : State) (b : BlockId) : List Byte :=
  if s.cfg.cryptoEnabled then s.env.bytesOf .decrypt s.cfg.wbs else (s.block b).buf

/-- The calls of a flush before its ProgramBlock. -/
def State.flushEvents (s : State) : List Event :=
  if s.cfg.cryptoEnabled then [.decrypt s.cfg.wbs .ok] else []

/-- May the call have changed flash? -/
def Event.writesFlash : Event → Bool
  | .programBlock _ _ _ | .eraseSector _ _ _ => true
  | .nowMs _ | .nowTick _ | .flashRead _ _ | .decrypt _ _ | .rxPf _ | .rxMb _ | .txPf _ _ | .txMb _ _ | .txMbLast _ _
  | .kick | .driverEnable _ | .powerLoss => false

/-- The calls of the silent iterations of an idle-line wait (spec/43_modbus_frame.md R110). -/
def silentEvents (ws : List WaitSample) : List Event := ws.flatMap fun w => [.kick, .rxMb none, .nowTick w.tick]

/-- The calls of the iterations of a delay of MB_TRANSMIT (R116). -/
def delayEvents (ws : List WaitSample) : List Event := ws.flatMap fun w => [.kick, .nowTick w.tick]

/-- The same state, with power lost just before the port call after `n` further ones. -/
def State.withCut (s : State) (n : Nat) : State := { s with env := { s.env with powerCut := some n } }

/-- A state that differs in STATUS alone. -/
def State.withStatus (s : State) (v : BitVec 8) : State := { s with host := { s.host with status := v } }

/-- The checksum or vector word that flash holds at `a` (spec/20_memory.md R41 (c)). -/
def State.flashWord (s : State) (a : Nat) : Nat := wordOf s.cfg (s.flashBytes a s.cfg.csBytes) 0

/-- Has the upstream agent written ARG_LEN and `DBUF[0 .. n)`, with ARG_LEN `n`? -/
abbrev State.hasPacket (s : State) (n : Nat) : Prop :=
  s.host.argLenWritten = true ∧ s.host.argLen.toNat = n ∧ ∀ i, i < n → s.host.dbufWritten[i]? = some true

/-- Has the upstream agent written ARG_ADDR `a` and ARG_LEN `n`? -/
abbrev State.hasRange (s : State) (a n : Nat) : Prop :=
  s.host.argAddrWritten = true ∧ s.host.argAddr.toNat = a ∧ s.host.argLenWritten = true ∧ s.host.argLen.toNat = n

end Sys2Proof.Machine
end

