-- ==== Sys2Proof/Certificates/Slice0/Obligations.lean ====
section
/-! DEFINITION. The statements for the provers. Each docstring names the rules of spec/ it formalises. -/

open Sys2Proof Sys2Proof.Machine

/-! ## Encoding and issue -/

/-- R61: every row of the opcode map, its word written out, decodes to its command. -/
def Obligations.SpecWordsDecode : Prop :=
  decode 0x0000 = .ok .nvmInit ∧ decode 0x0100 = .ok .nvmWrite ∧ decode 0x0200 = .ok .nvmErase ∧
    decode 0x0300 = .ok .nvmWriteChecksum ∧ decode 0x0400 = .ok .nvmVerifyChecksum ∧
    decode 0x0500 = .ok .nvmDone ∧ decode 0x0600 = .ok .nvmGetUserProgramBase ∧
    decode 0x1000 = .ok .pfInit ∧ decode 0x1100 = .ok .pfTransmit ∧ decode 0x1200 = .ok .pfPoll ∧
    decode 0x2000 = .ok .crcInit ∧ decode 0x2131 = .ok (.crcByte 0x31) ∧ decode 0x2200 = .ok .crcRead ∧
    decode 0x2300 = .ok .crcBlock ∧
    decode 0x3000 = .ok .mbInit ∧ decode 0x3100 = .ok .mbTransmit ∧ decode 0x3200 = .ok .mbPoll ∧
    decode 0x3300 = .ok .mbGetT35

/-- R61, R63, R71: decoding and encoding agree in both directions, for every word and every command with every
operand. -/
def Obligations.DecodeEncodeAgree : Prop :=
  ∀ (w : Half) (i : Instr), decode w = .ok i ↔ encode i = w

/-- R65: which words are ILLEGAL: (a) a reserved UNIT, (b) a reserved OP, (c) a non-zero IMM8 outside CRC_BYTE. -/
def Obligations.IllegalWordsAreTheReservedOnes : Prop :=
  ∀ w : Half, (∃ e, decode w = .error e) ↔
    4 ≤ (w >>> 12).toNat ∨
    ((w >>> 12).toNat = 0 ∧ 7 ≤ ((w >>> 8).setWidth 4).toNat) ∨
    ((w >>> 12).toNat = 1 ∧ 3 ≤ ((w >>> 8).setWidth 4).toNat) ∨
    ((w >>> 12).toNat = 2 ∧ 4 ≤ ((w >>> 8).setWidth 4).toNat) ∨
    ((w >>> 12).toNat = 3 ∧ 4 ≤ ((w >>> 8).setWidth 4).toNat) ∨
    (w.setWidth 8 ≠ 0 ∧ (w >>> 8).toNat ≠ 0x21)

/-- R62: when the next move is a write of CMD, no command is in progress and the word decodes to `i`, the step is one
execution of `i`, with the word held in CMD and the move taken. -/
def Obligations.StepRunsDecodedCommand : Prop :=
  ∀ (s : State) (w : Half) (ms : List Move) (i : Instr),
    s.moves = .up (.cmd w) :: ms → s.wait = .idle → decode w = .ok i →
      step s = exec i { s with moves := ms, host := { s.host with cmd := w, cmdWritten := true } }

/-- R65, R124: an ILLEGAL word sets STATUS to 3 and changes nothing else. -/
def Obligations.IllegalWordSetsStatusOnly : Prop :=
  ∀ (s : State) (w : Half) (ms : List Move) (e : DecodeError),
    s.moves = .up (.cmd w) :: ms → s.wait = .idle → decode w = .error e →
      step s = .next { s with
        moves := ms, host := { s.host with cmd := w, cmdWritten := true, status := 3 } }

/-- R62, R31; a command held in its busy wait, or a reset sequence still to run, is the model's choice (log 11): while
either is in progress no move of the upstream agent is taken; the step is one more turn of it, which records at least
one port call or a power loss, loses no move and answers a next state. A move of the environment is taken as it comes.
-/
def Obligations.UpstreamWaitsForCommandInProgress : Prop :=
  ∀ s : State, s.wait ≠ .idle →
    (∀ m ms, s.moves = .up m :: ms → step s = resumeWait s) ∧
    (s.moves = [] → step s = resumeWait s) ∧
    (∀ m ms, s.moves = .env m :: ms → step s = .next (applyEnvMove m { s with moves := ms })) ∧
    (∃ t e es, resumeWait s = .next t ∧ t.moves = s.moves ∧ t.events = s.events ++ e :: es)

/-- R36, I5, R64; that the marks are kept apart from the registers (log 3) and that DBUF is read as a whole (log 13)
is the model's choice: a command that reads an operand the upstream agent never wrote faults. NVM_WRITE checks the
length against DBUF_SIZE before it reads ARG_ADDR. -/
def Obligations.UnwrittenOperandFaults : Prop :=
  ∀ s : State,
    (s.host.argAddrWritten = false → exec .nvmErase s = .fault .unwrittenOperand) ∧
    (s.host.argAddrWritten = false → s.host.argLen.toNat ≤ s.cfg.dbufSize →
      exec .nvmWrite s = .fault .unwrittenOperand) ∧
    (s.host.argLenWritten = false →
      exec .nvmWrite s = .fault .unwrittenOperand ∧ exec .nvmErase s = .fault .unwrittenOperand ∧
      exec .pfTransmit s = .fault .unwrittenOperand ∧ exec .mbTransmit s = .fault .unwrittenOperand ∧
      exec .crcBlock s = .fault .unwrittenOperand) ∧
    (s.host.argLenWritten = true → s.host.argLen.toNat ≤ s.cfg.dbufSize →
      (∃ i, i < s.host.argLen.toNat ∧ s.host.dbufWritten[i]? = some false) →
      exec .crcBlock s = .fault .unwrittenOperand ∧
      (s.host.argLen.toNat ≤ s.cfg.maxData →
        exec .pfTransmit s = .fault .unwrittenOperand ∧ exec .mbTransmit s = .fault .unwrittenOperand) ∧
      (s.host.argAddrWritten = true →
        rangeCovered s.cfg s.host.argAddr.toNat s.host.argLen.toNat = true →
        exec .nvmWrite s = .fault .unwrittenOperand))

/-- R122, R64: every RangeError cause sets STATUS to 1 and changes nothing else. A length above DBUF_SIZE is one of
NVM_WRITE even where ARG_ADDR was never written. -/
def Obligations.RangeErrorsChangeStatusOnly : Prop :=
  ∀ s : State,
    (s.host.argLenWritten = true → s.cfg.dbufSize < s.host.argLen.toNat →
      exec .nvmWrite s = .next (s.withStatus 1)) ∧
    (s.host.argAddrWritten = true → s.host.argLenWritten = true →
      (s.host.argLen.toNat = 0 ∨
        2 ^ 32 < s.host.argAddr.toNat + s.host.argLen.toNat ∨
        (∃ x, s.host.argAddr.toNat ≤ x ∧ x < s.host.argAddr.toNat + s.host.argLen.toNat ∧
          ∀ e ∈ s.cfg.sectorTable, ¬(e.start ≤ x ∧ x < e.start + e.size))) →
      exec .nvmWrite s = .next (s.withStatus 1)) ∧
    (s.host.argAddrWritten = true → s.host.argLenWritten = true →
      (s.host.argLen.toNat = 0 ∨ 2 ^ 32 < s.host.argAddr.toNat + s.host.argLen.toNat ∨
        (∀ e ∈ s.cfg.sectorTable,
          ¬(e.start ≤ s.host.argAddr.toNat ∧ s.host.argAddr.toNat < e.start + e.size)) ∨
        (∀ e ∈ s.cfg.sectorTable,
          ¬(e.start ≤ s.host.argAddr.toNat + s.host.argLen.toNat - 1 ∧
            s.host.argAddr.toNat + s.host.argLen.toNat - 1 < e.start + e.size))) →
      exec .nvmErase s = .next (s.withStatus 1)) ∧
    (s.host.argLenWritten = true →
      (s.host.argLen.toNat = 0 ∨ s.cfg.maxData < s.host.argLen.toNat ∨
        s.cfg.dbufSize < s.host.argLen.toNat) →
      exec .pfTransmit s = .next (s.withStatus 1) ∧ exec .mbTransmit s = .next (s.withStatus 1)) ∧
    (s.host.argLenWritten = true → s.cfg.dbufSize < s.host.argLen.toNat →
      exec .crcBlock s = .next (s.withStatus 1))

/-! ## Reset, power and the invariant -/

/-- R35 (the values it states): the state after reset of a block of any configuration. -/
def Obligations.ResetHoldsTheStatedValues : Prop :=
  ∀ c : Config,
    let s := State.resetWith c
    s.gen.valid = false ∧ s.boot.valid = false ∧ s.pf.state = .idle ∧ s.pf.count = 0 ∧
      s.crcReg = 0xFFFF ∧ s.mb.t35 = BitVec.ofNat 32 (t35Ticks c.baud) ∧ s.mb.count = 0 ∧
      s.mb.sync = false ∧ s.mb.de = false ∧ s.host.status = 0 ∧ s.host.result = 0 ∧
      s.mb.lastTick = s.env.nowTick ∧ s.wait = .idle

/-- R138, R139, with the samples of the wait scripted as the model does it (log 11): from any state, the four init
commands in the order of the reset sequence, on a line that is silent until a NOW_TICK sample T3.5 or more after the
start, leave the values R35 states for the four units, and STATUS OK; RESULT and the other registers of the command
interface stay as they were. The reset sequence after a power loss does the same. -/
def Obligations.InitCommandsReachTheResetValues : Prop :=
  ∀ (s : State) (tick : Word), s.env.powerCut = none →
    s.env.rxMb = [] → s.env.waitSamples = [{ arrivals := [], tick := tick }] →
    t35Ticks s.cfg.baud ≤ (tick - s.env.nowTick).toNat →
    (∃ s1 s2 s3 t,
      exec .nvmInit s = .next s1 ∧ exec .pfInit s1 = .next s2 ∧ exec .crcInit s2 = .next s3 ∧
      exec .mbInit s3 = .next t ∧
      t.gen.valid = false ∧ t.boot.valid = false ∧ t.pf.state = .idle ∧ t.pf.count = 0 ∧
      t.crcReg = 0xFFFF ∧ t.mb.t35 = BitVec.ofNat 32 (t35Ticks s.cfg.baud) ∧ t.mb.count = 0 ∧
      t.mb.sync = false ∧ t.mb.de = false ∧ t.host.status = 0 ∧ t.mb.lastTick = tick ∧
      t.wait = .idle ∧ t.flash = s.flash ∧ t.host = { s.host with status := 0 }) ∧
    (s.wait = .reset → ∃ t, resumeWait s = .next t ∧
      t.gen.valid = false ∧ t.boot.valid = false ∧ t.pf.state = .idle ∧ t.pf.count = 0 ∧
      t.crcReg = 0xFFFF ∧ t.mb.t35 = BitVec.ofNat 32 (t35Ticks s.cfg.baud) ∧ t.mb.count = 0 ∧
      t.mb.sync = false ∧ t.mb.de = false ∧ t.host.status = 0 ∧ t.mb.lastTick = tick ∧
      t.wait = .idle ∧ t.flash = s.flash ∧ t.host = { s.host with status := 0 })

/-- R46, R135, R35; the form of a power loss (log 12) and zero where R35 leaves a register unspecified (log 2) are the
model's choice: a power loss between moves loses every register and RAM buffer and keeps flash, and the next turn runs
the reset sequence, which leaves what R35 states. Power can also be lost just before any port call of a command or of
a command in progress: with `n` calls before the cut, a run of at most `n` calls is as without it, and a longer one
makes its first `n` calls and no more, and loses the registers. -/
def Obligations.PowerLossKeepsFlashAndLosesRegisters : Prop :=
  (∀ (s : State) (ms : List Move),
    s.moves = .env .powerLoss :: ms →
    ∃ t u, step s = .next t ∧ t.flash = s.flash ∧ t.cfg = s.cfg ∧ t.gen.valid = false ∧
      t.boot.valid = false ∧ t.host = HostRegs.reset s.cfg ∧ t.mb.de = false ∧ t.moves = ms ∧ t.wait = .reset ∧
      resumeWait t = .next u ∧ u.flash = s.flash ∧ u.cfg = s.cfg ∧ u.gen.valid = false ∧
      u.boot.valid = false ∧ u.pf.state = .idle ∧ u.pf.count = 0 ∧ u.crcReg = 0xFFFF ∧
      u.mb.t35 = BitVec.ofNat 32 (t35Ticks s.cfg.baud) ∧ u.mb.count = 0 ∧ u.mb.sync = false ∧
      u.mb.de = false ∧ u.host = HostRegs.reset s.cfg ∧ u.moves = ms ∧ u.wait ≠ .reset) ∧
  (∀ f : State → Host.Outcome State Fault Refusal, (f = resumeWait ∨ ∃ i, f = exec i) →
    ∀ (s t : State) (n : Nat), s.env.noPowerLoss = true → f s = .next t →
    ∃ calls, t.events = s.events ++ calls ∧
      (calls.length ≤ n → f (s.withCut n) = .next (t.withCut (n - calls.length))) ∧
      (n < calls.length → ∃ u, f (s.withCut n) = .next u ∧
        u.events = s.events ++ calls.take n ++ [.powerLoss] ∧
        ((∀ e ∈ calls.take n, e.writesFlash = false) → u.flash = s.flash) ∧
        u.host = HostRegs.reset s.cfg ∧ u.gen.valid = false ∧ u.boot.valid = false ∧ u.mb.de = false ∧
        u.cfg = s.cfg ∧ u.moves = s.moves ∧ u.wait = .reset))

/-- The invariant of R27, R28, R30, R32 and of the canonical form of flash holds after reset, for every configuration.
-/
def Obligations.ResetMeetsTheInvariant : Prop := ∀ c : Config, (State.resetWith c).Inv

/-- R27, R28, R30, R32, R24: every step from every state that meets the invariant keeps it, and keeps the
configuration. -/
def Obligations.EveryStepKeepsTheInvariant : Prop :=
  ∀ s t : State, s.Inv → step s = .next t → t.Inv ∧ t.cfg = s.cfg

/-- R38: from a state that meets the invariant no step calls a flash port outside the covered addresses. -/
def Obligations.FlashPortsStayCovered : Prop :=
  ∀ s : State, s.Inv → step s ≠ .fault .uncoveredFlash

/-- R64 (no command modifies an operand register), R20, R24: whatever the command, and whatever a further turn of a
command in progress, unless power is lost. -/
def Obligations.NoCommandWritesAnOperandRegister : Prop :=
  ∀ f : State → Host.Outcome State Fault Refusal, (f = resumeWait ∨ ∃ i, f = exec i) →
    ∀ s t : State, s.env.noPowerLoss = true → f s = .next t →
    t.host.argAddr = s.host.argAddr ∧ t.host.argLen = s.host.argLen ∧ t.host.dbuf = s.host.dbuf ∧
      t.host.cmd = s.host.cmd ∧ t.host.argAddrWritten = s.host.argAddrWritten ∧
      t.host.argLenWritten = s.host.argLenWritten ∧ t.host.dbufWritten = s.host.dbufWritten ∧
      t.cfg = s.cfg ∧ t.moves = s.moves ∧ t.readBus = s.readBus

/-- R22: the commands that R22 does not list, and every further turn of a command in progress, leave RESULT unchanged,
unless power is lost. -/
def Obligations.OtherCommandsLeaveResult : Prop :=
  ∀ f : State → Host.Outcome State Fault Refusal,
    (f = resumeWait ∨ ∃ i, f = exec i ∧ i ≠ .nvmVerifyChecksum ∧ i ≠ .nvmGetUserProgramBase ∧ i ≠ .pfPoll ∧
      i ≠ .mbPoll ∧ i ≠ .crcRead ∧ i ≠ .mbGetT35) →
    ∀ s t : State, s.env.noPowerLoss = true → f s = .next t → t.host.result = s.host.result

/-- R23: PKT_LEN and PKT_DATA change only in a poll that delivers, unless power is lost; a further turn of a command
in progress leaves them too. -/
def Obligations.PacketRegistersChangeOnlyOnDelivery : Prop :=
  ∀ f : State → Host.Outcome State Fault Refusal, (f = resumeWait ∨ ∃ i, f = exec i) →
    ∀ s t : State, s.env.noPowerLoss = true → f s = .next t →
    (f = resumeWait ∨ (∃ i, f = exec i ∧ i ≠ .pfPoll ∧ i ≠ .mbPoll) ∨ t.host.result ≠ 1) →
    t.host.pktLen = s.host.pktLen ∧ t.host.pktData = s.host.pktData

/-- R136, R139, D41: a command of the NVM, PF, MB or CRC unit, or a further turn of an MB command in progress, leaves
the state of the other units as it is, unless power is lost; a CRC command calls no port. -/
def Obligations.UnitsAreIndependent : Prop :=
  ∀ (s t : State), s.env.noPowerLoss = true →
    ((exec .nvmInit s = .next t ∨ exec .nvmWrite s = .next t ∨ exec .nvmErase s = .next t ∨
        exec .nvmWriteChecksum s = .next t ∨ exec .nvmVerifyChecksum s = .next t ∨
        exec .nvmDone s = .next t ∨ exec .nvmGetUserProgramBase s = .next t) →
      t.pf = s.pf ∧ t.crcReg = s.crcReg ∧ t.mb = s.mb ∧ t.wait = s.wait) ∧
    ((exec .pfInit s = .next t ∨ exec .pfTransmit s = .next t ∨ exec .pfPoll s = .next t) →
      t.gen = s.gen ∧ t.boot = s.boot ∧ t.flash = s.flash ∧ t.crcReg = s.crcReg ∧ t.mb = s.mb ∧
        t.wait = s.wait) ∧
    ((exec .mbInit s = .next t ∨ exec .mbTransmit s = .next t ∨ exec .mbPoll s = .next t ∨
        exec .mbGetT35 s = .next t) →
      t.gen = s.gen ∧ t.boot = s.boot ∧ t.flash = s.flash ∧ t.crcReg = s.crcReg ∧ t.pf = s.pf) ∧
    ((exec .crcInit s = .next t ∨ (∃ b, exec (.crcByte b) s = .next t) ∨ exec .crcBlock s = .next t ∨
        exec .crcRead s = .next t) →
      t.gen = s.gen ∧ t.boot = s.boot ∧ t.flash = s.flash ∧ t.pf = s.pf ∧ t.mb = s.mb ∧ t.env = s.env ∧
        t.events = s.events ∧ t.wait = s.wait) ∧
    (resumeWait s = .next t → s.wait ≠ .reset →
      t.gen = s.gen ∧ t.boot = s.boot ∧ t.flash = s.flash ∧ t.crcReg = s.crcReg ∧ t.pf = s.pf)

/-! ## The NVM unit -/

/-- R79, R92, R103, R139: NVM_INIT, PF_INIT and CRC_INIT: what each writes, that it writes nothing else, and its word.
-/
def Obligations.InitCommandsWriteTheirOwnUnit : Prop :=
  ∀ s : State,
    exec .nvmInit s = .next { s with
      gen := { s.gen with valid := false }, boot := { s.boot with valid := false },
      host := { s.host with status := 0 } } ∧
    exec .pfInit s = .next { s with
      pf := { s.pf with state := .idle, count := 0 }, host := { s.host with status := 0 } } ∧
    exec .crcInit s = .next { s with crcReg := 0xFFFF, host := { s.host with status := 0 } } ∧
    encode .nvmInit = 0x0000 ∧ encode .pfInit = 0x1000 ∧ encode .crcInit = 0x2000

/-- R91: NVM_GET_USER_PROGRAM_BASE, the word 0x0600, returns BOOT_BASE, which is the least start of the table. -/
def Obligations.UserProgramBaseIsTheLowestSectorStart : Prop :=
  ∀ s : State, ∃ b : Nat,
    (∃ e ∈ s.cfg.sectorTable, e.start = b) ∧ (∀ e ∈ s.cfg.sectorTable, b ≤ e.start) ∧
    exec .nvmGetUserProgramBase s = .next { s with
      host := { s.host with result := BitVec.ofNat 32 b, status := 0 } } ∧
    encode .nvmGetUserProgramBase = 0x0600

/-- R81 (a), R77, R80: a write inside one block that is already open changes bytes of that block's RAM image, and
calls no port; all of flash and every other register are unchanged. -/
def Obligations.WriteIntoOpenBlockStaysInRam : Prop :=
  ∀ (s : State) (b : BlockId) (a n : Nat), s.Inv → s.hasRange a n → s.hasPacket n →
    1 ≤ n → n ≤ s.cfg.dbufSize → rangeCovered s.cfg a n = true → a % s.cfg.wbs + n ≤ s.cfg.wbs →
    (s.block b).valid = true → (s.block b).base.toNat = a - a % s.cfg.wbs →
    exec .nvmWrite s = .next
      ((s.setBuf b (splice (s.block b).buf (a % s.cfg.wbs) (s.host.dbuf.take n))).withStatus 0)

/-- R81 (b), R74, R80: the first write into a block opens it with one FlashRead; the boot block takes the writes whose
block base is BOOT_BASE, the generic block the others. -/
def Obligations.FirstWriteOpensTheBlockFromFlash : Prop :=
  ∀ (s : State) (b : BlockId) (a n base : Nat), s.Inv → s.env.powerCut = none → s.hasRange a n → s.hasPacket n →
    1 ≤ n → n ≤ s.cfg.dbufSize → rangeCovered s.cfg a n = true → a % s.cfg.wbs + n ≤ s.cfg.wbs →
    base = a - a % s.cfg.wbs → b = (if base = s.cfg.bootBase then .boot else .gen) →
    (s.block b).valid = false →
    exec .nvmWrite s = .next
      (((s.setBlock b
          { valid := true, base := BitVec.ofNat 32 base,
            buf := splice (s.flashBytes base s.cfg.wbs) (a % s.cfg.wbs) (s.host.dbuf.take n) }).record
        (.flashRead base s.cfg.wbs)).withStatus 0)

/-- R76 case 3, R75, R44, R47: a write into another block than the open generic one programs the generic block first,
what Decrypt left of it with the crypto hook, then opens the new one; every byte of flash outside the old block reads
as before. -/
def Obligations.WriteElsewhereProgramsTheGenericBlock : Prop :=
  ∀ (s : State) (a n base : Nat), s.Inv → s.env.powerCut = none → s.hasRange a n → s.hasPacket n →
    1 ≤ n → n ≤ s.cfg.dbufSize → rangeCovered s.cfg a n = true → a % s.cfg.wbs + n ≤ s.cfg.wbs →
    base = a - a % s.cfg.wbs → base ≠ s.cfg.bootBase → s.gen.valid = true → s.gen.base.toNat ≠ base →
    (s.cfg.cryptoEnabled = true → s.env.verdictOf .decrypt = .ok) → s.flushEnv.verdictOf .program = .ok →
    ∃ t, exec .nvmWrite s = .next t ∧
      t = { s with
        gen := { valid := true, base := BitVec.ofNat 32 base,
                 buf := splice (s.flashBytes base s.cfg.wbs) (a % s.cfg.wbs) (s.host.dbuf.take n) }
        host := { s.host with status := 0 }
        flash := t.flash
        env := s.flushEnv.answered .program s.cfg.wbs
        events := s.events ++ s.flushEvents ++
          [.programBlock s.gen.base.toNat (s.flushImage .gen) .ok, .flashRead base s.cfg.wbs] } ∧
      (∀ i, i < s.cfg.wbs → t.flashByte (s.gen.base.toNat + i) = (s.flushImage .gen).getD i 0) ∧
      (∀ x, (x < s.gen.base.toNat ∨ s.gen.base.toNat + s.cfg.wbs ≤ x) → t.flashByte x = s.flashByte x)

/-- R81 (d), R129, D15, R75: when in such a switch Decrypt or the program call answers false the command ends with
HW_ERROR, the generic block stays valid at its old base with its bytes, as left by Decrypt if the hook ran, no byte of
the new write is buffered, and flash outside the block reads as before; nothing is programmed if Decrypt failed. -/
def Obligations.FailedSwitchKeepsTheGenericBlock : Prop :=
  ∀ (s : State) (a n base : Nat), s.Inv → s.env.powerCut = none → s.hasRange a n → s.hasPacket n →
    1 ≤ n → n ≤ s.cfg.dbufSize → rangeCovered s.cfg a n = true →
    base = a - a % s.cfg.wbs → base ≠ s.cfg.bootBase → s.gen.valid = true → s.gen.base.toNat ≠ base →
    (s.cfg.cryptoEnabled = true → s.env.verdictOf .decrypt = .fail →
      exec .nvmWrite s = .next { s with
        gen := { s.gen with buf := s.flushImage .gen }
        host := { s.host with status := 2 }
        env := s.flushEnv
        events := s.events ++ [.decrypt s.cfg.wbs .fail] }) ∧
    ((s.cfg.cryptoEnabled = true → s.env.verdictOf .decrypt = .ok) → s.flushEnv.verdictOf .program = .fail →
      ∃ t, exec .nvmWrite s = .next t ∧
        t = { s with
          gen := { s.gen with buf := s.flushImage .gen }
          host := { s.host with status := 2 }
          flash := t.flash
          env := s.flushEnv.answered .program s.cfg.wbs
          events := s.events ++ s.flushEvents ++
            [.programBlock s.gen.base.toNat (s.flushImage .gen) .fail] } ∧
        (∀ x, (x < s.gen.base.toNat ∨ s.gen.base.toNat + s.cfg.wbs ≤ x) → t.flashByte x = s.flashByte x))

/-- R80, R81 (c), R128, R129: a write of any covered range completes with OK or HW_ERROR, whatever the ports answer
short of power loss; it leaves the other units, the operand and result registers and, of flash, every byte outside the
block that was open as GEN and outside the blocks it leaves behind. -/
def Obligations.WriteCompletesAndKeepsItsFrame : Prop :=
  ∀ (s : State) (a n : Nat), s.Inv → s.hasRange a n → s.hasPacket n → n ≤ s.cfg.dbufSize →
    rangeCovered s.cfg a n = true → s.env.noPowerLoss = true →
    ∃ t, exec .nvmWrite s = .next t ∧ (t.host.status = 0 ∨ t.host.status = 2) ∧
      t.host = { s.host with status := t.host.status } ∧ t.pf = s.pf ∧ t.crcReg = s.crcReg ∧
      t.mb = s.mb ∧ t.wait = s.wait ∧ t.cfg = s.cfg ∧ t.moves = s.moves ∧
      (∀ x, ¬(s.gen.valid = true ∧ s.gen.base.toNat ≤ x ∧ x < s.gen.base.toNat + s.cfg.wbs) →
        ¬(a - a % s.cfg.wbs ≤ x ∧ x < (a + n - 1) - (a + n - 1) % s.cfg.wbs) →
        t.flashByte x = s.flashByte x) ∧
      (∀ x, s.cfg.bootBase ≤ x → x < s.cfg.bootBase + s.cfg.wbs → t.flashByte x = s.flashByte x)

/-- R90 (e): splitting one write at any offset into two gives the same state, the same port calls in the same order,
and the same error. -/
def Obligations.SplitWriteHasTheSameEffect : Prop :=
  ∀ (s : State) (a : Nat) (d₁ d₂ : List Byte), s.Inv → d₁ ≠ [] → d₂ ≠ [] →
    rangeCovered s.cfg a (d₁.length + d₂.length) = true →
    routeWrite a (d₁ ++ d₂) s =
      (routeWrite a d₁ s).bind fun _ t => routeWrite (a + d₁.length) d₂ t

/-- R90 (c), R78 (c), R76 case 1: no command but NVM_DONE programs the boot block. -/
def Obligations.OnlyDoneProgramsTheBootBlock : Prop :=
  ∀ (i : Instr) (s t : State), s.Inv → i ≠ .nvmDone → exec i s = .next t →
    ∃ es, t.events = s.events ++ es ∧
      ∀ addr data v, Event.programBlock addr data v ∈ es → addr ≠ s.cfg.bootBase

/-- R82, R83 (b), (c), (e), (f): with every erase call answering true, every sector that intersects the range is
erased once, in table order, and all else is unchanged. -/
def Obligations.EraseErasesEveryTouchedSector : Prop :=
  ∀ (s : State) (a n : Nat), s.Inv → s.env.powerCut = none → s.hasRange a n → n ≠ 0 → a + n ≤ 2 ^ 32 →
    covered s.cfg a = true → covered s.cfg (a + n - 1) = true →
    let es := s.cfg.sectorTable.filter fun e => intersects e a n
    s.env.verdictsOf .erase (es.map Sector.size) = es.map (fun _ => .ok) →
    ∃ t, exec .nvmErase s = .next t ∧
      t = { s with
        host := { s.host with status := 0 }
        flash := t.flash
        env := s.env.afterCalls .erase (es.map Sector.size)
        events := s.events ++ es.map fun e => .eraseSector e.sectorId e.bankId .ok } ∧
      (∀ x, (∃ e ∈ es, e.start ≤ x ∧ x < e.start + e.size) → t.flashByte x = s.cfg.erasedByte) ∧
      (∀ x, (∀ e ∈ es, ¬(e.start ≤ x ∧ x < e.start + e.size)) → t.flashByte x = s.flashByte x)

/-- R82, R83 (a), R129: the first erase call that answers false ends the command with HW_ERROR: the sectors before it
stay erased, no later sector is touched, and only the failing sector's bytes are open. -/
def Obligations.EraseStopsAtTheFirstFailure : Prop :=
  ∀ (s : State) (a n : Nat) (es fs : List Sector) (e : Sector), s.Inv → s.env.powerCut = none →
    s.hasRange a n → n ≠ 0 → a + n ≤ 2 ^ 32 → covered s.cfg a = true → covered s.cfg (a + n - 1) = true →
    (s.cfg.sectorTable.filter fun f => intersects f a n) = es ++ e :: fs →
    s.env.verdictsOf .erase ((es ++ [e]).map Sector.size) = es.map (fun _ => .ok) ++ [.fail] →
    ∃ t, exec .nvmErase s = .next t ∧
      t = { s with
        host := { s.host with status := 2 }
        flash := t.flash
        env := s.env.afterCalls .erase ((es ++ [e]).map Sector.size)
        events := s.events ++ es.map (fun f => .eraseSector f.sectorId f.bankId .ok) ++
          [.eraseSector e.sectorId e.bankId .fail] } ∧
      (∀ x, (∃ f ∈ es, f.start ≤ x ∧ x < f.start + f.size) → t.flashByte x = s.cfg.erasedByte) ∧
      (∀ x, (∀ f ∈ es ++ [e], ¬(f.start ≤ x ∧ x < f.start + f.size)) → t.flashByte x = s.flashByte x)

/-- R84, R85: NVM_WRITE_CHECKSUM is a no-op success when the boot block is not open; with it open, it changes the
checksum field of its RAM image alone, calls no port, and the vector words and the stored word then sum to zero modulo
`2^CS_WIDTH`. -/
def Obligations.WriteChecksumMakesTheImageSumToZero : Prop :=
  ∀ s : State,
    (s.boot.valid = false → exec .nvmWriteChecksum s = .next (s.withStatus 0)) ∧
    (s.Inv → s.boot.valid = true →
      ∃ f : List Byte, f.length = s.cfg.csBytes ∧
        exec .nvmWriteChecksum s = .next { s with
          boot := { s.boot with buf := splice s.boot.buf s.cfg.csOffset f }
          host := { s.host with status := 0 } } ∧
        (((List.range s.cfg.csWordCount).map fun k =>
            wordOf s.cfg (splice s.boot.buf s.cfg.csOffset f) (k * s.cfg.csBytes)).sum +
          wordOf s.cfg (splice s.boot.buf s.cfg.csOffset f) s.cfg.csOffset) % 2 ^ s.cfg.csWidth = 0) ∧
    encode .nvmWriteChecksum = 0x0300

/-- R87, R51: NVM_VERIFY_CHECKSUM reads flash, never the buffers, and changes RESULT and STATUS alone; RESULT is 1
exactly when the vector words and the stored word sum to zero. -/
def Obligations.VerifyChecksumTestsTheSumInFlash : Prop :=
  ∀ s : State, s.env.powerCut = none →
    exec .nvmVerifyChecksum s = .next { s with
      host := { s.host with
        result := if (((List.range s.cfg.csWordCount).map fun k =>
              s.flashWord (s.cfg.bootBase + k * s.cfg.csBytes)).sum +
            s.flashWord (s.cfg.bootBase + s.cfg.csOffset)) % 2 ^ s.cfg.csWidth = 0 then 1 else 0
        status := 0 }
      events := s.events ++
        ((List.range s.cfg.csWordCount).map fun k =>
          .flashRead (s.cfg.bootBase + k * s.cfg.csBytes) s.cfg.csBytes) ++
        [.flashRead (s.cfg.bootBase + s.cfg.csOffset) s.cfg.csBytes] } ∧
    encode .nvmVerifyChecksum = 0x0400

/-- R90 (a), (b): with neither block open NVM_DONE calls no port and succeeds. -/
def Obligations.DoneWithNothingOpenDoesNothing : Prop :=
  ∀ s : State, s.gen.valid = false → s.boot.valid = false → exec .nvmDone s = .next (s.withStatus 0)

/-- R89, R90 (d), R43, R44: without the crypto hook and with every program call answering true, NVM_DONE programs the
generic block and then the boot block, makes both INVALID, and flash then reads both RAM images and nothing else
changed; with the boot block alone open, or the generic block alone, it programs that block alone. -/
def Obligations.DoneProgramsGenericThenBoot : Prop :=
  ∀ s : State, s.Inv → s.env.powerCut = none → s.cfg.cryptoEnabled = false →
    (s.gen.valid = true → s.boot.valid = true → s.env.verdictsOf .program [s.cfg.wbs, s.cfg.wbs] = [.ok, .ok] →
      ∃ t, exec .nvmDone s = .next t ∧
        t = { s with
          gen := { s.gen with valid := false }
          boot := { s.boot with valid := false }
          host := { s.host with status := 0 }
          flash := t.flash
          env := s.env.afterCalls .program [s.cfg.wbs, s.cfg.wbs]
          events := s.events ++
            [.programBlock s.gen.base.toNat s.gen.buf .ok, .programBlock s.cfg.bootBase s.boot.buf .ok] } ∧
        (∀ i, i < s.cfg.wbs → t.flashByte (s.gen.base.toNat + i) = s.gen.buf.getD i 0) ∧
        (∀ i, i < s.cfg.wbs → t.flashByte (s.cfg.bootBase + i) = s.boot.buf.getD i 0) ∧
        (∀ x, (x < s.gen.base.toNat ∨ s.gen.base.toNat + s.cfg.wbs ≤ x) →
          (x < s.cfg.bootBase ∨ s.cfg.bootBase + s.cfg.wbs ≤ x) → t.flashByte x = s.flashByte x)) ∧
    (s.gen.valid = true → s.boot.valid = false → s.env.verdictOf .program = .ok →
      ∃ t, exec .nvmDone s = .next t ∧
        t = { s with
          gen := { s.gen with valid := false }
          host := { s.host with status := 0 }
          flash := t.flash
          env := s.env.answered .program s.cfg.wbs
          events := s.events ++ [.programBlock s.gen.base.toNat s.gen.buf .ok] } ∧
        (∀ i, i < s.cfg.wbs → t.flashByte (s.gen.base.toNat + i) = s.gen.buf.getD i 0) ∧
        (∀ x, (x < s.gen.base.toNat ∨ s.gen.base.toNat + s.cfg.wbs ≤ x) → t.flashByte x = s.flashByte x)) ∧
    (s.gen.valid = false → s.boot.valid = true → s.env.verdictOf .program = .ok →
      ∃ t, exec .nvmDone s = .next t ∧
        t = { s with
          boot := { s.boot with valid := false }
          host := { s.host with status := 0 }
          flash := t.flash
          env := s.env.answered .program s.cfg.wbs
          events := s.events ++ [.programBlock s.cfg.bootBase s.boot.buf .ok] } ∧
        (∀ i, i < s.cfg.wbs → t.flashByte (s.cfg.bootBase + i) = s.boot.buf.getD i 0) ∧
        (∀ x, (x < s.cfg.bootBase ∨ s.cfg.bootBase + s.cfg.wbs ≤ x) → t.flashByte x = s.flashByte x))

/-- R89, R129, V-NVM-23, without the crypto hook: when the generic block's program call answers false, NVM_DONE ends
with HW_ERROR, both blocks stay valid, and the boot block is not programmed; when the boot block's program call
answers false after the generic block was flushed, or with the generic block not open, the generic block is INVALID
and flushed, and the boot block stays valid. -/
def Obligations.DoneStopsWhenTheGenericFlushFails : Prop :=
  ∀ s : State, s.Inv → s.env.powerCut = none → s.cfg.cryptoEnabled = false →
    (s.gen.valid = true → s.env.verdictOf .program = .fail →
      ∃ t, exec .nvmDone s = .next t ∧
        t = { s with
          host := { s.host with status := 2 }
          flash := t.flash
          env := s.env.answered .program s.cfg.wbs
          events := s.events ++ [.programBlock s.gen.base.toNat s.gen.buf .fail] } ∧
        (∀ x, (x < s.gen.base.toNat ∨ s.gen.base.toNat + s.cfg.wbs ≤ x) → t.flashByte x = s.flashByte x)) ∧
    (s.gen.valid = true → s.boot.valid = true →
      s.env.verdictsOf .program [s.cfg.wbs, s.cfg.wbs] = [.ok, .fail] →
      ∃ t, exec .nvmDone s = .next t ∧
        t = { s with
          gen := { s.gen with valid := false }
          host := { s.host with status := 2 }
          flash := t.flash
          env := s.env.afterCalls .program [s.cfg.wbs, s.cfg.wbs]
          events := s.events ++
            [.programBlock s.gen.base.toNat s.gen.buf .ok, .programBlock s.cfg.bootBase s.boot.buf .fail] } ∧
        (∀ i, i < s.cfg.wbs → t.flashByte (s.gen.base.toNat + i) = s.gen.buf.getD i 0) ∧
        (∀ x, (x < s.gen.base.toNat ∨ s.gen.base.toNat + s.cfg.wbs ≤ x) →
          (x < s.cfg.bootBase ∨ s.cfg.bootBase + s.cfg.wbs ≤ x) → t.flashByte x = s.flashByte x)) ∧
    (s.gen.valid = false → s.boot.valid = true → s.env.verdictOf .program = .fail →
      ∃ t, exec .nvmDone s = .next t ∧
        t = { s with
          host := { s.host with status := 2 }
          flash := t.flash
          env := s.env.answered .program s.cfg.wbs
          events := s.events ++ [.programBlock s.cfg.bootBase s.boot.buf .fail] } ∧
        (∀ x, (x < s.cfg.bootBase ∨ s.cfg.bootBase + s.cfg.wbs ≤ x) → t.flashByte x = s.flashByte x))

/-- R75, R47, R89, R129: with the crypto hook, NVM_DONE of one open block, generic or boot, programs what Decrypt left
in its buffer when Decrypt answers true; it programs nothing and ends with HW_ERROR when Decrypt answers false, and
ends with HW_ERROR and the block still valid, its buffer as left by Decrypt, when the program call then answers false.
With both open, it does what it does for the generic block alone and, if that succeeded, what it then does for the
boot block alone. -/
def Obligations.DoneDecryptsBeforeItPrograms : Prop :=
  ∀ s : State, s.Inv → s.env.powerCut = none → s.cfg.cryptoEnabled = true →
    (∀ b c : BlockId, b ≠ c → (s.block b).valid = true → (s.block c).valid = false →
      (s.env.verdictOf .decrypt = .fail →
        exec .nvmDone s = .next { s.setBuf b (s.flushImage b) with
          host := { s.host with status := 2 }
          env := s.flushEnv
          events := s.events ++ [.decrypt s.cfg.wbs .fail] }) ∧
      (s.env.verdictOf .decrypt = .ok → s.flushEnv.verdictOf .program = .fail →
        ∃ t, exec .nvmDone s = .next t ∧
          t = { s.setBuf b (s.flushImage b) with
            host := { s.host with status := 2 }
            flash := t.flash
            env := s.flushEnv.answered .program s.cfg.wbs
            events := s.events ++ [.decrypt s.cfg.wbs .ok,
              .programBlock (s.block b).base.toNat (s.flushImage b) .fail] } ∧
          (∀ x, (x < (s.block b).base.toNat ∨ (s.block b).base.toNat + s.cfg.wbs ≤ x) →
            t.flashByte x = s.flashByte x)) ∧
      (s.env.verdictOf .decrypt = .ok → s.flushEnv.verdictOf .program = .ok →
        ∃ t, exec .nvmDone s = .next t ∧
          t = { (s.setBuf b (s.flushImage b)).setValid b false with
            host := { s.host with status := 0 }
            flash := t.flash
            env := s.flushEnv.answered .program s.cfg.wbs
            events := s.events ++ [.decrypt s.cfg.wbs .ok,
              .programBlock (s.block b).base.toNat (s.flushImage b) .ok] } ∧
          (∀ i, i < s.cfg.wbs → t.flashByte ((s.block b).base.toNat + i) = (s.flushImage b).getD i 0) ∧
          (∀ x, (x < (s.block b).base.toNat ∨ (s.block b).base.toNat + s.cfg.wbs ≤ x) →
            t.flashByte x = s.flashByte x))) ∧
    (s.gen.valid = true → s.boot.valid = true → s.env.noPowerLoss = true →
      ∃ u, exec .nvmDone (s.setValid .boot false) = .next u ∧
        (u.host.status = 2 → exec .nvmDone s = .next { u with boot := s.boot }) ∧
        (u.host.status ≠ 2 → exec .nvmDone s = exec .nvmDone { u with boot := s.boot }))

/-- R90 (f), R46, R135; the form of a power loss is the model's choice (log 12): when, without the crypto hook, power
is lost while NVM_DONE programs the generic block, or just before it does, every byte of flash outside that block, so
the boot block and its checksum, is as it was, and both blocks are lost; when power is lost after the generic block
was programmed and before the boot block is, the generic block reads its image and the rest of flash, the boot block
among it, is as it was. -/
def Obligations.PowerLossInDoneLeavesTheBootBlock : Prop :=
  ∀ s : State, s.Inv → s.gen.valid = true → s.cfg.cryptoEnabled = false →
    (s.env.powerCut = none → s.env.verdictOf .program = .powerLoss →
      ∃ t, exec .nvmDone s = .next t ∧ t.gen.valid = false ∧ t.boot.valid = false ∧ t.wait = .reset ∧
        (∀ x, (x < s.gen.base.toNat ∨ s.gen.base.toNat + s.cfg.wbs ≤ x) → t.flashByte x = s.flashByte x) ∧
        (∀ x, s.cfg.bootBase ≤ x → x < s.cfg.bootBase + s.cfg.wbs → t.flashByte x = s.flashByte x)) ∧
    (s.env.powerCut = some 0 →
      ∃ t, exec .nvmDone s = .next t ∧ t.gen.valid = false ∧ t.boot.valid = false ∧ t.wait = .reset ∧
        t.flash = s.flash ∧ t.events = s.events ++ [.powerLoss]) ∧
    (s.env.powerCut = some 1 → s.boot.valid = true → s.env.verdictOf .program = .ok →
      ∃ t, exec .nvmDone s = .next t ∧ t.gen.valid = false ∧ t.boot.valid = false ∧ t.wait = .reset ∧
        t.events = s.events ++ [.programBlock s.gen.base.toNat s.gen.buf .ok, .powerLoss] ∧
        (∀ i, i < s.cfg.wbs → t.flashByte (s.gen.base.toNat + i) = s.gen.buf.getD i 0) ∧
        (∀ x, (x < s.gen.base.toNat ∨ s.gen.base.toNat + s.cfg.wbs ≤ x) → t.flashByte x = s.flashByte x) ∧
        (∀ x, s.cfg.bootBase ≤ x → x < s.cfg.bootBase + s.cfg.wbs → t.flashByte x = s.flashByte x))

/-! ## The packet framer -/

/-- R93, R94: PF_TRANSMIT with every byte accepted sends the length byte and the payload, `n + 1` calls in order, and
changes nothing else. -/
def Obligations.PfTransmitSendsLengthThenPayload : Prop :=
  ∀ (s : State) (n : Nat), s.Inv → s.env.powerCut = none → s.hasPacket n → 1 ≤ n → n ≤ s.cfg.maxData →
    s.env.verdictsOf .txPf (List.replicate (n + 1) 0) = List.replicate (n + 1) .ok →
    exec .pfTransmit s = .next { s with
      host := { s.host with status := 0 }
      env := s.env.afterCalls .txPf (List.replicate (n + 1) 0)
      events := s.events ++
        (BitVec.ofNat 8 n :: s.host.dbuf.take n).map fun b => .txPf b .ok }

/-- R93, R129: the first byte that is not accepted ends PF_TRANSMIT with HW_ERROR; the bytes before it were sent, the
rest are not. -/
def Obligations.PfTransmitStopsAtTheFirstRefusedByte : Prop :=
  ∀ (s : State) (n k : Nat), s.Inv → s.env.powerCut = none → s.hasPacket n → 1 ≤ n → n ≤ s.cfg.maxData → k ≤ n →
    s.env.verdictsOf .txPf (List.replicate (k + 1) 0) = List.replicate k .ok ++ [.fail] →
    exec .pfTransmit s = .next { s with
      host := { s.host with status := 2 }
      env := s.env.afterCalls .txPf (List.replicate (k + 1) 0)
      events := s.events ++
        (((BitVec.ofNat 8 n :: s.host.dbuf.take n).take k).map fun b => .txPf b .ok) ++
        [.txPf ((BitVec.ofNat 8 n :: s.host.dbuf.take n).getD k 0) .fail] }

/-- R95, R96, R99 (a): PF_POLL with no byte waiting: RECEIVING times out after a gap of PF_TIMEOUT_MS or more, and
nothing else changes. -/
def Obligations.PfPollWithoutByteAppliesTheTimeout : Prop :=
  ∀ s : State, s.env.powerCut = none → s.env.rxPf = [] →
    exec .pfPoll s = .next { s with
      pf := if s.pf.state = .receiving ∧ s.cfg.pfTimeoutMs ≤ (s.env.nowMs - s.pf.lastMs).toNat
        then { s.pf with state := .idle, count := 0 } else s.pf
      host := { s.host with result := 0, status := 0 }
      events := s.events ++ [.nowMs s.env.nowMs, .rxPf none] }

/-- R97, R99 (b): a byte consumed in IDLE, or in RECEIVING after the timeout, is a length byte: in `1..MAX_DATA` it
starts a packet, else it is dropped. -/
def Obligations.PfPollTakesALengthByte : Prop :=
  ∀ (s : State) (b : Byte) (bs : List Byte), s.Inv → s.env.powerCut = none → s.env.rxPf = b :: bs →
    (s.pf.state = .idle ∨
      (s.pf.state = .receiving ∧ s.cfg.pfTimeoutMs ≤ (s.env.nowMs - s.pf.lastMs).toNat)) →
    exec .pfPoll s = .next { s with
      pf := if 1 ≤ b.toNat ∧ b.toNat ≤ s.cfg.maxData
        then { s.pf with state := .receiving, expected := b, count := 0, lastMs := s.env.nowMs }
        else { s.pf with state := .idle, count := 0 }
      host := { s.host with result := 0, status := 0 }
      env := { s.env with rxPf := bs }
      events := s.events ++ [.nowMs s.env.nowMs, .rxPf (some b)] }

/-- R98: a byte consumed in RECEIVING before the timeout is payload, whatever its value; a byte that does not complete
the packet is accumulated, and the one that does delivers it in the same poll. -/
def Obligations.PfPollTakesAPayloadByte : Prop :=
  ∀ (s : State) (b : Byte) (bs : List Byte), s.Inv → s.env.powerCut = none → s.env.rxPf = b :: bs →
    s.pf.state = .receiving → (s.env.nowMs - s.pf.lastMs).toNat < s.cfg.pfTimeoutMs →
    (s.pf.count.toNat + 1 < s.pf.expected.toNat →
      exec .pfPoll s = .next { s with
        pf := { s.pf with
          buf := s.pf.buf.set s.pf.count.toNat b
          count := BitVec.ofNat 8 (s.pf.count.toNat + 1)
          lastMs := s.env.nowMs }
        host := { s.host with result := 0, status := 0 }
        env := { s.env with rxPf := bs }
        events := s.events ++ [.nowMs s.env.nowMs, .rxPf (some b)] }) ∧
    (s.pf.count.toNat + 1 = s.pf.expected.toNat →
      exec .pfPoll s = .next { s with
        pf := { s.pf with
          state := .idle
          count := 0
          buf := s.pf.buf.set s.pf.count.toNat b
          lastMs := s.env.nowMs }
        host := { s.host with
          pktLen := s.pf.expected
          pktData := s.pf.buf.take s.pf.count.toNat ++ [b] ++ s.host.pktData.drop s.pf.expected.toNat
          pktLenWritten := true
          pktDataWritten := max s.host.pktDataWritten s.pf.expected.toNat
          result := 1
          status := 0 }
        env := { s.env with rxPf := bs }
        events := s.events ++ [.nowMs s.env.nowMs, .rxPf (some b)] })

/-! ## The CRC unit -/

/-- R101, parameters the spec marks as general knowledge (log 16): the check value over the ASCII bytes "123456789" is
0x4B37. -/
def Obligations.CrcCheckValue : Prop :=
  crc16 [0x31, 0x32, 0x33, 0x34, 0x35, 0x36, 0x37, 0x38, 0x39] = 0x4B37

/-- R102, R104, R106, with the algorithm of R102, which the spec marks as general knowledge (log 16): CRC_BYTE, for
every remainder and byte, runs the eight steps of R102 on CRC_REG: one right shift each, with 0xA001 xored in when the
bit shifted out is 1, on the remainder with the byte xored in; Crc16 feeds the bytes of a sequence in index order from
0xFFFF; what CRC_BYTE and CRC_READ write, that they write nothing else, and their words. -/
def Obligations.CrcByteAndReadWriteTheirRegister : Prop :=
  (∀ (c : Half) (b : Byte), crcStep c b =
    (List.range 8).foldl (fun (x : Half) _ => if x.toNat % 2 = 1 then (x >>> 1) ^^^ 0xA001 else x >>> 1)
      (c ^^^ b.setWidth 16)) ∧
  (∀ l : List Byte, crc16 l = l.foldl crcStep 0xFFFF) ∧
  (∀ (s : State) (b : Byte), exec (.crcByte b) s = .next { s with
    crcReg := (List.range 8).foldl (fun (x : Half) _ => if x.toNat % 2 = 1 then (x >>> 1) ^^^ 0xA001 else x >>> 1)
      (s.crcReg ^^^ b.setWidth 16)
    host := { s.host with status := 0 } }) ∧
  (∀ s : State, exec .crcRead s = .next { s with
    host := { s.host with result := s.crcReg.setWidth 32, status := 0 } }) ∧
  (∀ b : Byte, encode (.crcByte b) = 0x21#8 ++ b) ∧ encode .crcRead = 0x2200

/-- R105: CRC_BLOCK over `n` bytes, `n = 0` among them, feeds them in index order and changes nothing but CRC_REG and
STATUS; a length above DBUF_SIZE is a RangeError that leaves CRC_REG. -/
def Obligations.CrcBlockFeedsItsBytesInOrder : Prop :=
  ∀ (s : State) (n : Nat), s.Inv →
    (s.hasPacket n → n ≤ s.cfg.dbufSize →
      exec .crcBlock s = .next { s with
        crcReg := (s.host.dbuf.take n).foldl crcStep s.crcReg, host := { s.host with status := 0 } }) ∧
    (s.host.argLenWritten = true → s.host.argLen.toNat = n → s.cfg.dbufSize < n →
      exec .crcBlock s = .next (s.withStatus 1)) ∧
    encode .crcBlock = 0x2300

/-- R107, a fact the spec marks as general knowledge (log 16): a byte sequence followed by its CRC, low byte first,
leaves the remainder 0. -/
def Obligations.CrcResidueIsZero : Prop :=
  ∀ s : List Byte, crc16 (s ++ [(crc16 s).setWidth 8, (crc16 s >>> 8).setWidth 8]) = 0

/-- R119 (c), a fact the spec marks as general knowledge (log 16): changing one byte of a sequence changes its CRC. -/
def Obligations.CrcDetectsOneChangedByte : Prop :=
  ∀ (p q : List Byte) (b b' : Byte), b ≠ b' → crc16 (p ++ b :: q) ≠ crc16 (p ++ b' :: q)

/-! ## The Modbus unit -/

/-- R109: the T3.5 threshold: 175 ticks above 19200 baud; else one more than the least whole number that is not below
3850000 / baud. -/
def Obligations.T35IsTheCeilingPlusOne : Prop :=
  ∀ baud : Nat, 1 ≤ baud →
    (19200 < baud → t35Ticks baud = 175) ∧
    (baud ≤ 19200 → ∃ k, t35Ticks baud = k + 1 ∧ 3850000 ≤ k * baud ∧ (k - 1) * baud < 3850000)

/-- R118: MB_GET_T35, the word 0x3300, returns MB_T35, sets STATUS to OK and changes nothing else. -/
def Obligations.GetT35ReturnsTheThreshold : Prop :=
  ∀ s : State, exec .mbGetT35 s = .next { s with
    host := { s.host with result := s.mb.t35, status := 0 } } ∧
    encode .mbGetT35 = 0x3300

/-- R110, R134, with the samples of the wait scripted as the model does it (log 11): MB_INIT on a silent line ends at
the first NOW_TICK sample T3.5 or more after its start, with one Kick, one receive call and one NOW_TICK sample for
every iteration, and changes only what R110 names. An MB_INIT in progress ends in the same way, its silence measured
from the tick it holds. -/
def Obligations.MbInitEndsAfterT35OfSilence : Prop :=
  ∀ (s : State) (pre post : List WaitSample) (w : WaitSample), s.env.powerCut = none →
    s.env.rxMb = [] → s.env.waitSamples = pre ++ w :: post → (∀ u ∈ pre, u.arrivals = []) → w.arrivals = [] →
    ((∀ u ∈ pre, (u.tick - s.env.nowTick).toNat < t35Ticks s.cfg.baud) →
      t35Ticks s.cfg.baud ≤ (w.tick - s.env.nowTick).toNat →
      exec .mbInit s = .next { s with
        mb := { s.mb with
          t35 := BitVec.ofNat 32 (t35Ticks s.cfg.baud), count := 0, sync := false, de := false,
          lastTick := w.tick }
        host := { s.host with status := 0 }
        env := { s.env with nowTick := w.tick, waitSamples := post }
        wait := .idle
        events := s.events ++ [.nowTick s.env.nowTick] ++ silentEvents (pre ++ [w]) }) ∧
    (∀ t0 : Word, s.wait = .mbInit t0 → (∀ u ∈ pre, (u.tick - t0).toNat < s.mb.t35.toNat) →
      s.mb.t35.toNat ≤ (w.tick - t0).toNat →
      resumeWait s = .next { s with
        mb := { s.mb with lastTick := w.tick }
        host := { s.host with status := 0 }
        env := { s.env with nowTick := w.tick, waitSamples := post }
        wait := .idle
        events := s.events ++ silentEvents (pre ++ [w]) })

/-- R110, V-MB-16, spec/93 I7; that the command stays in progress is the model's choice (log 11): a byte seen in the
idle-line wait, one that waits on the line as MB_INIT starts or one that arrives in the wait, is discarded and
restarts the silence at the tick of that iteration: MB_INIT then ends T3.5 after that tick and no earlier, and stays
in progress before; bytes that wait as it starts are all discarded, one each iteration, and the silence is measured
from the last of them; where the counter does not move, it discards one and stays in progress. On a silent line that
has not reached T3.5 it stays in progress too, its silence still measured from the start; an MB_INIT in progress that
sees a byte measures its silence from the tick of that turn. -/
def Obligations.MbInitKeepsWaitingWhileBytesArrive : Prop :=
  ∀ (s : State) (b : Byte) (w v : WaitSample), s.env.powerCut = none →
    (s.env.rxMb ++ w.arrivals = [b] → v.arrivals = [] → s.env.waitSamples = [w, v] →
      (t35Ticks s.cfg.baud ≤ (v.tick - w.tick).toNat →
        exec .mbInit s = .next { s with
          mb := { s.mb with
            t35 := BitVec.ofNat 32 (t35Ticks s.cfg.baud), count := 0, sync := false, de := false,
            lastTick := v.tick }
          host := { s.host with status := 0 }
          env := { s.env with rxMb := [], nowTick := v.tick, waitSamples := [] }
          wait := .idle
          events := s.events ++ [.nowTick s.env.nowTick, .kick, .rxMb (some b), .nowTick w.tick] ++
            silentEvents [v] }) ∧
      ((v.tick - w.tick).toNat < t35Ticks s.cfg.baud →
        exec .mbInit s = .next { s with
          mb := { s.mb with
            t35 := BitVec.ofNat 32 (t35Ticks s.cfg.baud), count := 0, sync := false, de := false }
          env := { s.env with rxMb := [], nowTick := v.tick, waitSamples := [] }
          wait := .mbInit w.tick
          events := s.events ++ [.nowTick s.env.nowTick, .kick, .rxMb (some b), .nowTick w.tick] ++
            silentEvents [v, v] })) ∧
    (∀ (bs : List Byte) (ws rest : List WaitSample), s.env.rxMb = bs ++ [b] →
      s.env.waitSamples = ws ++ w :: v :: rest → ws.length = bs.length →
      (∀ u ∈ ws, u.arrivals = []) → w.arrivals = [] → v.arrivals = [] →
      t35Ticks s.cfg.baud ≤ (v.tick - w.tick).toNat →
      exec .mbInit s = .next { s with
        mb := { s.mb with
          t35 := BitVec.ofNat 32 (t35Ticks s.cfg.baud), count := 0, sync := false, de := false,
          lastTick := v.tick }
        host := { s.host with status := 0 }
        env := { s.env with rxMb := [], nowTick := v.tick, waitSamples := rest }
        wait := .idle
        events := s.events ++ [.nowTick s.env.nowTick] ++
          (List.zipWith (fun c u => [.kick, .rxMb (some c), .nowTick u.tick]) (bs ++ [b]) (ws ++ [w])).flatten ++
          silentEvents [v] }) ∧
    (∀ bs, s.env.rxMb = b :: bs → s.env.waitSamples = [] →
      exec .mbInit s = .next { s with
        mb := { s.mb with
          t35 := BitVec.ofNat 32 (t35Ticks s.cfg.baud), count := 0, sync := false, de := false }
        env := { s.env with rxMb := bs }
        wait := .mbInit s.env.nowTick
        events := s.events ++
          [.nowTick s.env.nowTick, .kick, .rxMb (some b), .nowTick s.env.nowTick] }) ∧
    (s.env.rxMb = [] → v.arrivals = [] → s.env.waitSamples = [v] →
      (v.tick - s.env.nowTick).toNat < t35Ticks s.cfg.baud →
      exec .mbInit s = .next { s with
        mb := { s.mb with
          t35 := BitVec.ofNat 32 (t35Ticks s.cfg.baud), count := 0, sync := false, de := false }
        env := { s.env with nowTick := v.tick, waitSamples := [] }
        wait := .mbInit s.env.nowTick
        events := s.events ++ [.nowTick s.env.nowTick] ++ silentEvents [v, v] }) ∧
    (∀ t0 bs, s.wait = .mbInit t0 → s.env.rxMb = b :: bs → s.env.waitSamples = [] →
      resumeWait s = .next { s with
        env := { s.env with rxMb := bs }
        wait := .mbInit s.env.nowTick
        events := s.events ++ [.kick, .rxMb (some b), .nowTick s.env.nowTick] })

/-- R111, R114: MB_POLL before T3.5 of silence: no byte changes nothing but RESULT and STATUS; a byte is appended, or
overflows the buffer and starts resynchronisation, or is discarded while resynchronising; it always restarts the
silence. -/
def Obligations.MbPollTakesAByteBeforeTheBoundary : Prop :=
  ∀ s : State, s.env.powerCut = none → (s.env.nowTick - s.mb.lastTick).toNat < s.mb.t35.toNat →
    (s.env.rxMb = [] →
      exec .mbPoll s = .next { s with
        host := { s.host with result := 0, status := 0 }, events := s.events ++ [.nowTick s.env.nowTick, .rxMb none] }) ∧
    (∀ b bs, s.env.rxMb = b :: bs →
      exec .mbPoll s = .next { s with
        mb := if s.mb.sync = true then { s.mb with lastTick := s.env.nowTick }
          else if s.mb.count = s.cfg.maxData + 5 then
            { s.mb with lastTick := s.env.nowTick, count := 0, sync := true }
          else { s.mb with
            lastTick := s.env.nowTick, buf := s.mb.buf.set s.mb.count b, count := s.mb.count + 1 }
        host := { s.host with result := 0, status := 0 }
        env := { s.env with rxMb := bs }
        events := s.events ++ [.nowTick s.env.nowTick, .rxMb (some b)] })

/-- R112, R113, R108, R115 (c): after T3.5 of silence the buffered frame of a payload P is delivered whole, for `1 <=
len(P) <= MAX_DATA`, and for the empty payload if MB_ACCEPT_EMPTY, in a poll that consumes no byte and in a poll whose
byte starts the next frame. -/
def Obligations.MbPollDeliversAValidFrame : Prop :=
  ∀ (s : State) (p : List Byte), s.Inv → s.env.powerCut = none →
    (1 ≤ p.length ∨ s.cfg.mbAcceptEmpty = true) → p.length ≤ s.cfg.maxData →
    s.mb.sync = false → s.mb.count = p.length + 5 →
    s.mb.buf.take s.mb.count =
      [s.cfg.nodeId, s.cfg.functionCode, BitVec.ofNat 8 p.length] ++ p ++
        [(crc16 ([s.cfg.nodeId, s.cfg.functionCode, BitVec.ofNat 8 p.length] ++ p)).setWidth 8,
         (crc16 ([s.cfg.nodeId, s.cfg.functionCode, BitVec.ofNat 8 p.length] ++ p) >>> 8).setWidth 8] →
    s.mb.t35.toNat ≤ (s.env.nowTick - s.mb.lastTick).toNat →
    exec .mbPoll s = .next { s with
      host := { s.host with
        pktLen := BitVec.ofNat 8 p.length
        pktData := p ++ s.host.pktData.drop p.length
        pktLenWritten := true
        pktDataWritten := max s.host.pktDataWritten p.length
        result := 1
        status := 0 }
      mb := match s.env.rxMb with
        | [] => { s.mb with count := 0 }
        | b :: _ => { s.mb with count := 1, buf := s.mb.buf.set 0 b, lastTick := s.env.nowTick }
      env := { s.env with rxMb := s.env.rxMb.tail }
      events := s.events ++ [.nowTick s.env.nowTick, .rxMb s.env.rxMb.head?] }

/-- R113, R125, R119 (a), (b), R115 (a), (c): a buffered frame of four or more bytes that fails any check is dropped
silently, in a poll that consumes no byte and in a poll whose byte starts the next frame: CRC, NodeID, FunctionCode,
EmbeddedLength, or an empty payload that is not accepted. -/
def Obligations.MbPollDropsAnInvalidFrame : Prop :=
  ∀ (s : State) (f : List Byte), s.Inv → s.env.powerCut = none → s.mb.sync = false → 4 ≤ s.mb.count →
    f = s.mb.buf.take s.mb.count →
    (crc16 (f.take (f.length - 2)) ≠ f.getD (f.length - 1) 0 ++ f.getD (f.length - 2) 0 ∨
      f.getD 0 0 ≠ s.cfg.nodeId ∨ f.getD 1 0 ≠ s.cfg.functionCode ∨
      (f.getD 2 0).toNat + 5 ≠ f.length ∨ (f.getD 2 0 = 0 ∧ s.cfg.mbAcceptEmpty = false)) →
    s.mb.t35.toNat ≤ (s.env.nowTick - s.mb.lastTick).toNat →
    exec .mbPoll s = .next { s with
      host := { s.host with result := 0, status := 0 }
      mb := match s.env.rxMb with
        | [] => { s.mb with count := 0 }
        | b :: _ => { s.mb with count := 1, buf := s.mb.buf.set 0 b, lastTick := s.env.nowTick }
      env := { s.env with rxMb := s.env.rxMb.tail }
      events := s.events ++ [.nowTick s.env.nowTick, .rxMb s.env.rxMb.head?] }

/-- R112: after T3.5 of silence a poll without a byte ends resynchronisation, and drops a fragment of 1 to 3 bytes. -/
def Obligations.MbPollEndsResyncAndDropsFragments : Prop :=
  ∀ s : State, s.env.powerCut = none → s.env.rxMb = [] → s.mb.t35.toNat ≤ (s.env.nowTick - s.mb.lastTick).toNat →
    (s.mb.sync = true →
      exec .mbPoll s = .next { s with
        host := { s.host with result := 0, status := 0 }
        mb := { s.mb with sync := false }
        events := s.events ++ [.nowTick s.env.nowTick, .rxMb none] }) ∧
    (s.mb.sync = false → s.mb.count ≤ 3 →
      exec .mbPoll s = .next { s with
        host := { s.host with result := 0, status := 0 }
        mb := { s.mb with count := 0 }
        events := s.events ++ [.nowTick s.env.nowTick, .rxMb none] })

/-- R115 (c), R111: a byte consumed after T3.5 of silence starts a new frame, in the same poll that closes the old
one; RESULT, PKT_LEN and PKT_DATA are what a poll without a byte leaves: the old frame is delivered or dropped as
there. -/
def Obligations.MbPollStartsANewFrameAfterSilence : Prop :=
  ∀ (s : State) (b : Byte) (bs : List Byte), s.Inv → s.env.powerCut = none → s.env.rxMb = b :: bs →
    s.mb.t35.toNat ≤ (s.env.nowTick - s.mb.lastTick).toNat →
    ∃ t, exec .mbPoll s = .next t ∧
      t.mb = { s.mb with
        buf := s.mb.buf.set 0 b, count := 1, sync := false, lastTick := s.env.nowTick } ∧
      t.env = { s.env with rxMb := bs } ∧ t.events = s.events ++ [.nowTick s.env.nowTick, .rxMb (some b)] ∧
      (∃ u, exec .mbPoll { s with env := { s.env with rxMb := [] } } = .next u ∧ t.host = u.host) ∧
      t.host.status = 0 ∧ t.gen = s.gen ∧ t.boot = s.boot ∧ t.flash = s.flash ∧ t.pf = s.pf ∧
      t.crcReg = s.crcReg ∧ t.wait = s.wait

/-- R116, R117 (b), R134, with the samples of the waits scripted as the model does it (log 11): a successful
MB_TRANSMIT: driver on, the pre-delay, all but the last byte, the last byte with its own call, the post-delay, driver
off. `pre`, `w` are the samples of the pre-delay, `u` is the start of the post-delay, `post`, `v` are its samples. An
MB_TRANSMIT in progress in its pre-delay goes on in the same way with the frame and the start it holds. -/
def Obligations.MbTransmitSendsTheFrameUnderDriverEnable : Prop :=
  ∀ (s : State) (pre post rest : List WaitSample) (w u v : WaitSample), s.env.powerCut = none →
    s.env.waitSamples = pre ++ w :: u :: (post ++ v :: rest) →
    (∀ x ∈ post, (x.tick - u.tick).toNat < s.cfg.mbPostDelayTicks) →
    s.cfg.mbPostDelayTicks ≤ (v.tick - u.tick).toNat →
    (∀ (n : Nat) (p body : List Byte), s.Inv → s.hasPacket n → 1 ≤ n → n ≤ s.cfg.maxData →
      p = s.host.dbuf.take n → body = [s.cfg.nodeId, s.cfg.functionCode, BitVec.ofNat 8 n] ++ p →
      (∀ x ∈ pre, (x.tick - s.env.nowTick).toNat < s.cfg.mbPreDelayTicks) →
      s.cfg.mbPreDelayTicks ≤ (w.tick - s.env.nowTick).toNat →
      s.env.verdictsOf .txMb (List.replicate (n + 5) 0) = List.replicate (n + 5) .ok →
      exec .mbTransmit s = .next { s with
        host := { s.host with status := 0 }
        mb := { s.mb with de := false }
        wait := .idle
        env := { s.env.afterCalls .txMb (List.replicate (n + 5) 0) with
          nowTick := v.tick
          waitSamples := rest
          rxMb := s.env.rxMb ++ (pre ++ w :: u :: (post ++ [v])).flatMap WaitSample.arrivals }
        events := s.events ++ [.driverEnable true, .nowTick s.env.nowTick] ++ delayEvents (pre ++ [w]) ++
          ((body ++ [(crc16 body).setWidth 8]).map fun b => Event.txMb b .ok) ++
          [.txMbLast ((crc16 body >>> 8).setWidth 8) .ok, .nowTick u.tick] ++
          delayEvents (post ++ [v]) ++ [.driverEnable false] }) ∧
    (∀ (t0 : Word) (body : List Byte) (last : Byte), s.wait = .mbPre t0 (body ++ [last]) →
      (∀ x ∈ pre, (x.tick - t0).toNat < s.cfg.mbPreDelayTicks) →
      s.cfg.mbPreDelayTicks ≤ (w.tick - t0).toNat →
      s.env.verdictsOf .txMb (List.replicate (body.length + 1) 0) = List.replicate (body.length + 1) .ok →
      resumeWait s = .next { s with
        host := { s.host with status := 0 }
        mb := { s.mb with de := false }
        wait := .idle
        env := { s.env.afterCalls .txMb (List.replicate (body.length + 1) 0) with
          nowTick := v.tick
          waitSamples := rest
          rxMb := s.env.rxMb ++ (pre ++ w :: u :: (post ++ [v])).flatMap WaitSample.arrivals }
        events := s.events ++ delayEvents (pre ++ [w]) ++ (body.map fun b => Event.txMb b .ok) ++
          [.txMbLast last .ok, .nowTick u.tick] ++ delayEvents (post ++ [v]) ++ [.driverEnable false] })

/-- R116, R129, D43, with the samples scripted as the model does it (log 11): the first byte that is not accepted ends
the sending; the driver is still released after the post-delay, and the command ends with HW_ERROR. The samples are
named as in the statement of success. An MB_TRANSMIT in progress in its post-delay releases the driver at the first
sample that ends the delay, with HW_ERROR if a byte was refused and OK if not. -/
def Obligations.MbTransmitReleasesTheDriverOnFailure : Prop :=
  ∀ (s : State) (post rest : List WaitSample) (v : WaitSample), s.env.powerCut = none →
    (∀ (n k : Nat) (f : List Byte) (pre : List WaitSample) (w u : WaitSample),
      s.Inv → s.hasPacket n → 1 ≤ n → n ≤ s.cfg.maxData → k < n + 5 →
      f = frame s.cfg (s.host.dbuf.take n) →
      s.env.waitSamples = pre ++ w :: u :: (post ++ v :: rest) →
      (∀ x ∈ pre, (x.tick - s.env.nowTick).toNat < s.cfg.mbPreDelayTicks) →
      s.cfg.mbPreDelayTicks ≤ (w.tick - s.env.nowTick).toNat →
      (∀ x ∈ post, (x.tick - u.tick).toNat < s.cfg.mbPostDelayTicks) →
      s.cfg.mbPostDelayTicks ≤ (v.tick - u.tick).toNat →
      s.env.verdictsOf .txMb (List.replicate (k + 1) 0) = List.replicate k .ok ++ [.fail] →
      exec .mbTransmit s = .next { s with
        host := { s.host with status := 2 }
        mb := { s.mb with de := false }
        wait := .idle
        env := { s.env.afterCalls .txMb (List.replicate (k + 1) 0) with
          nowTick := v.tick
          waitSamples := rest
          rxMb := s.env.rxMb ++ (pre ++ w :: u :: (post ++ [v])).flatMap WaitSample.arrivals }
        events := s.events ++ [.driverEnable true, .nowTick s.env.nowTick] ++ delayEvents (pre ++ [w]) ++
          ((f.take k).map fun b => Event.txMb b .ok) ++
          [if k = n + 4 then Event.txMbLast (f.getD k 0) .fail else Event.txMb (f.getD k 0) .fail,
           .nowTick u.tick] ++
          delayEvents (post ++ [v]) ++ [.driverEnable false] }) ∧
    (∀ (t0 : Word) (ok : Bool), s.wait = .mbPost t0 ok → s.env.waitSamples = post ++ v :: rest →
      (∀ x ∈ post, (x.tick - t0).toNat < s.cfg.mbPostDelayTicks) →
      s.cfg.mbPostDelayTicks ≤ (v.tick - t0).toNat →
      resumeWait s = .next { s with
        host := { s.host with status := if ok then 0 else 2 }
        mb := { s.mb with de := false }
        wait := .idle
        env := { s.env with
          nowTick := v.tick
          waitSamples := rest
          rxMb := s.env.rxMb ++ (post ++ [v]).flatMap WaitSample.arrivals }
        events := s.events ++ delayEvents (post ++ [v]) ++ [.driverEnable false] })

/-- R116, R32; that the command stays in progress is the model's choice (log 11): MB_TRANSMIT while the environment
moves no counter: with a pre-delay it drives the line, has sent nothing and stays in progress; with no pre-delay it
sends the frame, up to its end or to the first byte that is not accepted, and with a post-delay it then stays in
progress with the driver on; with both delays 0 it completes, with HW_ERROR if a byte was refused and OK if not. In
progress in a delay that the counter has not reached, it stays there. -/
def Obligations.MbTransmitWithoutCounterMoves : Prop :=
  ∀ s : State, s.env.powerCut = none → s.env.waitSamples = [] →
    (∀ (n : Nat) (f : List Byte), s.Inv → s.hasPacket n → 1 ≤ n → n ≤ s.cfg.maxData →
      f = frame s.cfg (s.host.dbuf.take n) →
      (0 < s.cfg.mbPreDelayTicks →
        exec .mbTransmit s = .next { s with
          mb := { s.mb with de := true }
          wait := .mbPre s.env.nowTick f
          events := s.events ++
            [.driverEnable true, .nowTick s.env.nowTick, .kick, .nowTick s.env.nowTick] }) ∧
      (s.cfg.mbPreDelayTicks = 0 →
        s.env.verdictsOf .txMb (List.replicate (n + 5) 0) = List.replicate (n + 5) .ok →
        exec .mbTransmit s =
          let sent := s.events ++
            [.driverEnable true, .nowTick s.env.nowTick, .kick, .nowTick s.env.nowTick] ++
            ((f.take (n + 4)).map fun b => .txMb b .ok) ++
            [.txMbLast (f.getD (n + 4) 0) .ok, .nowTick s.env.nowTick, .kick, .nowTick s.env.nowTick]
          .next (if s.cfg.mbPostDelayTicks = 0 then { s with
              host := { s.host with status := 0 }
              mb := { s.mb with de := false }
              wait := .idle
              env := s.env.afterCalls .txMb (List.replicate (n + 5) 0)
              events := sent ++ [.driverEnable false] }
            else { s with
              mb := { s.mb with de := true }
              wait := .mbPost s.env.nowTick true
              env := s.env.afterCalls .txMb (List.replicate (n + 5) 0)
              events := sent })) ∧
      (∀ k, k < n + 5 → s.cfg.mbPreDelayTicks = 0 →
        s.env.verdictsOf .txMb (List.replicate (k + 1) 0) = List.replicate k .ok ++ [.fail] →
        exec .mbTransmit s =
          let sent := s.events ++
            [.driverEnable true, .nowTick s.env.nowTick, .kick, .nowTick s.env.nowTick] ++
            ((f.take k).map fun b => .txMb b .ok) ++
            [if k = n + 4 then .txMbLast (f.getD k 0) .fail else .txMb (f.getD k 0) .fail,
             .nowTick s.env.nowTick, .kick, .nowTick s.env.nowTick]
          .next (if s.cfg.mbPostDelayTicks = 0 then { s with
              host := { s.host with status := 2 }
              mb := { s.mb with de := false }
              wait := .idle
              env := s.env.afterCalls .txMb (List.replicate (k + 1) 0)
              events := sent ++ [.driverEnable false] }
            else { s with
              mb := { s.mb with de := true }
              wait := .mbPost s.env.nowTick false
              env := s.env.afterCalls .txMb (List.replicate (k + 1) 0)
              events := sent }))) ∧
    (∀ t0 : Word, ((∃ f, s.wait = .mbPre t0 f) ∧ (s.env.nowTick - t0).toNat < s.cfg.mbPreDelayTicks) ∨
        ((∃ ok, s.wait = .mbPost t0 ok) ∧ (s.env.nowTick - t0).toNat < s.cfg.mbPostDelayTicks) →
      resumeWait s = .next { s with events := s.events ++ [.kick, .nowTick s.env.nowTick] })

/-! ## Flash -/

/-- R43, R44: after a successful ProgramBlock FlashRead of that block returns its data, and every other byte of flash
is unchanged; after a failed one every other byte is unchanged. -/
def Obligations.ProgrammedBlockReadsBack : Prop :=
  ∀ (s t : State) (a : Nat) (data : List Byte), s.FlashOk → s.env.powerCut = none →
    (programBlock a data s = .ok true t →
      flashRead a data.length t = .ok data (t.record (.flashRead a data.length)) ∧
      ∀ x, (x < a ∨ a + data.length ≤ x) → t.flashByte x = s.flashByte x) ∧
    (programBlock a data s = .ok false t →
      ∀ x, (x < a ∨ a + data.length ≤ x) → t.flashByte x = s.flashByte x)

/-- R17 to R23, R36, D8, I8; that a read puts its value, extended with zeros, on a field of the model's own, and that
marks beside the registers say what was written, is the model's choice (logs 15 and 3): the upstream agent reads back
what it wrote to ARG_ADDR, ARG_LEN, a DBUF byte and CMD; a read of STATUS or RESULT, and of PKT_LEN or a byte of
PKT_DATA that a delivery has written, gives the register; a read of any register or byte that nothing has written
faults. With no command in progress a step whose next move is a read of a register the block has is that read. -/
def Obligations.UpstreamReadsBackItsWrites : Prop :=
  ∀ (s : State) (v : Word) (i : Nat) (b : Byte) (w : Half), s.Inv →
    (i < s.cfg.dbufSize →
      readRegister .argAddr (writeArgAddr v s) = .next { writeArgAddr v s with readBus := v } ∧
      readRegister .argLen (writeArgLen v s) = .next { writeArgLen v s with readBus := v } ∧
      readRegister (.dbuf i) (writeDbuf i b s) = .next { writeDbuf i b s with readBus := b.setWidth 32 } ∧
      readRegister .cmd (writeCmd w s) = .next { writeCmd w s with readBus := w.setWidth 32 }) ∧
    readRegister .status s = .next { s with readBus := s.host.status.setWidth 32 } ∧
    readRegister .result s = .next { s with readBus := s.host.result } ∧
    (s.host.pktLenWritten = true →
      readRegister .pktLen s = .next { s with readBus := s.host.pktLen.setWidth 32 }) ∧
    (i < s.host.pktDataWritten →
      ∃ c, s.host.pktData[i]? = some c ∧ readRegister (.pktData i) s = .next { s with readBus := c.setWidth 32 }) ∧
    (s.host.cmdWritten = false → readRegister .cmd s = .fault .unwrittenRead) ∧
    (s.host.argAddrWritten = false → readRegister .argAddr s = .fault .unwrittenRead) ∧
    (s.host.argLenWritten = false → readRegister .argLen s = .fault .unwrittenRead) ∧
    (s.host.dbufWritten[i]? = some false → readRegister (.dbuf i) s = .fault .unwrittenRead) ∧
    (s.host.pktLenWritten = false → readRegister .pktLen s = .fault .unwrittenRead) ∧
    (s.host.pktDataWritten ≤ i → i < s.cfg.maxData → readRegister (.pktData i) s = .fault .unwrittenRead) ∧
    (∀ (r : ReadReg) (ms : List Move), s.moves = .up (.read r) :: ms → s.wait = .idle →
      (UpMove.read r).wf s.cfg.toParams = true → step s = readRegister r { s with moves := ms })
end

