-- ==== Sys2Proof/Laws/Memory.lean ====
section
/-! SUPPORT. Flash as a list of cells: every memory operation keeps the canonical form, a read sees the last write to its
address and no other, and equal contents are equal data. -/

namespace Sys2Proof.Machine

open Sys2Proof

/-! ## The canonical form -/

/-- The canonical form of a cell and the cells after it. -/
theorem Memory.wfFrom_cons {d : Byte} {lo x : Nat} {b : Byte} {m : Memory} :
    Memory.wfFrom d lo ((x, b) :: m) = true ↔
      lo ≤ x ∧ x < Params.addrSpace ∧ b ≠ d ∧ Memory.wfFrom d (x + 1) m = true := by
  simp [Memory.wfFrom, and_assoc]

theorem Memory.wfFrom_mono {d : Byte} {lo lo' : Nat} {m : Memory} (h : lo ≤ lo')
    (hm : Memory.wfFrom d lo' m = true) : Memory.wfFrom d lo m = true := by
  cases m with
  | nil => rfl
  | cons c m =>
    obtain ⟨h1, h2⟩ := Memory.wfFrom_cons.1 hm
    exact Memory.wfFrom_cons.2 ⟨h.trans h1, h2⟩

theorem Memory.wfFrom_write {d : Byte} {m : Memory} {lo a : Nat} {b : Byte} (hm : Memory.wfFrom d lo m = true)
    (hlo : lo ≤ a) (ha : a < Params.addrSpace) : Memory.wfFrom d lo (Memory.write d m a b) = true := by
  induction m generalizing lo with
  | nil =>
    by_cases hb : b = d
    · simp [Memory.write, hb, Memory.wfFrom]
    · simpa [Memory.write, hb, Memory.wfFrom] using ⟨hlo, ha⟩
  | cons c m ih =>
    obtain ⟨x, c⟩ := c
    obtain ⟨h1, h2, h3, h4⟩ := Memory.wfFrom_cons.1 hm
    simp only [Memory.write]
    split_ifs with hlt hb heq hb
    · exact hm
    · exact Memory.wfFrom_cons.2 ⟨hlo, ha, hb, Memory.wfFrom_cons.2 ⟨hlt, h2, h3, h4⟩⟩
    · exact Memory.wfFrom_mono (by omega) h4
    · exact Memory.wfFrom_cons.2 ⟨hlo, ha, hb, by subst heq; exact h4⟩
    · exact Memory.wfFrom_cons.2 ⟨h1, h2, h3, ih h4 (by omega)⟩

/-- Writing one byte keeps the canonical form. -/
theorem Memory.wf_write {d : Byte} {m : Memory} {a : Nat} {b : Byte} (hm : m.wf d = true)
    (ha : a < Params.addrSpace) : (Memory.write d m a b).wf d = true :=
  Memory.wfFrom_write hm (Nat.zero_le a) ha

/-- Writing a run of bytes inside the address space keeps the canonical form. -/
theorem Memory.wf_writeBytes {d : Byte} {bs : List Byte} {m : Memory} {a : Nat} (hm : m.wf d = true)
    (ha : a + bs.length ≤ Params.addrSpace) : (Memory.writeBytes d m a bs).wf d = true := by
  induction bs generalizing m a with
  | nil => exact hm
  | cons b bs ih =>
    simp only [List.length_cons] at ha
    exact ih (Memory.wf_write hm (by omega)) (by omega)

theorem Memory.wfFrom_erase {d : Byte} {m : Memory} {lo : Nat} (a n : Nat) (hm : Memory.wfFrom d lo m = true) :
    Memory.wfFrom d lo (m.erase a n) = true := by
  induction m generalizing lo with
  | nil => rfl
  | cons c m ih =>
    obtain ⟨h1, h2, h3, h4⟩ := Memory.wfFrom_cons.1 hm
    simp only [Memory.erase, List.filter_cons]
    split_ifs
    · exact Memory.wfFrom_cons.2 ⟨h1, h2, h3, ih h4⟩
    · exact Memory.wfFrom_mono (by omega) (ih h4)

/-- Erasing a range keeps the canonical form. -/
theorem Memory.wf_erase {d : Byte} {m : Memory} (a n : Nat) (hm : m.wf d = true) : (m.erase a n).wf d = true :=
  Memory.wfFrom_erase a n hm

/-- Flash after reset is in the canonical form. -/
theorem Memory.wf_reset (c : Config) : (State.resetWith c).flash.wf c.erasedByte = true := rfl

/-! ## Reading back -/

/-- Below the first address a memory can list, it reads as an unlisted address. -/
theorem Memory.read_of_lt {d : Byte} {m : Memory} {lo a : Nat} (hm : Memory.wfFrom d lo m = true) (h : a < lo) :
    Memory.read d m a = d := by
  induction m generalizing lo with
  | nil => rfl
  | cons c m ih =>
    obtain ⟨x, b⟩ := c
    obtain ⟨h1, -, -, h4⟩ := Memory.wfFrom_cons.1 hm
    have hax : a ≠ x := by omega
    simpa [Memory.read, hax] using ih h4 (by omega)

theorem Memory.read_write_from {d : Byte} {m : Memory} {lo a : Nat} {b : Byte} (hm : Memory.wfFrom d lo m = true) :
    Memory.read d (Memory.write d m a b) a = b := by
  induction m generalizing lo with
  | nil => by_cases hb : b = d <;> simp [Memory.write, Memory.read, hb]
  | cons c m ih =>
    obtain ⟨x, c⟩ := c
    obtain ⟨h1, -, -, h4⟩ := Memory.wfFrom_cons.1 hm
    simp only [Memory.write]
    split_ifs with hlt hb heq hb
    · have hax : a ≠ x := by omega
      simpa [Memory.read, hax, hb] using Memory.read_of_lt h4 (by omega : a < x + 1)
    · simp [Memory.read]
    · subst heq; simpa [hb] using Memory.read_of_lt h4 (Nat.lt_succ_self a)
    · simp [Memory.read]
    · simpa [Memory.read, heq] using ih h4

/-- A read after a write to the same address gives the value written. -/
theorem Memory.read_write_same {d : Byte} {m : Memory} {a : Nat} {b : Byte} (hm : m.wf d = true) :
    Memory.read d (Memory.write d m a b) a = b := Memory.read_write_from hm

/-- A write leaves every other address alone. -/
theorem Memory.read_write_other {d : Byte} {m : Memory} {a x : Nat} {b : Byte} (h : x ≠ a) :
    Memory.read d (Memory.write d m a b) x = Memory.read d m x := by
  induction m with
  | nil => by_cases hb : b = d <;> simp [Memory.write, Memory.read, hb, h]
  | cons c m ih =>
    obtain ⟨y, c⟩ := c
    simp only [Memory.write]
    split_ifs with hlt hb heq hb
    · rfl
    · simp [Memory.read, h]
    · subst heq; simp [Memory.read, h]
    · subst heq; simp [Memory.read, h]
    · simp only [Memory.read, ih]

/-- A run of bytes leaves every address outside it alone. -/
theorem Memory.read_writeBytes_outside {d : Byte} {bs : List Byte} {m : Memory} {a x : Nat}
    (h : x < a ∨ a + bs.length ≤ x) : Memory.read d (Memory.writeBytes d m a bs) x = Memory.read d m x := by
  induction bs generalizing m a with
  | nil => rfl
  | cons b bs ih =>
    simp only [List.length_cons] at h
    rw [Memory.writeBytes, ih (by omega), Memory.read_write_other (by omega)]

/-- Byte `i` of a run just written reads as written. -/
theorem Memory.read_writeBytes_inside {d : Byte} {bs : List Byte} {m : Memory} {a i : Nat} (hm : m.wf d = true)
    (ha : a + bs.length ≤ Params.addrSpace) (hi : i < bs.length) :
    Memory.read d (Memory.writeBytes d m a bs) (a + i) = bs.getD i 0 := by
  induction bs generalizing m a i with
  | nil => simp at hi
  | cons b bs ih =>
    simp only [List.length_cons] at ha hi
    rw [Memory.writeBytes]
    cases i with
    | zero => rw [Memory.read_writeBytes_outside (by omega), Nat.add_zero, Memory.read_write_same hm]; rfl
    | succ i =>
      rw [show a + (i + 1) = a + 1 + i by omega, ih (Memory.wf_write hm (by omega)) (by omega) (by omega)]
      rfl

@[simp] theorem Memory.readBytes_length (d : Byte) (m : Memory) (a n : Nat) :
    (Memory.readBytes d m a n).length = n := by
  induction n generalizing a with
  | zero => rfl
  | succ n ih => simp [Memory.readBytes, ih]

/-- Byte `i` of a run read from flash. -/
theorem Memory.readBytes_getD {d : Byte} {m : Memory} {a n i : Nat} (h : i < n) :
    (Memory.readBytes d m a n).getD i 0 = Memory.read d m (a + i) := by
  induction n generalizing a i with
  | zero => omega
  | succ n ih =>
    cases i with
    | zero => rfl
    | succ i => simpa [Memory.readBytes, Nat.add_assoc, Nat.add_comm 1] using ih (a := a + 1) (i := i) (by omega)

/-- A run read in two parts. -/
theorem Memory.readBytes_append (d : Byte) (m : Memory) (a n k : Nat) :
    Memory.readBytes d m a (n + k) = Memory.readBytes d m a n ++ Memory.readBytes d m (a + n) k := by
  induction n generalizing a with
  | zero => simp [Memory.readBytes]
  | succ n ih => simp only [Nat.succ_add, Memory.readBytes, ih, List.cons_append]; rfl

/-- An erased byte reads as ERASED_BYTE. -/
theorem Memory.read_erase_inside {d : Byte} {m : Memory} {a n x : Nat} (h : a ≤ x ∧ x < a + n) :
    Memory.read d (m.erase a n) x = d := by
  induction m with
  | nil => rfl
  | cons c m ih =>
    obtain ⟨y, b⟩ := c
    simp only [Memory.erase, List.filter_cons] at ih ⊢
    split_ifs with hy
    · have hxy : x ≠ y := by simp only [Bool.or_eq_true, decide_eq_true_eq] at hy; omega
      simpa [Memory.read, hxy] using ih
    · exact ih

/-- Erasing leaves every byte outside the range alone. -/
theorem Memory.read_erase_outside {d : Byte} {m : Memory} {a n x : Nat} (h : x < a ∨ a + n ≤ x) :
    Memory.read d (m.erase a n) x = Memory.read d m x := by
  induction m with
  | nil => rfl
  | cons c m ih =>
    obtain ⟨y, b⟩ := c
    simp only [Memory.erase, List.filter_cons] at ih ⊢
    split_ifs with hy
    · simp only [Memory.read]; split_ifs
      · rfl
      · exact ih
    · have hxy : x ≠ y := by simp only [Bool.or_eq_true, decide_eq_true_eq] at hy; omega
      simpa [Memory.read, hxy] using ih

/-! ## Equal contents are equal data -/

theorem Memory.eq_of_read_from {d : Byte} {m m' : Memory} {lo : Nat} (hm : Memory.wfFrom d lo m = true)
    (hm' : Memory.wfFrom d lo m' = true) (h : ∀ a, Memory.read d m a = Memory.read d m' a) : m = m' := by
  induction m generalizing m' lo with
  | nil =>
    cases m' with
    | nil => rfl
    | cons c m' =>
      obtain ⟨x, b⟩ := c
      exact absurd (by simpa [Memory.read] using (h x).symm) (Memory.wfFrom_cons.1 hm').2.2.1
  | cons c m ih =>
    obtain ⟨x, b⟩ := c
    obtain ⟨-, -, hb, h4⟩ := Memory.wfFrom_cons.1 hm
    cases m' with
    | nil => exact absurd (by simpa [Memory.read] using h x) hb
    | cons c' m' =>
      obtain ⟨y, b'⟩ := c'
      obtain ⟨-, -, hb', h4'⟩ := Memory.wfFrom_cons.1 hm'
      have hxy : x = y := by
        rcases Nat.lt_trichotomy x y with hlt | heq | hlt
        · have hne : x ≠ y := by omega
          have hx := h x
          simp only [Memory.read, if_neg hne] at hx
          exact absurd (hx.trans (Memory.read_of_lt h4' (by omega))) hb
        · exact heq
        · have hne : y ≠ x := by omega
          have hy := h y
          simp only [Memory.read, if_neg hne] at hy
          exact absurd (hy.symm.trans (Memory.read_of_lt h4 (by omega))) hb'
      subst hxy
      have hbb : b = b' := by simpa [Memory.read] using h x
      subst hbb
      congr 1
      refine ih h4 h4' fun a => ?_
      by_cases hax : a = x
      · subst hax
        rw [Memory.read_of_lt h4 (Nat.lt_succ_self a), Memory.read_of_lt h4' (Nat.lt_succ_self a)]
      · simpa [Memory.read, hax] using h a

/-- Two flash memories in canonical form that read alike at every address are equal. -/
theorem Memory.eq_of_read {d : Byte} {m m' : Memory} (hm : m.wf d = true) (hm' : m'.wf d = true)
    (h : ∀ a, Memory.read d m a = Memory.read d m' a) : m = m' := Memory.eq_of_read_from hm hm' h

/-! ## Covered ranges -/

/-- R73: an address is covered when an entry of the table holds it. -/
theorem covered_iff {c : Config} {a : Nat} :
    covered c a = true ↔ ∃ e ∈ c.sectorTable, e.start ≤ a ∧ a < e.start + e.size := by
  simp [covered, List.any_eq_true]

theorem allCovered_iff {c : Config} {a n : Nat} :
    allCovered c a n = true ↔ ∀ x, a ≤ x → x < a + n → covered c x = true := by
  induction n generalizing a with
  | zero => simp only [allCovered, true_iff]; omega
  | succ n ih =>
    simp only [allCovered, Bool.and_eq_true, ih]
    refine ⟨fun ⟨h1, h2⟩ x hx hx' => ?_, fun h => ⟨h a (by omega) (by omega), fun x hx hx' => h x (by omega) (by omega)⟩⟩
    by_cases hax : x = a
    · exact hax ▸ h1
    · exact h2 x (by omega) (by omega)

/-- R73: RangeCovered in full. -/
theorem rangeCovered_iff {c : Config} {a n : Nat} :
    rangeCovered c a n = true ↔
      1 ≤ n ∧ a + n ≤ Params.addrSpace ∧ ∀ x, a ≤ x → x < a + n → covered c x = true := by
  simp [rangeCovered, allCovered_iff, and_assoc]

/-- A part of a covered range is covered. -/
theorem rangeCovered_part {c : Config} {a n x k : Nat} (h : rangeCovered c a n = true) (hk : 1 ≤ k) (hx : a ≤ x)
    (hxk : x + k ≤ a + n) : rangeCovered c x k = true := by
  obtain ⟨-, h2, h3⟩ := rangeCovered_iff.1 h
  exact rangeCovered_iff.2 ⟨hk, by omega, fun y hy hy' => h3 y (by omega) (by omega)⟩

end Sys2Proof.Machine
end

