-- ==== Sys2Proof/Laws/Config.lean ====
section
/-! SUPPORT. What the checks of spec/00_scope.md R13 and R14 say of every configuration. -/

namespace Sys2Proof

open Sys2Proof.Machine

/-- The checks a configuration carries, one by one. -/
theorem Config.checks (c : Config) :
    c.wbsOk = true ∧ c.tableOk = true ∧ c.tableDisjoint = true ∧ c.tableAligned = true ∧ c.csFieldOk = true ∧
      c.vectorsOk = true ∧ c.csWidthOk = true ∧ c.maxDataOk = true ∧ c.baudOk = true ∧ c.dbufOk = true ∧
      c.timeoutOk = true := by
  have h := c.valid
  simpa only [Params.wf, Bool.and_eq_true, and_assoc] using h

/-- R13 invariant 1. -/
theorem Config.wbs_pos (c : Config) : 1 ≤ c.wbs := by
  have h := c.checks.1
  simpa [Params.wbsOk] using h

/-- R13 invariants 2 and 4, for one entry of the table. -/
theorem Config.sector (c : Config) {e : Sector} (he : e ∈ c.sectorTable) :
    1 ≤ e.size ∧ e.start + e.size ≤ Params.addrSpace ∧ e.start % c.wbs = 0 ∧ e.size % c.wbs = 0 := by
  have h2 := c.checks.2.1
  have h4 := c.checks.2.2.2.1
  simp only [Params.tableOk, Bool.and_eq_true, List.all_eq_true, decide_eq_true_eq] at h2
  simp only [Params.tableAligned, Bool.and_eq_true, List.all_eq_true, decide_eq_true_eq] at h4
  exact ⟨(h2.2 e he).1, (h2.2 e he).2, h4 e he⟩

/-- R13 invariants 6 to 8 and R7: the checksum word, its field and the vector words. -/
theorem Config.checksum (c : Config) :
    (c.csWidth = 16 ∧ c.csBytes = 2 ∨ c.csWidth = 32 ∧ c.csBytes = 4) ∧ c.csOffset + c.csBytes ≤ c.wbs ∧
      1 ≤ c.csWordCount ∧ c.csWordCount * c.csBytes ≤ c.csOffset ∧ c.csBytes ≤ c.dbufSize := by
  obtain ⟨-, -, -, -, h5, h6, h7, -, -, h10, -⟩ := c.checks
  simp only [Params.csFieldOk, Params.vectorsOk, Params.csWidthOk, Params.dbufOk, Bool.and_eq_true, Bool.or_eq_true,
    decide_eq_true_eq] at h5 h6 h7 h10
  refine ⟨?_, h5, h6.1.1, h6.2, h10.2⟩
  rcases h7 with h | h <;> simp [Params.csBytes, h]

/-- R14 invariants 1, 2, 3 and 4. -/
theorem Config.lengths (c : Config) :
    1 ≤ c.maxData ∧ c.maxData ≤ 255 ∧ c.maxData ≤ c.dbufSize ∧ 1 ≤ c.baud ∧ 1 ≤ c.pfTimeoutMs := by
  obtain ⟨-, -, -, -, -, -, -, h8, h9, h10, h11⟩ := c.checks
  simp only [Params.maxDataOk, Params.baudOk, Params.dbufOk, Params.timeoutOk, Bool.and_eq_true,
    decide_eq_true_eq] at h8 h9 h10 h11
  exact ⟨h8.1, h8.2, h10.1, h9, h11⟩

/-- The least start of a list of sectors is the start of one of them and no start is less. -/
theorem Params.leastStart_spec (es : List Sector) :
    (es = [] ∧ leastStart es = none) ∨
      ∃ m, leastStart es = some m ∧ (∃ e ∈ es, e.start = m) ∧ ∀ e ∈ es, m ≤ e.start := by
  induction es with
  | nil => exact .inl ⟨rfl, rfl⟩
  | cons e es ih =>
    refine .inr ?_
    rcases ih with ⟨rfl, -⟩ | ⟨m, hm, ⟨f, hf, rfl⟩, hle⟩
    · exact ⟨e.start, rfl, ⟨e, by simp, rfl⟩, by simp⟩
    · refine ⟨min e.start f.start, by simp [leastStart, hm], ?_, ?_⟩
      · rcases Nat.le_total e.start f.start with h | h
        · exact ⟨e, by simp, by omega⟩
        · exact ⟨f, by simp [hf], by omega⟩
      · intro x hx
        rcases List.mem_cons.1 hx with rfl | hx
        · exact Nat.min_le_left _ _
        · exact (Nat.min_le_right _ _).trans (hle x hx)

/-- R13 invariants 2 and 5: BOOT_BASE is the start of an entry, and the least. -/
theorem Config.bootBase_spec (c : Config) :
    (∃ e ∈ c.sectorTable, e.start = c.bootBase) ∧ ∀ e ∈ c.sectorTable, c.bootBase ≤ e.start := by
  have h2 := c.checks.2.1
  rcases Params.leastStart_spec c.sectorTable with ⟨h, -⟩ | ⟨m, hm, hex, hle⟩
  · simp [Params.tableOk, h] at h2
  · simpa [Params.bootBase, hm] using ⟨hex, hle⟩

/-- R13 invariant 5. -/
theorem Config.bootBase_aligned (c : Config) : c.bootBase % c.wbs = 0 := by
  obtain ⟨e, he, h⟩ := c.bootBase_spec.1
  exact h ▸ (c.sector he).2.2.1

/-- Every write block with a covered base is covered whole (R13 invariant 4), so a flash port may take it. -/
theorem Config.block_covered (c : Config) {base : Nat} (hb : base % c.wbs = 0) (h : covered c base = true) :
    rangeCovered c base c.wbs = true := by
  obtain ⟨e, he, h1, h2⟩ := covered_iff.1 h
  obtain ⟨-, hs, ha, hz⟩ := c.sector he
  have hw := c.wbs_pos
  have hend : base + c.wbs ≤ e.start + e.size := by
    obtain ⟨k, hk⟩ := Nat.dvd_of_mod_eq_zero hb
    obtain ⟨l, hl⟩ := Nat.dvd_of_mod_eq_zero (show (e.start + e.size) % c.wbs = 0 by simp [Nat.add_mod, ha, hz])
    have hkl : k < l := Nat.lt_of_mul_lt_mul_left (a := c.wbs) (by omega)
    calc base + c.wbs = c.wbs * (k + 1) := by rw [hk]; ring
      _ ≤ c.wbs * l := Nat.mul_le_mul_left _ hkl
      _ = e.start + e.size := hl.symm
  exact rangeCovered_iff.2 ⟨hw, by omega, fun x hx hx' => covered_iff.2 ⟨e, he, by omega, by omega⟩⟩

/-- BOOT_BASE is covered, and so is its write block. -/
theorem Config.boot_covered (c : Config) : rangeCovered c c.bootBase c.wbs = true := by
  obtain ⟨e, he, h⟩ := c.bootBase_spec.1
  refine c.block_covered c.bootBase_aligned (covered_iff.2 ⟨e, he, by omega, ?_⟩)
  have := (c.sector he).1
  omega

/-- The block base of a covered address is covered: no write block straddles a sector's start (R13 invariant 4). -/
theorem Config.blockBase_covered (c : Config) {a : Nat} (h : covered c a = true) :
    covered c (blockBase c a) = true ∧ blockBase c a % c.wbs = 0 ∧ blockBase c a ≤ a ∧
      a < blockBase c a + c.wbs := by
  obtain ⟨e, he, h1, h2⟩ := covered_iff.1 h
  obtain ⟨-, -, ha, -⟩ := c.sector he
  have hw := c.wbs_pos
  have hmod := Nat.mod_lt a hw
  have hbase : blockBase c a = c.wbs * (a / c.wbs) := by
    have := Nat.div_add_mod a c.wbs
    unfold blockBase; omega
  have hstart : e.start ≤ blockBase c a := by
    obtain ⟨k, hk⟩ := Nat.dvd_of_mod_eq_zero ha
    have hle : k ≤ a / c.wbs := (Nat.le_div_iff_mul_le hw).2 (by rw [Nat.mul_comm]; omega)
    rw [hbase, hk]; exact Nat.mul_le_mul_left _ hle
  have hle : blockBase c a ≤ a := Nat.sub_le _ _
  refine ⟨covered_iff.2 ⟨e, he, hstart, by omega⟩, by rw [hbase]; exact Nat.mul_mod_right _ _, hle, ?_⟩
  unfold blockBase; omega

end Sys2Proof
end

