-- ==== Sys2Proof/Laws/State.lean ====
section
/-! SUPPORT. One lemma for each field under each named update of the state, so that no proof unfolds a record update. -/

namespace Sys2Proof.Machine

open Sys2Proof

/-! ## Writers of the command interface -/

@[simp] theorem State.setStatus_cfg (s : State) (c : StatusCode) : (s.setStatus c).cfg = s.cfg := rfl
@[simp] theorem State.setStatus_gen (s : State) (c : StatusCode) : (s.setStatus c).gen = s.gen := rfl
@[simp] theorem State.setStatus_boot (s : State) (c : StatusCode) : (s.setStatus c).boot = s.boot := rfl
@[simp] theorem State.setStatus_pf (s : State) (c : StatusCode) : (s.setStatus c).pf = s.pf := rfl
@[simp] theorem State.setStatus_crcReg (s : State) (c : StatusCode) : (s.setStatus c).crcReg = s.crcReg := rfl
@[simp] theorem State.setStatus_mb (s : State) (c : StatusCode) : (s.setStatus c).mb = s.mb := rfl
@[simp] theorem State.setStatus_flash (s : State) (c : StatusCode) : (s.setStatus c).flash = s.flash := rfl
@[simp] theorem State.setStatus_env (s : State) (c : StatusCode) : (s.setStatus c).env = s.env := rfl
@[simp] theorem State.setStatus_wait (s : State) (c : StatusCode) : (s.setStatus c).wait = s.wait := rfl
@[simp] theorem State.setStatus_events (s : State) (c : StatusCode) : (s.setStatus c).events = s.events := rfl
@[simp] theorem State.setStatus_moves (s : State) (c : StatusCode) : (s.setStatus c).moves = s.moves := rfl
@[simp] theorem State.setStatus_readBus (s : State) (c : StatusCode) : (s.setStatus c).readBus = s.readBus := rfl
@[simp] theorem State.setStatus_host_cmd (s : State) (c : StatusCode) : (s.setStatus c).host.cmd = s.host.cmd := rfl
@[simp] theorem State.setStatus_host_argAddr (s : State) (c : StatusCode) :
    (s.setStatus c).host.argAddr = s.host.argAddr := rfl
@[simp] theorem State.setStatus_host_argLen (s : State) (c : StatusCode) :
    (s.setStatus c).host.argLen = s.host.argLen := rfl
@[simp] theorem State.setStatus_host_dbuf (s : State) (c : StatusCode) :
    (s.setStatus c).host.dbuf = s.host.dbuf := rfl
@[simp] theorem State.setStatus_host_status (s : State) (c : StatusCode) :
    (s.setStatus c).host.status = statusValue c := rfl
@[simp] theorem State.setStatus_host_result (s : State) (c : StatusCode) :
    (s.setStatus c).host.result = s.host.result := rfl
@[simp] theorem State.setStatus_host_pktLen (s : State) (c : StatusCode) :
    (s.setStatus c).host.pktLen = s.host.pktLen := rfl
@[simp] theorem State.setStatus_host_pktData (s : State) (c : StatusCode) :
    (s.setStatus c).host.pktData = s.host.pktData := rfl
@[simp] theorem State.setStatus_host_cmdWritten (s : State) (c : StatusCode) :
    (s.setStatus c).host.cmdWritten = s.host.cmdWritten := rfl
@[simp] theorem State.setStatus_host_argAddrWritten (s : State) (c : StatusCode) :
    (s.setStatus c).host.argAddrWritten = s.host.argAddrWritten := rfl
@[simp] theorem State.setStatus_host_argLenWritten (s : State) (c : StatusCode) :
    (s.setStatus c).host.argLenWritten = s.host.argLenWritten := rfl
@[simp] theorem State.setStatus_host_dbufWritten (s : State) (c : StatusCode) :
    (s.setStatus c).host.dbufWritten = s.host.dbufWritten := rfl
@[simp] theorem State.setStatus_host_pktLenWritten (s : State) (c : StatusCode) :
    (s.setStatus c).host.pktLenWritten = s.host.pktLenWritten := rfl
@[simp] theorem State.setStatus_host_pktDataWritten (s : State) (c : StatusCode) :
    (s.setStatus c).host.pktDataWritten = s.host.pktDataWritten := rfl

@[simp] theorem State.withStatus_cfg (s : State) (v : BitVec 8) : (s.withStatus v).cfg = s.cfg := rfl
@[simp] theorem State.withStatus_gen (s : State) (v : BitVec 8) : (s.withStatus v).gen = s.gen := rfl
@[simp] theorem State.withStatus_boot (s : State) (v : BitVec 8) : (s.withStatus v).boot = s.boot := rfl
@[simp] theorem State.withStatus_pf (s : State) (v : BitVec 8) : (s.withStatus v).pf = s.pf := rfl
@[simp] theorem State.withStatus_crcReg (s : State) (v : BitVec 8) : (s.withStatus v).crcReg = s.crcReg := rfl
@[simp] theorem State.withStatus_mb (s : State) (v : BitVec 8) : (s.withStatus v).mb = s.mb := rfl
@[simp] theorem State.withStatus_flash (s : State) (v : BitVec 8) : (s.withStatus v).flash = s.flash := rfl
@[simp] theorem State.withStatus_env (s : State) (v : BitVec 8) : (s.withStatus v).env = s.env := rfl
@[simp] theorem State.withStatus_wait (s : State) (v : BitVec 8) : (s.withStatus v).wait = s.wait := rfl
@[simp] theorem State.withStatus_events (s : State) (v : BitVec 8) : (s.withStatus v).events = s.events := rfl
@[simp] theorem State.withStatus_moves (s : State) (v : BitVec 8) : (s.withStatus v).moves = s.moves := rfl
@[simp] theorem State.withStatus_readBus (s : State) (v : BitVec 8) : (s.withStatus v).readBus = s.readBus := rfl
@[simp] theorem State.withStatus_host_cmd (s : State) (v : BitVec 8) : (s.withStatus v).host.cmd = s.host.cmd := rfl
@[simp] theorem State.withStatus_host_argAddr (s : State) (v : BitVec 8) :
    (s.withStatus v).host.argAddr = s.host.argAddr := rfl
@[simp] theorem State.withStatus_host_argLen (s : State) (v : BitVec 8) :
    (s.withStatus v).host.argLen = s.host.argLen := rfl
@[simp] theorem State.withStatus_host_dbuf (s : State) (v : BitVec 8) :
    (s.withStatus v).host.dbuf = s.host.dbuf := rfl
@[simp] theorem State.withStatus_host_status (s : State) (v : BitVec 8) : (s.withStatus v).host.status = v := rfl
@[simp] theorem State.withStatus_host_result (s : State) (v : BitVec 8) :
    (s.withStatus v).host.result = s.host.result := rfl
@[simp] theorem State.withStatus_host_pktLen (s : State) (v : BitVec 8) :
    (s.withStatus v).host.pktLen = s.host.pktLen := rfl
@[simp] theorem State.withStatus_host_pktData (s : State) (v : BitVec 8) :
    (s.withStatus v).host.pktData = s.host.pktData := rfl
@[simp] theorem State.withStatus_host_cmdWritten (s : State) (v : BitVec 8) :
    (s.withStatus v).host.cmdWritten = s.host.cmdWritten := rfl
@[simp] theorem State.withStatus_host_argAddrWritten (s : State) (v : BitVec 8) :
    (s.withStatus v).host.argAddrWritten = s.host.argAddrWritten := rfl
@[simp] theorem State.withStatus_host_argLenWritten (s : State) (v : BitVec 8) :
    (s.withStatus v).host.argLenWritten = s.host.argLenWritten := rfl
@[simp] theorem State.withStatus_host_dbufWritten (s : State) (v : BitVec 8) :
    (s.withStatus v).host.dbufWritten = s.host.dbufWritten := rfl
@[simp] theorem State.withStatus_host_pktLenWritten (s : State) (v : BitVec 8) :
    (s.withStatus v).host.pktLenWritten = s.host.pktLenWritten := rfl
@[simp] theorem State.withStatus_host_pktDataWritten (s : State) (v : BitVec 8) :
    (s.withStatus v).host.pktDataWritten = s.host.pktDataWritten := rfl

@[simp] theorem State.setResult_cfg (s : State) (v : Word) : (s.setResult v).cfg = s.cfg := rfl
@[simp] theorem State.setResult_gen (s : State) (v : Word) : (s.setResult v).gen = s.gen := rfl
@[simp] theorem State.setResult_boot (s : State) (v : Word) : (s.setResult v).boot = s.boot := rfl
@[simp] theorem State.setResult_pf (s : State) (v : Word) : (s.setResult v).pf = s.pf := rfl
@[simp] theorem State.setResult_crcReg (s : State) (v : Word) : (s.setResult v).crcReg = s.crcReg := rfl
@[simp] theorem State.setResult_mb (s : State) (v : Word) : (s.setResult v).mb = s.mb := rfl
@[simp] theorem State.setResult_flash (s : State) (v : Word) : (s.setResult v).flash = s.flash := rfl
@[simp] theorem State.setResult_env (s : State) (v : Word) : (s.setResult v).env = s.env := rfl
@[simp] theorem State.setResult_wait (s : State) (v : Word) : (s.setResult v).wait = s.wait := rfl
@[simp] theorem State.setResult_events (s : State) (v : Word) : (s.setResult v).events = s.events := rfl
@[simp] theorem State.setResult_moves (s : State) (v : Word) : (s.setResult v).moves = s.moves := rfl
@[simp] theorem State.setResult_readBus (s : State) (v : Word) : (s.setResult v).readBus = s.readBus := rfl
@[simp] theorem State.setResult_host_cmd (s : State) (v : Word) : (s.setResult v).host.cmd = s.host.cmd := rfl
@[simp] theorem State.setResult_host_argAddr (s : State) (v : Word) :
    (s.setResult v).host.argAddr = s.host.argAddr := rfl
@[simp] theorem State.setResult_host_argLen (s : State) (v : Word) :
    (s.setResult v).host.argLen = s.host.argLen := rfl
@[simp] theorem State.setResult_host_dbuf (s : State) (v : Word) : (s.setResult v).host.dbuf = s.host.dbuf := rfl
@[simp] theorem State.setResult_host_status (s : State) (v : Word) :
    (s.setResult v).host.status = s.host.status := rfl
@[simp] theorem State.setResult_host_result (s : State) (v : Word) : (s.setResult v).host.result = v := rfl
@[simp] theorem State.setResult_host_pktLen (s : State) (v : Word) :
    (s.setResult v).host.pktLen = s.host.pktLen := rfl
@[simp] theorem State.setResult_host_pktData (s : State) (v : Word) :
    (s.setResult v).host.pktData = s.host.pktData := rfl
@[simp] theorem State.setResult_host_cmdWritten (s : State) (v : Word) :
    (s.setResult v).host.cmdWritten = s.host.cmdWritten := rfl
@[simp] theorem State.setResult_host_argAddrWritten (s : State) (v : Word) :
    (s.setResult v).host.argAddrWritten = s.host.argAddrWritten := rfl
@[simp] theorem State.setResult_host_argLenWritten (s : State) (v : Word) :
    (s.setResult v).host.argLenWritten = s.host.argLenWritten := rfl
@[simp] theorem State.setResult_host_dbufWritten (s : State) (v : Word) :
    (s.setResult v).host.dbufWritten = s.host.dbufWritten := rfl
@[simp] theorem State.setResult_host_pktLenWritten (s : State) (v : Word) :
    (s.setResult v).host.pktLenWritten = s.host.pktLenWritten := rfl
@[simp] theorem State.setResult_host_pktDataWritten (s : State) (v : Word) :
    (s.setResult v).host.pktDataWritten = s.host.pktDataWritten := rfl

@[simp] theorem State.deliver_cfg (s : State) (n : BitVec 8) (p : List Byte) : (s.deliver n p).cfg = s.cfg := rfl
@[simp] theorem State.deliver_gen (s : State) (n : BitVec 8) (p : List Byte) : (s.deliver n p).gen = s.gen := rfl
@[simp] theorem State.deliver_boot (s : State) (n : BitVec 8) (p : List Byte) : (s.deliver n p).boot = s.boot := rfl
@[simp] theorem State.deliver_pf (s : State) (n : BitVec 8) (p : List Byte) : (s.deliver n p).pf = s.pf := rfl
@[simp] theorem State.deliver_crcReg (s : State) (n : BitVec 8) (p : List Byte) :
    (s.deliver n p).crcReg = s.crcReg := rfl
@[simp] theorem State.deliver_mb (s : State) (n : BitVec 8) (p : List Byte) : (s.deliver n p).mb = s.mb := rfl
@[simp] theorem State.deliver_flash (s : State) (n : BitVec 8) (p : List Byte) :
    (s.deliver n p).flash = s.flash := rfl
@[simp] theorem State.deliver_env (s : State) (n : BitVec 8) (p : List Byte) : (s.deliver n p).env = s.env := rfl
@[simp] theorem State.deliver_wait (s : State) (n : BitVec 8) (p : List Byte) : (s.deliver n p).wait = s.wait := rfl
@[simp] theorem State.deliver_events (s : State) (n : BitVec 8) (p : List Byte) :
    (s.deliver n p).events = s.events := rfl
@[simp] theorem State.deliver_moves (s : State) (n : BitVec 8) (p : List Byte) :
    (s.deliver n p).moves = s.moves := rfl
@[simp] theorem State.deliver_readBus (s : State) (n : BitVec 8) (p : List Byte) :
    (s.deliver n p).readBus = s.readBus := rfl
@[simp] theorem State.deliver_host_cmd (s : State) (n : BitVec 8) (p : List Byte) :
    (s.deliver n p).host.cmd = s.host.cmd := rfl
@[simp] theorem State.deliver_host_argAddr (s : State) (n : BitVec 8) (p : List Byte) :
    (s.deliver n p).host.argAddr = s.host.argAddr := rfl
@[simp] theorem State.deliver_host_argLen (s : State) (n : BitVec 8) (p : List Byte) :
    (s.deliver n p).host.argLen = s.host.argLen := rfl
@[simp] theorem State.deliver_host_dbuf (s : State) (n : BitVec 8) (p : List Byte) :
    (s.deliver n p).host.dbuf = s.host.dbuf := rfl
@[simp] theorem State.deliver_host_status (s : State) (n : BitVec 8) (p : List Byte) :
    (s.deliver n p).host.status = s.host.status := rfl
@[simp] theorem State.deliver_host_result (s : State) (n : BitVec 8) (p : List Byte) :
    (s.deliver n p).host.result = 1 := rfl
@[simp] theorem State.deliver_host_pktLen (s : State) (n : BitVec 8) (p : List Byte) :
    (s.deliver n p).host.pktLen = n := rfl
@[simp] theorem State.deliver_host_pktData (s : State) (n : BitVec 8) (p : List Byte) :
    (s.deliver n p).host.pktData = p ++ s.host.pktData.drop p.length := rfl
@[simp] theorem State.deliver_host_cmdWritten (s : State) (n : BitVec 8) (p : List Byte) :
    (s.deliver n p).host.cmdWritten = s.host.cmdWritten := rfl
@[simp] theorem State.deliver_host_argAddrWritten (s : State) (n : BitVec 8) (p : List Byte) :
    (s.deliver n p).host.argAddrWritten = s.host.argAddrWritten := rfl
@[simp] theorem State.deliver_host_argLenWritten (s : State) (n : BitVec 8) (p : List Byte) :
    (s.deliver n p).host.argLenWritten = s.host.argLenWritten := rfl
@[simp] theorem State.deliver_host_dbufWritten (s : State) (n : BitVec 8) (p : List Byte) :
    (s.deliver n p).host.dbufWritten = s.host.dbufWritten := rfl
@[simp] theorem State.deliver_host_pktLenWritten (s : State) (n : BitVec 8) (p : List Byte) :
    (s.deliver n p).host.pktLenWritten = true := rfl
@[simp] theorem State.deliver_host_pktDataWritten (s : State) (n : BitVec 8) (p : List Byte) :
    (s.deliver n p).host.pktDataWritten = max s.host.pktDataWritten p.length := rfl

/-! ## Writers of the FlashBlocks -/

@[simp] theorem State.setBlock_cfg (s : State) (b : BlockId) (k : FlashBlock) :
    (s.setBlock b k).cfg = s.cfg := by cases b <;> rfl
@[simp] theorem State.setValid_cfg (s : State) (b : BlockId) (v : Bool) :
    (s.setValid b v).cfg = s.cfg := by cases b <;> rfl
@[simp] theorem State.setBuf_cfg (s : State) (b : BlockId) (l : List Byte) :
    (s.setBuf b l).cfg = s.cfg := by cases b <;> rfl
@[simp] theorem State.setBufByte_cfg (s : State) (b : BlockId) (i : Nat) (v : Byte) :
    (s.setBufByte b i v).cfg = s.cfg := by cases b <;> rfl
@[simp] theorem State.setBlock_host (s : State) (b : BlockId) (k : FlashBlock) :
    (s.setBlock b k).host = s.host := by cases b <;> rfl
@[simp] theorem State.setValid_host (s : State) (b : BlockId) (v : Bool) :
    (s.setValid b v).host = s.host := by cases b <;> rfl
@[simp] theorem State.setBuf_host (s : State) (b : BlockId) (l : List Byte) :
    (s.setBuf b l).host = s.host := by cases b <;> rfl
@[simp] theorem State.setBufByte_host (s : State) (b : BlockId) (i : Nat) (v : Byte) :
    (s.setBufByte b i v).host = s.host := by cases b <;> rfl
@[simp] theorem State.setBlock_pf (s : State) (b : BlockId) (k : FlashBlock) :
    (s.setBlock b k).pf = s.pf := by cases b <;> rfl
@[simp] theorem State.setValid_pf (s : State) (b : BlockId) (v : Bool) :
    (s.setValid b v).pf = s.pf := by cases b <;> rfl
@[simp] theorem State.setBuf_pf (s : State) (b : BlockId) (l : List Byte) :
    (s.setBuf b l).pf = s.pf := by cases b <;> rfl
@[simp] theorem State.setBufByte_pf (s : State) (b : BlockId) (i : Nat) (v : Byte) :
    (s.setBufByte b i v).pf = s.pf := by cases b <;> rfl
@[simp] theorem State.setBlock_crcReg (s : State) (b : BlockId) (k : FlashBlock) :
    (s.setBlock b k).crcReg = s.crcReg := by cases b <;> rfl
@[simp] theorem State.setValid_crcReg (s : State) (b : BlockId) (v : Bool) :
    (s.setValid b v).crcReg = s.crcReg := by cases b <;> rfl
@[simp] theorem State.setBuf_crcReg (s : State) (b : BlockId) (l : List Byte) :
    (s.setBuf b l).crcReg = s.crcReg := by cases b <;> rfl
@[simp] theorem State.setBufByte_crcReg (s : State) (b : BlockId) (i : Nat) (v : Byte) :
    (s.setBufByte b i v).crcReg = s.crcReg := by cases b <;> rfl
@[simp] theorem State.setBlock_mb (s : State) (b : BlockId) (k : FlashBlock) :
    (s.setBlock b k).mb = s.mb := by cases b <;> rfl
@[simp] theorem State.setValid_mb (s : State) (b : BlockId) (v : Bool) :
    (s.setValid b v).mb = s.mb := by cases b <;> rfl
@[simp] theorem State.setBuf_mb (s : State) (b : BlockId) (l : List Byte) :
    (s.setBuf b l).mb = s.mb := by cases b <;> rfl
@[simp] theorem State.setBufByte_mb (s : State) (b : BlockId) (i : Nat) (v : Byte) :
    (s.setBufByte b i v).mb = s.mb := by cases b <;> rfl
@[simp] theorem State.setBlock_flash (s : State) (b : BlockId) (k : FlashBlock) :
    (s.setBlock b k).flash = s.flash := by cases b <;> rfl
@[simp] theorem State.setValid_flash (s : State) (b : BlockId) (v : Bool) :
    (s.setValid b v).flash = s.flash := by cases b <;> rfl
@[simp] theorem State.setBuf_flash (s : State) (b : BlockId) (l : List Byte) :
    (s.setBuf b l).flash = s.flash := by cases b <;> rfl
@[simp] theorem State.setBufByte_flash (s : State) (b : BlockId) (i : Nat) (v : Byte) :
    (s.setBufByte b i v).flash = s.flash := by cases b <;> rfl
@[simp] theorem State.setBlock_env (s : State) (b : BlockId) (k : FlashBlock) :
    (s.setBlock b k).env = s.env := by cases b <;> rfl
@[simp] theorem State.setValid_env (s : State) (b : BlockId) (v : Bool) :
    (s.setValid b v).env = s.env := by cases b <;> rfl
@[simp] theorem State.setBuf_env (s : State) (b : BlockId) (l : List Byte) :
    (s.setBuf b l).env = s.env := by cases b <;> rfl
@[simp] theorem State.setBufByte_env (s : State) (b : BlockId) (i : Nat) (v : Byte) :
    (s.setBufByte b i v).env = s.env := by cases b <;> rfl
@[simp] theorem State.setBlock_wait (s : State) (b : BlockId) (k : FlashBlock) :
    (s.setBlock b k).wait = s.wait := by cases b <;> rfl
@[simp] theorem State.setValid_wait (s : State) (b : BlockId) (v : Bool) :
    (s.setValid b v).wait = s.wait := by cases b <;> rfl
@[simp] theorem State.setBuf_wait (s : State) (b : BlockId) (l : List Byte) :
    (s.setBuf b l).wait = s.wait := by cases b <;> rfl
@[simp] theorem State.setBufByte_wait (s : State) (b : BlockId) (i : Nat) (v : Byte) :
    (s.setBufByte b i v).wait = s.wait := by cases b <;> rfl
@[simp] theorem State.setBlock_events (s : State) (b : BlockId) (k : FlashBlock) :
    (s.setBlock b k).events = s.events := by cases b <;> rfl
@[simp] theorem State.setValid_events (s : State) (b : BlockId) (v : Bool) :
    (s.setValid b v).events = s.events := by cases b <;> rfl
@[simp] theorem State.setBuf_events (s : State) (b : BlockId) (l : List Byte) :
    (s.setBuf b l).events = s.events := by cases b <;> rfl
@[simp] theorem State.setBufByte_events (s : State) (b : BlockId) (i : Nat) (v : Byte) :
    (s.setBufByte b i v).events = s.events := by cases b <;> rfl
@[simp] theorem State.setBlock_moves (s : State) (b : BlockId) (k : FlashBlock) :
    (s.setBlock b k).moves = s.moves := by cases b <;> rfl
@[simp] theorem State.setValid_moves (s : State) (b : BlockId) (v : Bool) :
    (s.setValid b v).moves = s.moves := by cases b <;> rfl
@[simp] theorem State.setBuf_moves (s : State) (b : BlockId) (l : List Byte) :
    (s.setBuf b l).moves = s.moves := by cases b <;> rfl
@[simp] theorem State.setBufByte_moves (s : State) (b : BlockId) (i : Nat) (v : Byte) :
    (s.setBufByte b i v).moves = s.moves := by cases b <;> rfl
@[simp] theorem State.setBlock_readBus (s : State) (b : BlockId) (k : FlashBlock) :
    (s.setBlock b k).readBus = s.readBus := by cases b <;> rfl
@[simp] theorem State.setValid_readBus (s : State) (b : BlockId) (v : Bool) :
    (s.setValid b v).readBus = s.readBus := by cases b <;> rfl
@[simp] theorem State.setBuf_readBus (s : State) (b : BlockId) (l : List Byte) :
    (s.setBuf b l).readBus = s.readBus := by cases b <;> rfl
@[simp] theorem State.setBufByte_readBus (s : State) (b : BlockId) (i : Nat) (v : Byte) :
    (s.setBufByte b i v).readBus = s.readBus := by cases b <;> rfl

@[simp] theorem State.block_gen (s : State) : s.block .gen = s.gen := rfl
@[simp] theorem State.block_boot (s : State) : s.block .boot = s.boot := rfl
@[simp] theorem State.setBlock_gen (s : State) (k : FlashBlock) : s.setBlock .gen k = { s with gen := k } := rfl
@[simp] theorem State.setBlock_boot (s : State) (k : FlashBlock) : s.setBlock .boot k = { s with boot := k } := rfl
@[simp] theorem State.setBlock_block (s : State) (b : BlockId) (k : FlashBlock) : (s.setBlock b k).block b = k := by
  cases b <;> rfl
@[simp] theorem State.setValid_block (s : State) (b : BlockId) (v : Bool) :
    (s.setValid b v).block b = { s.block b with valid := v } := by cases b <;> rfl
@[simp] theorem State.setBuf_block (s : State) (b : BlockId) (l : List Byte) :
    (s.setBuf b l).block b = { s.block b with buf := l } := by cases b <;> rfl
@[simp] theorem State.setBufByte_block (s : State) (b : BlockId) (i : Nat) (v : Byte) :
    (s.setBufByte b i v).block b = { s.block b with buf := (s.block b).buf.set i v } := by cases b <;> rfl
/-- Writing one FlashBlock leaves the other. -/
theorem State.setBlock_other (s : State) (b c : BlockId) (k : FlashBlock) (h : b ≠ c) :
    (s.setBlock b k).block c = s.block c := by cases b <;> cases c <;> first | rfl | exact absurd rfl h

/-! ## Events, power, flash and the environment -/

@[simp] theorem State.record_cfg (s : State) (e : Event) : (s.record e).cfg = s.cfg := rfl
@[simp] theorem State.record_host (s : State) (e : Event) : (s.record e).host = s.host := rfl
@[simp] theorem State.record_gen (s : State) (e : Event) : (s.record e).gen = s.gen := rfl
@[simp] theorem State.record_boot (s : State) (e : Event) : (s.record e).boot = s.boot := rfl
@[simp] theorem State.record_pf (s : State) (e : Event) : (s.record e).pf = s.pf := rfl
@[simp] theorem State.record_crcReg (s : State) (e : Event) : (s.record e).crcReg = s.crcReg := rfl
@[simp] theorem State.record_mb (s : State) (e : Event) : (s.record e).mb = s.mb := rfl
@[simp] theorem State.record_flash (s : State) (e : Event) : (s.record e).flash = s.flash := rfl
@[simp] theorem State.record_env (s : State) (e : Event) : (s.record e).env = s.env := rfl
@[simp] theorem State.record_wait (s : State) (e : Event) : (s.record e).wait = s.wait := rfl
@[simp] theorem State.record_events (s : State) (e : Event) : (s.record e).events = s.events ++ [e] := rfl
@[simp] theorem State.record_moves (s : State) (e : Event) : (s.record e).moves = s.moves := rfl
@[simp] theorem State.record_readBus (s : State) (e : Event) : (s.record e).readBus = s.readBus := rfl

@[simp] theorem State.withCut_cfg (s : State) (n : Nat) : (s.withCut n).cfg = s.cfg := rfl
@[simp] theorem State.withCut_host (s : State) (n : Nat) : (s.withCut n).host = s.host := rfl
@[simp] theorem State.withCut_gen (s : State) (n : Nat) : (s.withCut n).gen = s.gen := rfl
@[simp] theorem State.withCut_boot (s : State) (n : Nat) : (s.withCut n).boot = s.boot := rfl
@[simp] theorem State.withCut_pf (s : State) (n : Nat) : (s.withCut n).pf = s.pf := rfl
@[simp] theorem State.withCut_crcReg (s : State) (n : Nat) : (s.withCut n).crcReg = s.crcReg := rfl
@[simp] theorem State.withCut_mb (s : State) (n : Nat) : (s.withCut n).mb = s.mb := rfl
@[simp] theorem State.withCut_flash (s : State) (n : Nat) : (s.withCut n).flash = s.flash := rfl
@[simp] theorem State.withCut_env (s : State) (n : Nat) : (s.withCut n).env = { s.env with powerCut := some n } := rfl
@[simp] theorem State.withCut_wait (s : State) (n : Nat) : (s.withCut n).wait = s.wait := rfl
@[simp] theorem State.withCut_events (s : State) (n : Nat) : (s.withCut n).events = s.events := rfl
@[simp] theorem State.withCut_moves (s : State) (n : Nat) : (s.withCut n).moves = s.moves := rfl
@[simp] theorem State.withCut_readBus (s : State) (n : Nat) : (s.withCut n).readBus = s.readBus := rfl

@[simp] theorem State.setFlash_cfg (s : State) (a : Nat) (l : List Byte) : (s.setFlash a l).cfg = s.cfg := rfl
@[simp] theorem State.setFlash_host (s : State) (a : Nat) (l : List Byte) : (s.setFlash a l).host = s.host := rfl
@[simp] theorem State.setFlash_gen (s : State) (a : Nat) (l : List Byte) : (s.setFlash a l).gen = s.gen := rfl
@[simp] theorem State.setFlash_boot (s : State) (a : Nat) (l : List Byte) : (s.setFlash a l).boot = s.boot := rfl
@[simp] theorem State.setFlash_pf (s : State) (a : Nat) (l : List Byte) : (s.setFlash a l).pf = s.pf := rfl
@[simp] theorem State.setFlash_crcReg (s : State) (a : Nat) (l : List Byte) :
    (s.setFlash a l).crcReg = s.crcReg := rfl
@[simp] theorem State.setFlash_mb (s : State) (a : Nat) (l : List Byte) : (s.setFlash a l).mb = s.mb := rfl
@[simp] theorem State.setFlash_flash (s : State) (a : Nat) (l : List Byte) :
    (s.setFlash a l).flash = s.flash.writeBytes s.cfg.erasedByte a l := rfl
@[simp] theorem State.setFlash_env (s : State) (a : Nat) (l : List Byte) : (s.setFlash a l).env = s.env := rfl
@[simp] theorem State.setFlash_wait (s : State) (a : Nat) (l : List Byte) : (s.setFlash a l).wait = s.wait := rfl
@[simp] theorem State.setFlash_events (s : State) (a : Nat) (l : List Byte) :
    (s.setFlash a l).events = s.events := rfl
@[simp] theorem State.setFlash_moves (s : State) (a : Nat) (l : List Byte) : (s.setFlash a l).moves = s.moves := rfl
@[simp] theorem State.setFlash_readBus (s : State) (a : Nat) (l : List Byte) :
    (s.setFlash a l).readBus = s.readBus := rfl

@[simp] theorem State.eraseFlash_cfg (s : State) (a n : Nat) : (s.eraseFlash a n).cfg = s.cfg := rfl
@[simp] theorem State.eraseFlash_host (s : State) (a n : Nat) : (s.eraseFlash a n).host = s.host := rfl
@[simp] theorem State.eraseFlash_gen (s : State) (a n : Nat) : (s.eraseFlash a n).gen = s.gen := rfl
@[simp] theorem State.eraseFlash_boot (s : State) (a n : Nat) : (s.eraseFlash a n).boot = s.boot := rfl
@[simp] theorem State.eraseFlash_pf (s : State) (a n : Nat) : (s.eraseFlash a n).pf = s.pf := rfl
@[simp] theorem State.eraseFlash_crcReg (s : State) (a n : Nat) : (s.eraseFlash a n).crcReg = s.crcReg := rfl
@[simp] theorem State.eraseFlash_mb (s : State) (a n : Nat) : (s.eraseFlash a n).mb = s.mb := rfl
@[simp] theorem State.eraseFlash_flash (s : State) (a n : Nat) : (s.eraseFlash a n).flash = s.flash.erase a n := rfl
@[simp] theorem State.eraseFlash_env (s : State) (a n : Nat) : (s.eraseFlash a n).env = s.env := rfl
@[simp] theorem State.eraseFlash_wait (s : State) (a n : Nat) : (s.eraseFlash a n).wait = s.wait := rfl
@[simp] theorem State.eraseFlash_events (s : State) (a n : Nat) : (s.eraseFlash a n).events = s.events := rfl
@[simp] theorem State.eraseFlash_moves (s : State) (a n : Nat) : (s.eraseFlash a n).moves = s.moves := rfl
@[simp] theorem State.eraseFlash_readBus (s : State) (a n : Nat) : (s.eraseFlash a n).readBus = s.readBus := rfl

@[simp] theorem State.answered_cfg (s : State) (p : Port) (n : Nat) : (s.answered p n).cfg = s.cfg := rfl
@[simp] theorem State.answered_host (s : State) (p : Port) (n : Nat) : (s.answered p n).host = s.host := rfl
@[simp] theorem State.answered_gen (s : State) (p : Port) (n : Nat) : (s.answered p n).gen = s.gen := rfl
@[simp] theorem State.answered_boot (s : State) (p : Port) (n : Nat) : (s.answered p n).boot = s.boot := rfl
@[simp] theorem State.answered_pf (s : State) (p : Port) (n : Nat) : (s.answered p n).pf = s.pf := rfl
@[simp] theorem State.answered_crcReg (s : State) (p : Port) (n : Nat) : (s.answered p n).crcReg = s.crcReg := rfl
@[simp] theorem State.answered_mb (s : State) (p : Port) (n : Nat) : (s.answered p n).mb = s.mb := rfl
@[simp] theorem State.answered_flash (s : State) (p : Port) (n : Nat) : (s.answered p n).flash = s.flash := rfl
@[simp] theorem State.answered_env (s : State) (p : Port) (n : Nat) : (s.answered p n).env = s.env.answered p n := rfl
@[simp] theorem State.answered_wait (s : State) (p : Port) (n : Nat) : (s.answered p n).wait = s.wait := rfl
@[simp] theorem State.answered_events (s : State) (p : Port) (n : Nat) : (s.answered p n).events = s.events := rfl
@[simp] theorem State.answered_moves (s : State) (p : Port) (n : Nat) : (s.answered p n).moves = s.moves := rfl
@[simp] theorem State.answered_readBus (s : State) (p : Port) (n : Nat) : (s.answered p n).readBus = s.readBus := rfl

@[simp] theorem applySample_cfg (w : WaitSample) (l : List WaitSample) (s : State) :
    (applySample w l s).cfg = s.cfg := rfl
@[simp] theorem applySample_host (w : WaitSample) (l : List WaitSample) (s : State) :
    (applySample w l s).host = s.host := rfl
@[simp] theorem applySample_gen (w : WaitSample) (l : List WaitSample) (s : State) :
    (applySample w l s).gen = s.gen := rfl
@[simp] theorem applySample_boot (w : WaitSample) (l : List WaitSample) (s : State) :
    (applySample w l s).boot = s.boot := rfl
@[simp] theorem applySample_pf (w : WaitSample) (l : List WaitSample) (s : State) :
    (applySample w l s).pf = s.pf := rfl
@[simp] theorem applySample_crcReg (w : WaitSample) (l : List WaitSample) (s : State) :
    (applySample w l s).crcReg = s.crcReg := rfl
@[simp] theorem applySample_mb (w : WaitSample) (l : List WaitSample) (s : State) :
    (applySample w l s).mb = s.mb := rfl
@[simp] theorem applySample_flash (w : WaitSample) (l : List WaitSample) (s : State) :
    (applySample w l s).flash = s.flash := rfl
@[simp] theorem applySample_env (w : WaitSample) (l : List WaitSample) (s : State) :
    (applySample w l s).env = { s.env with rxMb := s.env.rxMb ++ w.arrivals, nowTick := w.tick, waitSamples := l } := rfl
@[simp] theorem applySample_wait (w : WaitSample) (l : List WaitSample) (s : State) :
    (applySample w l s).wait = s.wait := rfl
@[simp] theorem applySample_events (w : WaitSample) (l : List WaitSample) (s : State) :
    (applySample w l s).events = s.events := rfl
@[simp] theorem applySample_moves (w : WaitSample) (l : List WaitSample) (s : State) :
    (applySample w l s).moves = s.moves := rfl
@[simp] theorem applySample_readBus (w : WaitSample) (l : List WaitSample) (s : State) :
    (applySample w l s).readBus = s.readBus := rfl

@[simp] theorem powerOff_cfg (s : State) : (powerOff s).cfg = s.cfg := rfl
@[simp] theorem powerOff_host (s : State) : (powerOff s).host = HostRegs.reset s.cfg := rfl
@[simp] theorem powerOff_gen (s : State) : (powerOff s).gen = FlashBlock.reset s.cfg := rfl
@[simp] theorem powerOff_boot (s : State) : (powerOff s).boot = FlashBlock.reset s.cfg := rfl
@[simp] theorem powerOff_pf (s : State) : (powerOff s).pf = PfUnit.reset s.cfg := rfl
@[simp] theorem powerOff_crcReg (s : State) : (powerOff s).crcReg = 0xFFFF := rfl
@[simp] theorem powerOff_mb (s : State) : (powerOff s).mb = MbUnit.reset s.cfg := rfl
@[simp] theorem powerOff_flash (s : State) : (powerOff s).flash = s.flash := rfl
@[simp] theorem powerOff_env (s : State) : (powerOff s).env = { s.env with powerCut := none } := rfl
@[simp] theorem powerOff_wait (s : State) : (powerOff s).wait = .reset := rfl
@[simp] theorem powerOff_events (s : State) : (powerOff s).events = s.events ++ [.powerLoss] := rfl
@[simp] theorem powerOff_moves (s : State) : (powerOff s).moves = s.moves := rfl
@[simp] theorem powerOff_readBus (s : State) : (powerOff s).readBus = s.readBus := rfl

@[simp] theorem setMbCount_cfg (n : Nat) (s : State) : (setMbCount n s).cfg = s.cfg := rfl
@[simp] theorem setMbCount_host (n : Nat) (s : State) : (setMbCount n s).host = s.host := rfl
@[simp] theorem setMbCount_gen (n : Nat) (s : State) : (setMbCount n s).gen = s.gen := rfl
@[simp] theorem setMbCount_boot (n : Nat) (s : State) : (setMbCount n s).boot = s.boot := rfl
@[simp] theorem setMbCount_pf (n : Nat) (s : State) : (setMbCount n s).pf = s.pf := rfl
@[simp] theorem setMbCount_crcReg (n : Nat) (s : State) : (setMbCount n s).crcReg = s.crcReg := rfl
@[simp] theorem setMbCount_mb (n : Nat) (s : State) : (setMbCount n s).mb = { s.mb with count := n } := rfl
@[simp] theorem setMbCount_flash (n : Nat) (s : State) : (setMbCount n s).flash = s.flash := rfl
@[simp] theorem setMbCount_env (n : Nat) (s : State) : (setMbCount n s).env = s.env := rfl
@[simp] theorem setMbCount_wait (n : Nat) (s : State) : (setMbCount n s).wait = s.wait := rfl
@[simp] theorem setMbCount_events (n : Nat) (s : State) : (setMbCount n s).events = s.events := rfl
@[simp] theorem setMbCount_moves (n : Nat) (s : State) : (setMbCount n s).moves = s.moves := rfl
@[simp] theorem setMbCount_readBus (n : Nat) (s : State) : (setMbCount n s).readBus = s.readBus := rfl

/-- The counters, the receive queues, the samples, the default answer and a coming power cut are not the ports' to change. -/
theorem Env.answered_frame (e : Env) (p : Port) (n : Nat) :
    (e.answered p n).nowMs = e.nowMs ∧ (e.answered p n).nowTick = e.nowTick ∧ (e.answered p n).rxPf = e.rxPf ∧
      (e.answered p n).rxMb = e.rxMb ∧ (e.answered p n).waitSamples = e.waitSamples ∧
      (e.answered p n).defaultAnswer = e.defaultAnswer ∧ (e.answered p n).powerCut = e.powerCut := by
  cases p <;> exact ⟨rfl, rfl, rfl, rfl, rfl, rfl, rfl⟩

@[simp] theorem Env.answered_powerCut (e : Env) (p : Port) (n : Nat) : (e.answered p n).powerCut = e.powerCut := by
  cases p <;> rfl

@[simp] theorem Env.answersOf_setAnswers (e : Env) (p : Port) (l : List Answer) :
    (e.setAnswers p l).answersOf p = l := by cases p <;> rfl

/-- A call of one port leaves the answers of the others. -/
theorem Env.answersOf_answered_other (e : Env) (p q : Port) (n : Nat) (h : p ≠ q) :
    (e.answered p n).answersOf q = e.answersOf q := by
  cases p <;> cases q <;> first | rfl | exact absurd rfl h

/-- A call of a port takes its first listed answer, if it has one. -/
theorem Env.answersOf_answered (e : Env) (p : Port) (n : Nat) :
    (e.answered p n).answersOf p = (e.answersOf p).tail := by cases p <;> rfl

/-! ## Writers of the upstream agent -/

@[simp] theorem writeArgAddr_cfg (v : Word) (s : State) : (writeArgAddr v s).cfg = s.cfg := rfl
@[simp] theorem writeArgAddr_gen (v : Word) (s : State) : (writeArgAddr v s).gen = s.gen := rfl
@[simp] theorem writeArgAddr_boot (v : Word) (s : State) : (writeArgAddr v s).boot = s.boot := rfl
@[simp] theorem writeArgAddr_pf (v : Word) (s : State) : (writeArgAddr v s).pf = s.pf := rfl
@[simp] theorem writeArgAddr_crcReg (v : Word) (s : State) : (writeArgAddr v s).crcReg = s.crcReg := rfl
@[simp] theorem writeArgAddr_mb (v : Word) (s : State) : (writeArgAddr v s).mb = s.mb := rfl
@[simp] theorem writeArgAddr_flash (v : Word) (s : State) : (writeArgAddr v s).flash = s.flash := rfl
@[simp] theorem writeArgAddr_env (v : Word) (s : State) : (writeArgAddr v s).env = s.env := rfl
@[simp] theorem writeArgAddr_wait (v : Word) (s : State) : (writeArgAddr v s).wait = s.wait := rfl
@[simp] theorem writeArgAddr_events (v : Word) (s : State) : (writeArgAddr v s).events = s.events := rfl
@[simp] theorem writeArgAddr_moves (v : Word) (s : State) : (writeArgAddr v s).moves = s.moves := rfl
@[simp] theorem writeArgAddr_readBus (v : Word) (s : State) : (writeArgAddr v s).readBus = s.readBus := rfl
@[simp] theorem writeArgAddr_host_cmd (v : Word) (s : State) : (writeArgAddr v s).host.cmd = s.host.cmd := rfl
@[simp] theorem writeArgAddr_host_argAddr (v : Word) (s : State) : (writeArgAddr v s).host.argAddr = v := rfl
@[simp] theorem writeArgAddr_host_argLen (v : Word) (s : State) :
    (writeArgAddr v s).host.argLen = s.host.argLen := rfl
@[simp] theorem writeArgAddr_host_dbuf (v : Word) (s : State) : (writeArgAddr v s).host.dbuf = s.host.dbuf := rfl
@[simp] theorem writeArgAddr_host_status (v : Word) (s : State) :
    (writeArgAddr v s).host.status = s.host.status := rfl
@[simp] theorem writeArgAddr_host_result (v : Word) (s : State) :
    (writeArgAddr v s).host.result = s.host.result := rfl
@[simp] theorem writeArgAddr_host_pktLen (v : Word) (s : State) :
    (writeArgAddr v s).host.pktLen = s.host.pktLen := rfl
@[simp] theorem writeArgAddr_host_pktData (v : Word) (s : State) :
    (writeArgAddr v s).host.pktData = s.host.pktData := rfl
@[simp] theorem writeArgAddr_host_cmdWritten (v : Word) (s : State) :
    (writeArgAddr v s).host.cmdWritten = s.host.cmdWritten := rfl
@[simp] theorem writeArgAddr_host_argAddrWritten (v : Word) (s : State) :
    (writeArgAddr v s).host.argAddrWritten = true := rfl
@[simp] theorem writeArgAddr_host_argLenWritten (v : Word) (s : State) :
    (writeArgAddr v s).host.argLenWritten = s.host.argLenWritten := rfl
@[simp] theorem writeArgAddr_host_dbufWritten (v : Word) (s : State) :
    (writeArgAddr v s).host.dbufWritten = s.host.dbufWritten := rfl
@[simp] theorem writeArgAddr_host_pktLenWritten (v : Word) (s : State) :
    (writeArgAddr v s).host.pktLenWritten = s.host.pktLenWritten := rfl
@[simp] theorem writeArgAddr_host_pktDataWritten (v : Word) (s : State) :
    (writeArgAddr v s).host.pktDataWritten = s.host.pktDataWritten := rfl

@[simp] theorem writeArgLen_cfg (v : Word) (s : State) : (writeArgLen v s).cfg = s.cfg := rfl
@[simp] theorem writeArgLen_gen (v : Word) (s : State) : (writeArgLen v s).gen = s.gen := rfl
@[simp] theorem writeArgLen_boot (v : Word) (s : State) : (writeArgLen v s).boot = s.boot := rfl
@[simp] theorem writeArgLen_pf (v : Word) (s : State) : (writeArgLen v s).pf = s.pf := rfl
@[simp] theorem writeArgLen_crcReg (v : Word) (s : State) : (writeArgLen v s).crcReg = s.crcReg := rfl
@[simp] theorem writeArgLen_mb (v : Word) (s : State) : (writeArgLen v s).mb = s.mb := rfl
@[simp] theorem writeArgLen_flash (v : Word) (s : State) : (writeArgLen v s).flash = s.flash := rfl
@[simp] theorem writeArgLen_env (v : Word) (s : State) : (writeArgLen v s).env = s.env := rfl
@[simp] theorem writeArgLen_wait (v : Word) (s : State) : (writeArgLen v s).wait = s.wait := rfl
@[simp] theorem writeArgLen_events (v : Word) (s : State) : (writeArgLen v s).events = s.events := rfl
@[simp] theorem writeArgLen_moves (v : Word) (s : State) : (writeArgLen v s).moves = s.moves := rfl
@[simp] theorem writeArgLen_readBus (v : Word) (s : State) : (writeArgLen v s).readBus = s.readBus := rfl
@[simp] theorem writeArgLen_host_cmd (v : Word) (s : State) : (writeArgLen v s).host.cmd = s.host.cmd := rfl
@[simp] theorem writeArgLen_host_argAddr (v : Word) (s : State) :
    (writeArgLen v s).host.argAddr = s.host.argAddr := rfl
@[simp] theorem writeArgLen_host_argLen (v : Word) (s : State) : (writeArgLen v s).host.argLen = v := rfl
@[simp] theorem writeArgLen_host_dbuf (v : Word) (s : State) : (writeArgLen v s).host.dbuf = s.host.dbuf := rfl
@[simp] theorem writeArgLen_host_status (v : Word) (s : State) : (writeArgLen v s).host.status = s.host.status := rfl
@[simp] theorem writeArgLen_host_result (v : Word) (s : State) : (writeArgLen v s).host.result = s.host.result := rfl
@[simp] theorem writeArgLen_host_pktLen (v : Word) (s : State) : (writeArgLen v s).host.pktLen = s.host.pktLen := rfl
@[simp] theorem writeArgLen_host_pktData (v : Word) (s : State) :
    (writeArgLen v s).host.pktData = s.host.pktData := rfl
@[simp] theorem writeArgLen_host_cmdWritten (v : Word) (s : State) :
    (writeArgLen v s).host.cmdWritten = s.host.cmdWritten := rfl
@[simp] theorem writeArgLen_host_argAddrWritten (v : Word) (s : State) :
    (writeArgLen v s).host.argAddrWritten = s.host.argAddrWritten := rfl
@[simp] theorem writeArgLen_host_argLenWritten (v : Word) (s : State) :
    (writeArgLen v s).host.argLenWritten = true := rfl
@[simp] theorem writeArgLen_host_dbufWritten (v : Word) (s : State) :
    (writeArgLen v s).host.dbufWritten = s.host.dbufWritten := rfl
@[simp] theorem writeArgLen_host_pktLenWritten (v : Word) (s : State) :
    (writeArgLen v s).host.pktLenWritten = s.host.pktLenWritten := rfl
@[simp] theorem writeArgLen_host_pktDataWritten (v : Word) (s : State) :
    (writeArgLen v s).host.pktDataWritten = s.host.pktDataWritten := rfl

@[simp] theorem writeDbuf_cfg (i : Nat) (b : Byte) (s : State) : (writeDbuf i b s).cfg = s.cfg := rfl
@[simp] theorem writeDbuf_gen (i : Nat) (b : Byte) (s : State) : (writeDbuf i b s).gen = s.gen := rfl
@[simp] theorem writeDbuf_boot (i : Nat) (b : Byte) (s : State) : (writeDbuf i b s).boot = s.boot := rfl
@[simp] theorem writeDbuf_pf (i : Nat) (b : Byte) (s : State) : (writeDbuf i b s).pf = s.pf := rfl
@[simp] theorem writeDbuf_crcReg (i : Nat) (b : Byte) (s : State) : (writeDbuf i b s).crcReg = s.crcReg := rfl
@[simp] theorem writeDbuf_mb (i : Nat) (b : Byte) (s : State) : (writeDbuf i b s).mb = s.mb := rfl
@[simp] theorem writeDbuf_flash (i : Nat) (b : Byte) (s : State) : (writeDbuf i b s).flash = s.flash := rfl
@[simp] theorem writeDbuf_env (i : Nat) (b : Byte) (s : State) : (writeDbuf i b s).env = s.env := rfl
@[simp] theorem writeDbuf_wait (i : Nat) (b : Byte) (s : State) : (writeDbuf i b s).wait = s.wait := rfl
@[simp] theorem writeDbuf_events (i : Nat) (b : Byte) (s : State) : (writeDbuf i b s).events = s.events := rfl
@[simp] theorem writeDbuf_moves (i : Nat) (b : Byte) (s : State) : (writeDbuf i b s).moves = s.moves := rfl
@[simp] theorem writeDbuf_readBus (i : Nat) (b : Byte) (s : State) : (writeDbuf i b s).readBus = s.readBus := rfl
@[simp] theorem writeDbuf_host_cmd (i : Nat) (b : Byte) (s : State) : (writeDbuf i b s).host.cmd = s.host.cmd := rfl
@[simp] theorem writeDbuf_host_argAddr (i : Nat) (b : Byte) (s : State) :
    (writeDbuf i b s).host.argAddr = s.host.argAddr := rfl
@[simp] theorem writeDbuf_host_argLen (i : Nat) (b : Byte) (s : State) :
    (writeDbuf i b s).host.argLen = s.host.argLen := rfl
@[simp] theorem writeDbuf_host_dbuf (i : Nat) (b : Byte) (s : State) :
    (writeDbuf i b s).host.dbuf = s.host.dbuf.set i b := rfl
@[simp] theorem writeDbuf_host_status (i : Nat) (b : Byte) (s : State) :
    (writeDbuf i b s).host.status = s.host.status := rfl
@[simp] theorem writeDbuf_host_result (i : Nat) (b : Byte) (s : State) :
    (writeDbuf i b s).host.result = s.host.result := rfl
@[simp] theorem writeDbuf_host_pktLen (i : Nat) (b : Byte) (s : State) :
    (writeDbuf i b s).host.pktLen = s.host.pktLen := rfl
@[simp] theorem writeDbuf_host_pktData (i : Nat) (b : Byte) (s : State) :
    (writeDbuf i b s).host.pktData = s.host.pktData := rfl
@[simp] theorem writeDbuf_host_cmdWritten (i : Nat) (b : Byte) (s : State) :
    (writeDbuf i b s).host.cmdWritten = s.host.cmdWritten := rfl
@[simp] theorem writeDbuf_host_argAddrWritten (i : Nat) (b : Byte) (s : State) :
    (writeDbuf i b s).host.argAddrWritten = s.host.argAddrWritten := rfl
@[simp] theorem writeDbuf_host_argLenWritten (i : Nat) (b : Byte) (s : State) :
    (writeDbuf i b s).host.argLenWritten = s.host.argLenWritten := rfl
@[simp] theorem writeDbuf_host_dbufWritten (i : Nat) (b : Byte) (s : State) :
    (writeDbuf i b s).host.dbufWritten = s.host.dbufWritten.set i true := rfl
@[simp] theorem writeDbuf_host_pktLenWritten (i : Nat) (b : Byte) (s : State) :
    (writeDbuf i b s).host.pktLenWritten = s.host.pktLenWritten := rfl
@[simp] theorem writeDbuf_host_pktDataWritten (i : Nat) (b : Byte) (s : State) :
    (writeDbuf i b s).host.pktDataWritten = s.host.pktDataWritten := rfl

@[simp] theorem writeCmd_cfg (w : Half) (s : State) : (writeCmd w s).cfg = s.cfg := rfl
@[simp] theorem writeCmd_gen (w : Half) (s : State) : (writeCmd w s).gen = s.gen := rfl
@[simp] theorem writeCmd_boot (w : Half) (s : State) : (writeCmd w s).boot = s.boot := rfl
@[simp] theorem writeCmd_pf (w : Half) (s : State) : (writeCmd w s).pf = s.pf := rfl
@[simp] theorem writeCmd_crcReg (w : Half) (s : State) : (writeCmd w s).crcReg = s.crcReg := rfl
@[simp] theorem writeCmd_mb (w : Half) (s : State) : (writeCmd w s).mb = s.mb := rfl
@[simp] theorem writeCmd_flash (w : Half) (s : State) : (writeCmd w s).flash = s.flash := rfl
@[simp] theorem writeCmd_env (w : Half) (s : State) : (writeCmd w s).env = s.env := rfl
@[simp] theorem writeCmd_wait (w : Half) (s : State) : (writeCmd w s).wait = s.wait := rfl
@[simp] theorem writeCmd_events (w : Half) (s : State) : (writeCmd w s).events = s.events := rfl
@[simp] theorem writeCmd_moves (w : Half) (s : State) : (writeCmd w s).moves = s.moves := rfl
@[simp] theorem writeCmd_readBus (w : Half) (s : State) : (writeCmd w s).readBus = s.readBus := rfl
@[simp] theorem writeCmd_host_cmd (w : Half) (s : State) : (writeCmd w s).host.cmd = w := rfl
@[simp] theorem writeCmd_host_argAddr (w : Half) (s : State) : (writeCmd w s).host.argAddr = s.host.argAddr := rfl
@[simp] theorem writeCmd_host_argLen (w : Half) (s : State) : (writeCmd w s).host.argLen = s.host.argLen := rfl
@[simp] theorem writeCmd_host_dbuf (w : Half) (s : State) : (writeCmd w s).host.dbuf = s.host.dbuf := rfl
@[simp] theorem writeCmd_host_status (w : Half) (s : State) : (writeCmd w s).host.status = s.host.status := rfl
@[simp] theorem writeCmd_host_result (w : Half) (s : State) : (writeCmd w s).host.result = s.host.result := rfl
@[simp] theorem writeCmd_host_pktLen (w : Half) (s : State) : (writeCmd w s).host.pktLen = s.host.pktLen := rfl
@[simp] theorem writeCmd_host_pktData (w : Half) (s : State) : (writeCmd w s).host.pktData = s.host.pktData := rfl
@[simp] theorem writeCmd_host_cmdWritten (w : Half) (s : State) : (writeCmd w s).host.cmdWritten = true := rfl
@[simp] theorem writeCmd_host_argAddrWritten (w : Half) (s : State) :
    (writeCmd w s).host.argAddrWritten = s.host.argAddrWritten := rfl
@[simp] theorem writeCmd_host_argLenWritten (w : Half) (s : State) :
    (writeCmd w s).host.argLenWritten = s.host.argLenWritten := rfl
@[simp] theorem writeCmd_host_dbufWritten (w : Half) (s : State) :
    (writeCmd w s).host.dbufWritten = s.host.dbufWritten := rfl
@[simp] theorem writeCmd_host_pktLenWritten (w : Half) (s : State) :
    (writeCmd w s).host.pktLenWritten = s.host.pktLenWritten := rfl
@[simp] theorem writeCmd_host_pktDataWritten (w : Half) (s : State) :
    (writeCmd w s).host.pktDataWritten = s.host.pktDataWritten := rfl

end Sys2Proof.Machine
end

