-- ==== Sys2Proof/Laws/Power.lean ====
section
/-! SUPPORT. How parts of a command are put together, and what one port call can do: it is recorded and goes on, or power
is lost before it. -/

namespace Sys2Proof.Machine

open Sys2Proof

/-! ## Parts of a command -/

@[simp] theorem Res.bind_ok {α β : Type} (a : α) (s : State) (f : α → State → Res β) : (Res.ok a s).bind f = f a s := rfl
@[simp] theorem Res.bind_ended {α β : Type} (s : State) (f : α → State → Res β) : (Res.ended s).bind f = .ended s := rfl
@[simp] theorem Res.bind_fault {α β : Type} (e : Fault) (f : α → State → Res β) : (Res.fault e).bind f = .fault e := rfl
@[simp] theorem Res.finish_ok (s : State) : (Res.ok () s).finish = .next (s.setStatus .ok) := rfl
@[simp] theorem Res.finish_ended (s : State) : (Res.ended s).finish = .next s := rfl
@[simp] theorem Res.finish_fault (e : Fault) : (Res.fault e).finish = .fault e := rfl
@[simp] theorem raise_eq {α : Type} (c : StatusCode) (s : State) : (raise c s : Res α) = .ended (s.setStatus c) := rfl

theorem Res.bind_assoc {α β γ : Type} (r : Res α) (f : α → State → Res β) (g : β → State → Res γ) :
    (r.bind f).bind g = r.bind fun a s => (f a s).bind g := by cases r <;> rfl

/-- A command goes on past a part only where the part answered a value. -/
theorem Res.bind_eq_ok {α β : Type} {r : Res α} {f : α → State → Res β} {b : β} {t : State} :
    r.bind f = .ok b t ↔ ∃ a s, r = .ok a s ∧ f a s = .ok b t := by cases r <;> simp

/-- A command ends in a part or after it. -/
theorem Res.bind_eq_ended {α β : Type} {r : Res α} {f : α → State → Res β} {t : State} :
    r.bind f = .ended t ↔ r = .ended t ∨ ∃ a s, r = .ok a s ∧ f a s = .ended t := by cases r <;> simp

/-- A command faults in a part or after it. -/
theorem Res.bind_eq_fault {α β : Type} {r : Res α} {f : α → State → Res β} {e : Fault} :
    r.bind f = .fault e ↔ r = .fault e ∨ ∃ a s, r = .ok a s ∧ f a s = .fault e := by cases r <;> simp

/-- A command answers a next state: its last part did, or it ended with a status of its own. -/
theorem Res.finish_eq_next {r : Res Unit} {t : State} :
    r.finish = .next t ↔ (∃ s, r = .ok () s ∧ t = s.setStatus .ok) ∨ r = .ended t := by
  cases r <;> simp [Res.finish, eq_comm]

/-! ## One port call -/

/-- A call while power stays on is recorded and changes nothing else. -/
theorem call_on {e : Event} {s : State} (h : s.env.powerCut = none) : call e s = .ok () (s.record e) := by
  simp [call, beforeCall, h]

/-- A call before which power is lost is not made. -/
theorem call_cut {e : Event} {s : State} (h : s.env.powerCut = some 0) : call e s = .ended (powerOff s) := by
  simp [call, beforeCall, h]

/-- A call with `n` further ones to come before the cut. -/
theorem call_counts {e : Event} {s : State} {n : Nat} (h : s.env.powerCut = some (n + 1)) :
    call e s = .ok () ((s.withCut n).record e) := by
  simp [call, beforeCall, h, State.withCut]

/-- Everything a call can do: it is recorded, and only the coming cut changes beside; or power is lost. -/
theorem call_spec (e : Event) (s : State) :
    (∃ c, call e s = .ok () { s with env := { s.env with powerCut := c }, events := s.events ++ [e] }) ∨
      (s.env.powerCut = some 0 ∧ call e s = .ended (powerOff s)) := by
  rcases h : s.env.powerCut with _ | _ | n
  · exact .inl ⟨none, by rw [call_on h, State.record, ← h]⟩
  · exact .inr ⟨rfl, call_cut h⟩
  · exact .inl ⟨some n, by rw [call_counts h]; rfl⟩

/-- A call that goes on changed the coming cut and the record of events alone. -/
theorem call_ok {e : Event} {s t : State} {r : Unit} (h : call e s = .ok r t) :
    ∃ c, t = { s with env := { s.env with powerCut := c }, events := s.events ++ [e] } := by
  rcases call_spec e s with ⟨c, hc⟩ | ⟨-, hc⟩ <;> rw [hc] at h
  · exact ⟨c, (by cases h; rfl)⟩
  · cases h

/-- A call ends a command only by power loss. -/
theorem call_ended {e : Event} {s t : State} (h : call e s = .ended t) : s.env.powerCut = some 0 ∧ t = powerOff s := by
  rcases call_spec e s with ⟨c, hc⟩ | ⟨h0, hc⟩ <;> rw [hc] at h <;> cases h
  exact ⟨h0, rfl⟩

/-- No call faults. -/
theorem call_ne_fault (e : Event) (s : State) (f : Fault) : call e s ≠ .fault f := by
  rcases call_spec e s with ⟨c, hc⟩ | ⟨-, hc⟩ <;> simp [hc]

/-! ## Tick sources, watchdog, direction hook and receive calls, while power stays on -/

theorem readMs_on {s : State} (h : s.env.powerCut = none) :
    readMs s = .ok s.env.nowMs (s.record (.nowMs s.env.nowMs)) := by simp [readMs, call_on h]

theorem readTick_on {s : State} (h : s.env.powerCut = none) :
    readTick s = .ok s.env.nowTick (s.record (.nowTick s.env.nowTick)) := by simp [readTick, call_on h]

theorem kick_on {s : State} (h : s.env.powerCut = none) : kick s = .ok () (s.record .kick) := call_on h

theorem driveEnable_on {s : State} {on : Bool} (h : s.env.powerCut = none) :
    driveEnable on s = .ok () { s with mb := { s.mb with de := on }, events := s.events ++ [.driverEnable on] } := by
  simp [driveEnable, call_on h, State.record]

/-- A receive call on the PF line takes the first waiting byte, if there is one (spec/20_memory.md R48). -/
theorem rxBytePf_on {s : State} (h : s.env.powerCut = none) :
    rxBytePf s = .ok s.env.rxPf.head? { s with
      env := { s.env with rxPf := s.env.rxPf.tail }, events := s.events ++ [.rxPf s.env.rxPf.head?] } := by
  simp [rxBytePf, call_on h, State.record]

/-- A receive call on the MB line takes the first waiting byte, if there is one (R48). -/
theorem rxByteMb_on {s : State} (h : s.env.powerCut = none) :
    rxByteMb s = .ok s.env.rxMb.head? { s with
      env := { s.env with rxMb := s.env.rxMb.tail }, events := s.events ++ [.rxMb s.env.rxMb.head?] } := by
  simp [rxByteMb, call_on h, State.record]

end Sys2Proof.Machine
end

