-- ==== Sys2Proof/Laws/Ports.lean ====
section
/-! SUPPORT. For each operand read and each call of an answered port, once, everything it can do. -/

namespace Sys2Proof.Machine

open Sys2Proof

/-! ## Operands -/

theorem readArgAddr_written {s : State} (h : s.host.argAddrWritten = true) :
    readArgAddr s = .ok s.host.argAddr.toNat s := by simp [readArgAddr, h]

theorem readArgLen_written {s : State} (h : s.host.argLenWritten = true) :
    readArgLen s = .ok s.host.argLen.toNat s := by simp [readArgLen, h]

/-- Which bytes of DBUF an operand read takes (spec/10_state.md R36). -/
theorem dataWritten_iff {h : HostRegs} {n : Nat} :
    dataWritten h n = true ↔ ∀ i, i < n → h.dbufWritten[i]? = some true := by
  simp only [dataWritten, Bool.and_eq_true, decide_eq_true_eq, List.all_eq_true]
  constructor
  · rintro ⟨hn, hall⟩ i hi
    have hlen : i < h.dbufWritten.length := by omega
    rw [List.getElem?_eq_getElem hlen, hall _ (List.mem_take_iff_getElem.2 ⟨i, by omega, rfl⟩)]
  · intro hall
    refine ⟨?_, fun w hw => ?_⟩
    · by_contra hn
      have := hall h.dbufWritten.length (by omega)
      simp at this
    · obtain ⟨i, hi, rfl⟩ := List.mem_take_iff_getElem.1 hw
      have := hall i (by omega)
      rw [List.getElem?_eq_getElem (by omega)] at this
      exact Option.some.inj this

/-- An operand read of DBUF answers its bytes and changes nothing, or faults. -/
theorem readData_spec (n : Nat) (s : State) :
    ((∀ i, i < n → s.host.dbufWritten[i]? = some true) ∧ readData n s = .ok (s.host.dbuf.take n) s) ∨
      ((∃ i, i < n ∧ s.host.dbufWritten[i]? ≠ some true) ∧ readData n s = .fault .unwrittenOperand) := by
  by_cases h : dataWritten s.host n = true
  · exact .inl ⟨dataWritten_iff.1 h, by simp [readData, h]⟩
  · refine .inr ⟨?_, by simp [readData, h]⟩
    simpa [dataWritten_iff] using h

/-- The operands of PF_TRANSMIT and MB_TRANSMIT, where they are readable and in range. -/
theorem readPacket_ok {s : State} {n : Nat} (h : s.hasPacket n) (h1 : 1 ≤ n) (h2 : n ≤ s.cfg.maxData) :
    readPacket s = .ok (s.host.dbuf.take n) s := by
  obtain ⟨hw, rfl, hd⟩ := h
  have hn : packetLenOk s.cfg s.host.argLen.toNat = true := by
    have := s.cfg.lengths.2.2.1
    simp only [packetLenOk, dataLenOk, Bool.and_eq_true, decide_eq_true_eq]; omega
  simp [readPacket, readArgLen_written hw, hn, readData, dataWritten_iff.2 hd]

/-! ## Draws -/

@[simp] theorem openBytes_length (k n : Nat) (l : List Byte) : (openBytes k n l).length = n := by
  induction n generalizing k l with
  | zero => rfl
  | succ n ih => cases l <;> simp [openBytes, ih]

@[simp] theorem Env.bytesOf_length (e : Env) (p : Port) (n : Nat) : (e.bytesOf p n).length = n := by
  unfold Env.bytesOf; split <;> simp

/-- Where no listed answer cuts the power, no call meets a power loss (log 12). -/
theorem Env.verdictOf_ne_powerLoss {e : Env} (h : e.noPowerLoss = true) (p : Port) : e.verdictOf p ≠ .powerLoss := by
  unfold Env.verdictOf
  split
  · rename_i a l ha
    simp only [Env.noPowerLoss, Bool.and_eq_true, List.all_eq_true, decide_eq_true_eq, List.mem_append] at h
    refine h.2 a ?_
    cases p <;> simp only [Env.answersOf] at ha <;> simp [ha]
  · split <;> [skip; skip] <;> split_ifs <;> simp

theorem Env.noPowerLoss_answered {e : Env} (h : e.noPowerLoss = true) (p : Port) (n : Nat) :
    (e.answered p n).noPowerLoss = true := by
  simp only [Env.noPowerLoss, Bool.and_eq_true, List.all_eq_true, decide_eq_true_eq, List.mem_append] at h ⊢
  refine ⟨by simpa using h.1, fun a ha => h.2 a ?_⟩
  cases p <;> simp only [Env.answered, Env.setAnswers, Env.answersOf] at ha <;>
    (have hm : ∀ l : List Answer, a ∈ l.tail → a ∈ l := fun l => List.mem_of_mem_tail) <;> tauto

/-- Power that stays on has no coming cut. -/
theorem Env.noPowerLoss_cut {e : Env} (h : e.noPowerLoss = true) : e.powerCut = none := by
  simp only [Env.noPowerLoss, Bool.and_eq_true, decide_eq_true_eq] at h
  exact h.1

/-! ## Flash ports, while no cut comes -/

/-- A covered FlashRead answers the bytes of flash and changes nothing (spec/20_memory.md R43). -/
theorem flashRead_on {a n : Nat} {s : State} (hp : s.env.powerCut = none) (h : rangeCovered s.cfg a n = true) :
    flashRead a n s = .ok (s.flashBytes a n) (s.record (.flashRead a n)) := by
  simp [flashRead, h, call_on hp]
  rfl

/-- An answered call: it is recorded with its verdict, and the environment moves on to its next answer. -/
theorem answeredCall_on {p : Port} {n : Nat} {e : Verdict → Event} {s : State} (hp : s.env.powerCut = none) :
    answeredCall p n e s = .ok (s.env.verdictOf p) ((s.record (e (s.env.verdictOf p))).answered p n) := by
  simp [answeredCall, call_on hp]

/-- Everything a covered ProgramBlock can do (R44, R46). -/
theorem programBlock_on {a : Nat} {data : List Byte} {s : State} (hp : s.env.powerCut = none)
    (h : rangeCovered s.cfg a data.length = true) :
    let s1 := (s.record (.programBlock a data (s.env.verdictOf .program))).answered .program data.length
    (s.env.verdictOf .program = .ok ∧ programBlock a data s = .ok true (s1.setFlash a data)) ∨
      ∃ junk : List Byte, junk.length = data.length ∧
        ((s.env.verdictOf .program = .fail ∧ programBlock a data s = .ok false (s1.setFlash a junk)) ∨
          (s.env.verdictOf .program = .powerLoss ∧
            programBlock a data s = .ended (powerOff (s1.setFlash a junk)))) := by
  simp only [programBlock, h, if_true, answeredCall_on hp, Res.bind_ok]
  cases hv : s.env.verdictOf .program
  · exact .inl ⟨rfl, rfl⟩
  · exact .inr ⟨s.env.bytesOf .program data.length, by simp, .inl ⟨rfl, rfl⟩⟩
  · exact .inr ⟨s.env.bytesOf .program data.length, by simp, .inr ⟨rfl, rfl⟩⟩

/-- Everything EraseSector can do (R45, R46). -/
theorem eraseSector_on {e : Sector} {s : State} (hp : s.env.powerCut = none) :
    let s1 := (s.record (.eraseSector e.sectorId e.bankId (s.env.verdictOf .erase))).answered .erase e.size
    (s.env.verdictOf .erase = .ok ∧ eraseSector e s = .ok true (s1.eraseFlash e.start e.size)) ∨
      ∃ junk : List Byte, junk.length = e.size ∧
        ((s.env.verdictOf .erase = .fail ∧ eraseSector e s = .ok false (s1.setFlash e.start junk)) ∨
          (s.env.verdictOf .erase = .powerLoss ∧ eraseSector e s = .ended (powerOff (s1.setFlash e.start junk)))) := by
  simp only [eraseSector, answeredCall_on hp, Res.bind_ok]
  cases hv : s.env.verdictOf .erase
  · exact .inl ⟨rfl, rfl⟩
  · exact .inr ⟨s.env.bytesOf .erase e.size, by simp, .inl ⟨rfl, rfl⟩⟩
  · exact .inr ⟨s.env.bytesOf .erase e.size, by simp, .inr ⟨rfl, rfl⟩⟩

/-- Everything Decrypt can do (R47): whatever the verdict, the buffer holds WBS bytes of the environment's. -/
theorem decrypt_on (b : BlockId) {s : State} (hp : s.env.powerCut = none) :
    let s1 := ((s.record (.decrypt s.cfg.wbs (s.env.verdictOf .decrypt))).answered .decrypt s.cfg.wbs).setBuf b
      (s.env.bytesOf .decrypt s.cfg.wbs)
    decrypt b s = verdictResult (s.env.verdictOf .decrypt) s1 := by
  simp only [decrypt, answeredCall_on hp, Res.bind_ok]

/-! ## Transmit ports, while no cut comes -/

theorem txBytePf_on {b : Byte} {s : State} (hp : s.env.powerCut = none) :
    txBytePf b s = verdictResult (s.env.verdictOf .txPf)
      ((s.record (.txPf b (s.env.verdictOf .txPf))).answered .txPf 0) := by
  simp only [txBytePf, answeredCall_on hp, Res.bind_ok]

theorem txByteMb_on {b : Byte} {s : State} (hp : s.env.powerCut = none) :
    txByteMb b s = verdictResult (s.env.verdictOf .txMb)
      ((s.record (.txMb b (s.env.verdictOf .txMb))).answered .txMb 0) := by
  simp only [txByteMb, answeredCall_on hp, Res.bind_ok]

theorem txByteMbLast_on {b : Byte} {s : State} (hp : s.env.powerCut = none) :
    txByteMbLast b s = verdictResult (s.env.verdictOf .txMb)
      ((s.record (.txMbLast b (s.env.verdictOf .txMb))).answered .txMb 0) := by
  simp only [txByteMbLast, answeredCall_on hp, Res.bind_ok]

/-! ## Calls that go on, whatever the power does -/

/-- An answered call that goes on changed the environment and the record of events alone. -/
theorem answeredCall_ok {p : Port} {n : Nat} {e : Verdict → Event} {s t : State} {v : Verdict}
    (h : answeredCall p n e s = .ok v t) :
    v = s.env.verdictOf p ∧ ∃ env, t = { s with env := env, events := s.events ++ [e v] } := by
  obtain ⟨_, u, hu, h⟩ := Res.bind_eq_ok.1 h
  obtain ⟨c, rfl⟩ := call_ok hu
  have hv : ∀ q, { s.env with powerCut := c }.verdictOf q = s.env.verdictOf q := fun q => by cases q <;> rfl
  cases h
  exact ⟨hv p, { s.env with powerCut := c }.answered p n, by rw [hv p]; rfl⟩

/-- A verdict that goes on leaves the state as it is. -/
theorem verdictResult_ok {v : Verdict} {s t : State} {r : Bool} (h : verdictResult v s = .ok r t) :
    t = s ∧ (r = true ↔ v = .ok) := by
  cases v <;> cases h <;> simp

end Sys2Proof.Machine
end

