-- ==== Sys2Proof/Laws/Nvm.lean ====
section
/-! SUPPORT. What the block operations of spec/40_nvm_block.md R74 to R77 do, and that a part of an NVM command which goes
on has written the FlashBlocks, flash, the environment and the record of events alone. -/

namespace Sys2Proof.Machine

open Sys2Proof

/-! ## Opening and flushing -/

/-- R74: a block that is open at `base` is left as it is. -/
theorem openBlock_same {b : BlockId} {base : Nat} {s : State} (hv : (s.block b).valid = true)
    (hb : (s.block b).base.toNat = base) : openBlock b base s = .ok () s := by simp [openBlock, hv, hb]

/-- R74: any other block is filled from flash, with one FlashRead. -/
theorem openBlock_read {b : BlockId} {base : Nat} {s : State} (hp : s.env.powerCut = none)
    (h : (s.block b).valid = false ∨ (s.block b).base.toNat ≠ base) (hc : rangeCovered s.cfg base s.cfg.wbs = true) :
    openBlock b base s = .ok () ((s.record (.flashRead base s.cfg.wbs)).setBlock b
      { valid := true, base := BitVec.ofNat 32 base, buf := s.flashBytes base s.cfg.wbs }) := by
  have hn : ((s.block b).valid && decide ((s.block b).base.toNat = base)) = false := by
    rcases h with h | h <;> simp [h]
  simp [openBlock, hn, flashRead_on hp hc]

/-- R75: without the crypto hook a flush is one ProgramBlock of the buffer. -/
theorem flushBlock_plain {b : BlockId} {s : State} (h : s.cfg.cryptoEnabled = false) :
    flushBlock b s = programBlock (s.block b).base.toNat (s.block b).buf s := by simp [flushBlock, h]

/-- R75: with the crypto hook Decrypt comes first, and a flush whose Decrypt fails programs nothing. -/
theorem flushBlock_crypto {b : BlockId} {s : State} (h : s.cfg.cryptoEnabled = true) :
    flushBlock b s = (decrypt b s).bind fun ok s =>
      if ok then programBlock (s.block b).base.toNat (s.block b).buf s else .ok false s := by simp [flushBlock, h]

/-! ## What a part of an NVM command may write -/

/-- `t` differs from `s` in the FlashBlocks, flash, the environment and the record of events alone. -/
abbrev NvmFrame (s t : State) : Prop :=
  t = { s with gen := t.gen, boot := t.boot, flash := t.flash, env := t.env, events := t.events }

theorem NvmFrame.refl (s : State) : NvmFrame s s := rfl

theorem NvmFrame.trans {s t u : State} (h1 : NvmFrame s t) (h2 : NvmFrame t u) : NvmFrame s u := by
  rw [NvmFrame, h2, h1]

/-- The frame, field by field. -/
theorem NvmFrame.fields {s t : State} (h : NvmFrame s t) :
    t.cfg = s.cfg ∧ t.host = s.host ∧ t.pf = s.pf ∧ t.crcReg = s.crcReg ∧ t.mb = s.mb ∧ t.wait = s.wait ∧
      t.moves = s.moves ∧ t.readBus = s.readBus := by
  rw [h]; exact ⟨rfl, rfl, rfl, rfl, rfl, rfl, rfl, rfl⟩

theorem NvmFrame.setBlock (s : State) (b : BlockId) (f : FlashBlock) : NvmFrame s (s.setBlock b f) := by
  cases b <;> rfl

theorem flashRead_frame {a n : Nat} {s t : State} {l : List Byte} (h : flashRead a n s = .ok l t) : NvmFrame s t := by
  unfold flashRead at h
  split_ifs at h
  obtain ⟨_, u, hu, h⟩ := Res.bind_eq_ok.1 h
  obtain ⟨c, rfl⟩ := call_ok hu
  cases h
  rfl

theorem programBlock_frame {a : Nat} {l : List Byte} {s t : State} {r : Bool} (h : programBlock a l s = .ok r t) :
    NvmFrame s t := by
  unfold programBlock at h
  split_ifs at h
  obtain ⟨v, u, hu, h⟩ := Res.bind_eq_ok.1 h
  obtain ⟨-, env, rfl⟩ := answeredCall_ok hu
  rw [(verdictResult_ok h).1]
  rfl

theorem decrypt_frame {b : BlockId} {s t : State} {r : Bool} (h : decrypt b s = .ok r t) : NvmFrame s t := by
  obtain ⟨v, u, hu, h⟩ := Res.bind_eq_ok.1 h
  obtain ⟨-, env, rfl⟩ := answeredCall_ok hu
  rw [(verdictResult_ok h).1]
  cases b <;> rfl

theorem eraseSector_frame {e : Sector} {s t : State} {r : Bool} (h : eraseSector e s = .ok r t) : NvmFrame s t := by
  obtain ⟨v, u, hu, h⟩ := Res.bind_eq_ok.1 h
  obtain ⟨-, env, rfl⟩ := answeredCall_ok hu
  rw [(verdictResult_ok h).1]
  split_ifs <;> rfl

theorem openBlock_frame {b : BlockId} {base : Nat} {s t : State} {r : Unit} (h : openBlock b base s = .ok r t) :
    NvmFrame s t := by
  unfold openBlock at h
  split_ifs at h
  · cases h; rfl
  · obtain ⟨l, u, hu, h⟩ := Res.bind_eq_ok.1 h
    cases h
    exact (flashRead_frame hu).trans (NvmFrame.setBlock u b _)

theorem flushBlock_frame {b : BlockId} {s t : State} {r : Bool} (h : flushBlock b s = .ok r t) : NvmFrame s t := by
  unfold flushBlock at h
  split_ifs at h
  · obtain ⟨ok, u, hu, h⟩ := Res.bind_eq_ok.1 h
    split_ifs at h
    · exact (decrypt_frame hu).trans (programBlock_frame h)
    · cases h; exact decrypt_frame hu
  · exact programBlock_frame h

theorem switchBlock_frame {b : BlockId} {nb : Nat} {s t : State} {r : Option BlockId}
    (h : switchBlock b nb s = .ok r t) : NvmFrame s t := by
  have after : ∀ {u v : State} {ok : Bool} {r : Option BlockId}, NvmFrame u v →
      (if ok then (openBlock .gen nb v).bind fun _ s => Res.ok (some .gen) s else .ok none v) = .ok r t →
      NvmFrame u t := by
    intro u v ok r huv h
    split_ifs at h
    · obtain ⟨_, w, hw, h⟩ := Res.bind_eq_ok.1 h
      cases h; exact huv.trans (openBlock_frame hw)
    · cases h; exact huv
  cases b <;> simp only [switchBlock] at h
  · split_ifs at h
    · obtain ⟨_, u, hu, h⟩ := Res.bind_eq_ok.1 h
      cases h; exact openBlock_frame hu
    · obtain ⟨ok, u, hu, h⟩ := Res.bind_eq_ok.1 h
      exact after (flushBlock_frame hu) h
  · obtain ⟨ok, u, hu, h⟩ := Res.bind_eq_ok.1 h
    refine after ?_ h
    split_ifs at hu
    · exact flushBlock_frame hu
    · cases hu; exact .refl _

theorem copyBytes_frame {ds : List Byte} {b : BlockId} {cb off : Nat} {s t : State} {r : Unit}
    (h : copyBytes b cb off ds s = .ok r t) : NvmFrame s t := by
  induction ds generalizing b cb off s with
  | nil => cases h; exact .refl _
  | cons d ds ih =>
    simp only [copyBytes] at h
    split_ifs at h
    · obtain ⟨o, u, hu, h⟩ := Res.bind_eq_ok.1 h
      cases o with
      | none => cases h
      | some b' => exact (switchBlock_frame hu).trans ((NvmFrame.setBlock u b' _).trans (ih h))
    · exact (NvmFrame.setBlock s b _).trans (ih h)

theorem routeWrite_frame {a : Nat} {ds : List Byte} {s t : State} {r : Unit} (h : routeWrite a ds s = .ok r t) :
    NvmFrame s t := by
  have add : ∀ b, addToBlock b a ds s = .ok r t → NvmFrame s t := by
    intro b h
    obtain ⟨o, u, hu, h⟩ := Res.bind_eq_ok.1 h
    have hsu : NvmFrame s u := by
      unfold enterBlock at hu
      split_ifs at hu
      · cases hu; exact .refl _
      · exact switchBlock_frame hu
      · obtain ⟨_, v, hv, hu⟩ := Res.bind_eq_ok.1 hu
        cases hu; exact openBlock_frame hv
    cases o with
    | none => cases h
    | some b' => exact hsu.trans (copyBytes_frame h)
  unfold routeWrite at h
  split_ifs at h <;> exact add _ h

theorem eraseLoop_frame {es : List Sector} {a n : Nat} {s t : State} {r : Unit} (h : eraseLoop a n es s = .ok r t) :
    NvmFrame s t := by
  induction es generalizing s with
  | nil => cases h; exact .refl _
  | cons e es ih =>
    simp only [eraseLoop] at h
    split_ifs at h
    · obtain ⟨ok, u, hu, h⟩ := Res.bind_eq_ok.1 h
      split_ifs at h
      · exact (eraseSector_frame hu).trans (ih h)
      · cases h
    · exact ih h

theorem commitBlock_frame {b : BlockId} {s t : State} {r : Unit} (h : commitBlock b s = .ok r t) : NvmFrame s t := by
  unfold commitBlock at h
  split_ifs at h
  · obtain ⟨ok, u, hu, h⟩ := Res.bind_eq_ok.1 h
    split_ifs at h
    · cases h; exact (flushBlock_frame hu).trans (NvmFrame.setBlock u b _)
    · cases h
  · cases h; exact .refl _

end Sys2Proof.Machine
end

