-- ==== Sys2Proof/Laws/PerInstr.lean ====
section
/-! SUPPORT. The family EncodedFields: the fields of every command's word (spec/30_encoding.md R59 to R63), one lemma for
each command. -/

namespace Sys2Proof.Laws.EncodedFields

open Sys2Proof

/-- The word of a command holds the UNIT and OP that the opcode map gives it, and its immediate. -/
def Statement (i : Instr) : Prop :=
  16 * unitOf (encode i) + opOf (encode i) = opByte i ∧ (immOf (encode i)).toNat = immByte i

theorem nvmInit : Statement .nvmInit := ⟨rfl, rfl⟩
theorem nvmWrite : Statement .nvmWrite := ⟨rfl, rfl⟩
theorem nvmErase : Statement .nvmErase := ⟨rfl, rfl⟩
theorem nvmWriteChecksum : Statement .nvmWriteChecksum := ⟨rfl, rfl⟩
theorem nvmVerifyChecksum : Statement .nvmVerifyChecksum := ⟨rfl, rfl⟩
theorem nvmDone : Statement .nvmDone := ⟨rfl, rfl⟩
theorem nvmGetUserProgramBase : Statement .nvmGetUserProgramBase := ⟨rfl, rfl⟩
theorem pfInit : Statement .pfInit := ⟨rfl, rfl⟩
theorem pfTransmit : Statement .pfTransmit := ⟨rfl, rfl⟩
theorem pfPoll : Statement .pfPoll := ⟨rfl, rfl⟩
theorem crcInit : Statement .crcInit := ⟨rfl, rfl⟩
theorem crcByte (b : Byte) : Statement (.crcByte b) := by
  have hb := b.isLt
  simp only [Statement, encode, opByte, immByte, unitOf, opOf, immOf, BitVec.toNat_ofNat]
  omega
theorem crcRead : Statement .crcRead := ⟨rfl, rfl⟩
theorem crcBlock : Statement .crcBlock := ⟨rfl, rfl⟩
theorem mbInit : Statement .mbInit := ⟨rfl, rfl⟩
theorem mbTransmit : Statement .mbTransmit := ⟨rfl, rfl⟩
theorem mbPoll : Statement .mbPoll := ⟨rfl, rfl⟩
theorem mbGetT35 : Statement .mbGetT35 := ⟨rfl, rfl⟩

end Sys2Proof.Laws.EncodedFields
end

