-- ==== Sys2Proof/Laws/Waits.lean ====
section
/-! SUPPORT. What the iterations of the two busy waits do while power stays on, and everything the waits can write while
it does. -/

namespace Sys2Proof.Machine

open Sys2Proof

/-! ## The idle-line wait -/

/-- One iteration with a byte waiting: it is discarded and the silence is measured from this iteration's tick. -/
theorem idleIteration_byte {t0 : Word} {s : State} {b : Byte} {bs : List Byte} (hp : s.env.powerCut = none)
    (h : s.env.rxMb = b :: bs) :
    idleIteration t0 s = .ok (s.env.nowTick, false) { s with
      env := { s.env with rxMb := bs },
      events := s.events ++ [.kick, .rxMb (some b), .nowTick s.env.nowTick] } := by
  simp [idleIteration, kick_on hp, rxByteMb, readTick, call, beforeCall, State.record, hp, h]

/-- One iteration on a silent line: it exits when MB_T35 ticks have passed. -/
theorem idleIteration_silent {t0 : Word} {s : State} (hp : s.env.powerCut = none) (h : s.env.rxMb = []) :
    idleIteration t0 s = .ok
      (if s.mb.t35.toNat ≤ elapsed s.env.nowTick t0 then (s.env.nowTick, true) else (t0, false))
      { s with events := s.events ++ [.kick, .rxMb none, .nowTick s.env.nowTick] } := by
  have hr : rxByteMb (s.record .kick) = .ok none ((s.record .kick).record (.rxMb none)) := by
    have ht : s.env.rxMb.tail = s.env.rxMb := by rw [h]; rfl
    have hh : s.env.rxMb.head? = none := by rw [h]; rfl
    rw [rxByteMb_on (s := s.record .kick) hp]
    simp only [State.record, ht, hh]
  simp only [idleIteration, kick_on hp, hr, readTick_on (s := (s.record .kick).record (.rxMb none)) hp, Res.bind_ok]
  simp only [State.record, Option.isSome_none, Bool.false_eq_true, if_false, List.append_assoc, List.cons_append,
    List.nil_append]
  split_ifs <;> rfl

/-- An iteration with power on goes on; it changes the receive queue and the record of events alone. -/
theorem idleIteration_spec (t0 : Word) {s : State} (hp : s.env.powerCut = none) : ∃ r q evs,
    idleIteration t0 s = .ok r { s with env := { s.env with rxMb := q }, events := s.events ++ evs } := by
  cases h : s.env.rxMb with
  | nil => exact ⟨_, [], _, by rw [idleIteration_silent hp h, ← h]⟩
  | cons b bs => exact ⟨_, _, _, idleIteration_byte hp h⟩

/-- Everything the idle-line wait can do with power on: it ends with a new MB_LAST_TICK, or it stays in progress. -/
theorem idleWait_spec (ws : List WaitSample) (t0 : Word) {s : State} (hp : s.env.powerCut = none) :
    ∃ q tick ws' evs last,
    idleWait ws t0 s = .ok () { s with
      env := { s.env with rxMb := q, nowTick := tick, waitSamples := ws' }, events := s.events ++ evs,
      mb := { s.mb with lastTick := last }, wait := .idle } ∨
    idleWait ws t0 s = .ended { s with
      env := { s.env with rxMb := q, nowTick := tick, waitSamples := ws' }, events := s.events ++ evs,
      wait := .mbInit last } := by
  induction ws generalizing t0 s with
  | nil =>
    obtain ⟨⟨x, d⟩, q, evs, h⟩ := idleIteration_spec t0 hp
    refine ⟨q, s.env.nowTick, s.env.waitSamples, evs, x, ?_⟩
    cases d <;> simp [idleWait, h, idleDone]
  | cons w ws ih =>
    obtain ⟨⟨x, d⟩, q, evs, h⟩ := idleIteration_spec t0 (s := applySample w ws s) hp
    cases d
    · obtain ⟨q', tick', ws', evs', last', h'⟩ := ih x (s := { applySample w ws s with
        env := { (applySample w ws s).env with rxMb := q }, events := (applySample w ws s).events ++ evs }) hp
      refine ⟨q', tick', ws', evs ++ evs', last', ?_⟩
      simp only [idleWait, h, Res.bind_ok, Bool.false_eq_true, if_false]
      simpa [applySample] using h'
    · exact ⟨q, w.tick, ws, evs, x, .inl (by
        simp only [idleWait, h, Res.bind_ok, if_true]; simp [idleDone, applySample])⟩

/-! ## The delays of MB_TRANSMIT -/

/-- One iteration of a delay with power on. -/
theorem delayIteration_on {d : Nat} {t0 : Word} {s : State} (hp : s.env.powerCut = none) :
    delayIteration d t0 s = .ok (decide (d ≤ elapsed s.env.nowTick t0))
      { s with events := s.events ++ [.kick, .nowTick s.env.nowTick] } := by
  simp [delayIteration, kick_on hp, readTick, call, beforeCall, State.record, hp]

/-- Everything a delay can do with power on: the environment moves, and the iterations are recorded. -/
theorem delayWait_spec (d : Nat) (t0 : Word) (ws : List WaitSample) {s : State} (hp : s.env.powerCut = none) :
    ∃ done q tick ws' evs, delayWait d t0 ws s = .ok done { s with
      env := { s.env with rxMb := q, nowTick := tick, waitSamples := ws' }, events := s.events ++ evs } := by
  induction ws generalizing s with
  | nil => exact ⟨_, s.env.rxMb, s.env.nowTick, s.env.waitSamples, _, delayIteration_on hp⟩
  | cons w ws ih =>
    have h := delayIteration_on (d := d) (t0 := t0) (s := applySample w ws s) hp
    by_cases hd : d ≤ elapsed w.tick t0
    · exact ⟨true, s.env.rxMb ++ w.arrivals, w.tick, ws, [.kick, .nowTick w.tick], by
        simp only [delayWait, h, Res.bind_ok]; simp [applySample, hd]⟩
    · obtain ⟨done, q, tick, ws', evs, h'⟩ := ih (s := { applySample w ws s with
        events := (applySample w ws s).events ++ [.kick, .nowTick w.tick] }) hp
      refine ⟨done, q, tick, ws', [.kick, .nowTick w.tick] ++ evs, ?_⟩
      simp only [delayWait, h, Res.bind_ok]
      simpa [applySample, hd] using h'

/-! ## Initialisation -/

/-- Everything MB_INIT can do with power on (spec/43_modbus_frame.md R110): it goes on to its end, or its wait stays in
progress. -/
theorem mbInitBody_spec {s : State} (hp : s.env.powerCut = none) : ∃ q tick ws evs last,
    mbInitBody s = .ok () { s with
      env := { s.env with rxMb := q, nowTick := tick, waitSamples := ws }, events := s.events ++ evs,
      mb := { s.mb with
        t35 := BitVec.ofNat 32 (t35Ticks s.cfg.baud), count := 0, sync := false, de := false, lastTick := last },
      wait := .idle } ∨
    mbInitBody s = .ended { s with
      env := { s.env with rxMb := q, nowTick := tick, waitSamples := ws }, events := s.events ++ evs,
      mb := { s.mb with t35 := BitVec.ofNat 32 (t35Ticks s.cfg.baud), count := 0, sync := false, de := false },
      wait := .mbInit last } := by
  have hr := readTick_on (s := mbInitPrelude s) hp
  obtain ⟨q, tick, ws, evs, last, h⟩ := idleWait_spec s.env.waitSamples s.env.nowTick
    (s := (mbInitPrelude s).record (.nowTick s.env.nowTick)) hp
  refine ⟨q, tick, ws, [.nowTick s.env.nowTick] ++ evs, last, ?_⟩
  rw [mbInitBody, hr, Res.bind_ok]
  simpa [mbInitPrelude, State.record] using h

end Sys2Proof.Machine
end

