-- ==== Sys2Proof/Laws/Send.lean ====
section
/-! SUPPORT. What the send loops of the packet framer and the Modbus unit, the delivery of a packet and the reception
operations can do. -/

namespace Sys2Proof.Machine

open Sys2Proof

/-- A send loop that goes on changed the environment and the record of events alone. -/
abbrev LineFrame (s t : State) : Prop := t = { s with env := t.env, events := t.events }

theorem LineFrame.refl (s : State) : LineFrame s s := rfl

theorem LineFrame.trans {s t u : State} (h1 : LineFrame s t) (h2 : LineFrame t u) : LineFrame s u := by
  rw [LineFrame, h2, h1]

/-- A byte send that goes on. -/
theorem send_frame {p : Port} {e : Verdict → Event} {s t : State} {r : Bool}
    (h : (answeredCall p 0 e s).bind verdictResult = .ok r t) : LineFrame s t := by
  obtain ⟨v, u, hu, h⟩ := Res.bind_eq_ok.1 h
  obtain ⟨-, env, rfl⟩ := answeredCall_ok hu
  rw [(verdictResult_ok h).1]

theorem pfSend_frame {bs : List Byte} {s t : State} {r : Unit} (h : pfSend bs s = .ok r t) : LineFrame s t := by
  induction bs generalizing s with
  | nil => cases h; exact .refl _
  | cons b bs ih =>
    obtain ⟨ok, u, hu, h⟩ := Res.bind_eq_ok.1 h
    split_ifs at h
    · exact (send_frame hu).trans (ih h)
    · cases h

theorem mbSend_frame {bs : List Byte} {s t : State} {r : Bool} (h : mbSend bs s = .ok r t) : LineFrame s t := by
  induction bs generalizing s with
  | nil => cases h; exact .refl _
  | cons b bs ih =>
    cases bs with
    | nil => exact send_frame h
    | cons b' bs =>
      obtain ⟨ok, u, hu, h⟩ := Res.bind_eq_ok.1 h
      split_ifs at h
      · exact (send_frame hu).trans (ih h)
      · cases h; exact send_frame hu

/-- Everything the release of the driver can do with power on: MB_DE falls and the command ends with its status. -/
theorem mbRelease_on {ok : Bool} {s : State} (hp : s.env.powerCut = none) :
    (mbRelease ok s).finish = .next { s with
      mb := { s.mb with de := false }, wait := .idle, events := s.events ++ [.driverEnable false],
      host := { s.host with status := statusValue (if ok then .ok else .hwError) } } := by
  cases ok <;> simp [mbRelease, driveEnable_on hp, State.setStatus]

/-- Everything the post-delay can do with power on: MB_DE falls and the command ends with its status, or it waits on. -/
theorem mbPostWait_spec (t0 : Word) (ok : Bool) {s : State} (hp : s.env.powerCut = none) : ∃ q tick ws evs,
    ((mbPostWait t0 ok s).finish = .next { s with
      env := { s.env with rxMb := q, nowTick := tick, waitSamples := ws },
      mb := { s.mb with de := false }, wait := .idle,
      host := { s.host with status := statusValue (if ok then .ok else .hwError) },
      events := s.events ++ evs ++ [.driverEnable false] }) ∨
    (mbPostWait t0 ok s).finish = .next { s with
      env := { s.env with rxMb := q, nowTick := tick, waitSamples := ws },
      wait := .mbPost t0 ok, events := s.events ++ evs } := by
  obtain ⟨done, q, tick, ws, evs, h⟩ := delayWait_spec s.cfg.mbPostDelayTicks t0 s.env.waitSamples hp
  refine ⟨q, tick, ws, evs, ?_⟩
  cases done
  · exact .inr (by simp [mbPostWait, h])
  · refine .inl ?_
    simp only [mbPostWait, h, Res.bind_ok, if_true]
    exact mbRelease_on hp

/-- MB_Boundary and MB_Byte write the Modbus unit alone, but for a delivery into the packet registers. -/
theorem mbByte_frame (b : Byte) (now : Word) (s : State) : ∃ m, mbByte b now s = { s with mb := m } := by
  unfold mbByte
  dsimp only
  split_ifs <;> exact ⟨_, rfl⟩

theorem mbBoundary_frame (now : Word) (s : State) : ∃ m h, mbBoundary now s = { s with mb := m, host := h } := by
  unfold mbBoundary mbValidate
  dsimp only
  split_ifs <;> exact ⟨_, _, rfl⟩

/-- The framer's operations write PF state alone, but for a delivery into the packet registers. -/
theorem pfTake_frame (r : Option Byte) (now : Word) (s : State) : ∃ p h, pfTake r now s = { s with pf := p, host := h } := by
  unfold pfTake pfIdle pfRecv
  dsimp only
  split
  · exact ⟨_, _, rfl⟩
  · split_ifs <;> exact ⟨_, _, rfl⟩

theorem pfTimeout_frame (now : Word) (s : State) : ∃ p, pfTimeout now s = { s with pf := p } := by
  unfold pfTimeout
  split_ifs <;> exact ⟨_, rfl⟩

/-- Feeding two runs one after the other. -/
theorem crcFeed_append (c : Half) (p q : List Byte) : crcFeed c (p ++ q) = crcFeed (crcFeed c p) q := by
  induction p generalizing c with
  | nil => rfl
  | cons b p ih => exact ih (crcStep c b)

/-- CrcFeed as a fold. -/
theorem crcFeed_eq_foldl (c : Half) (l : List Byte) : crcFeed c l = l.foldl crcStep c := by
  induction l generalizing c with
  | nil => rfl
  | cons b l ih => exact ih (crcStep c b)

end Sys2Proof.Machine
end

