-- ==== Sys2Proof/Tests/Slice0.lean ====
section
/-! SUPPORT. Tests: decode vectors, the refusal of ill-formed terms, one or two single steps for each command with
expected values from spec/95_test_vectors.md, and for every statement with hypotheses a state that meets them. -/

namespace Sys2Proof.Tests

open Sys2Proof Sys2Proof.Machine

/- One theorem after the other: each waits for the kernel, and a thread for each would fill the memory. -/
set_option Elab.async false

/-! ## Small states -/

/-- A small configuration: the 16-bit checksum of V-NVM-29, write blocks of 16 bytes, a table out of address order with a
gap at 0x30 to 0x3F, BOOT_BASE 0x10. -/
def tinyParams : Params where
  wbs := 16
  sectorTable := [{ start := 0x40, size := 0x20, sectorId := 1, bankId := 0 },
    { start := 0x10, size := 0x20, sectorId := 0, bankId := 0 }]
  csWidth := 16
  csWordCount := 4
  csOffset := 8
  csEndian := .little
  cryptoEnabled := false
  erasedByte := 0xFF
  dbufSize := 16
  maxData := 8
  pfTimeoutMs := 100
  baud := 9600
  nodeId := 0x01
  functionCode := 0x50
  mbAcceptEmpty := false
  mbPreDelayTicks := 0
  mbPostDelayTicks := 0

def tiny : Config := { tinyParams with valid := by decide }

/-- The small configuration with the crypto hook. -/
def tinyCrypto : Config := { tinyParams with cryptoEnabled := true, valid := by decide }

/-- The small configuration that accepts an empty payload. -/
def tinyEmpty : Config := { tinyParams with mbAcceptEmpty := true, valid := by decide }

/-- The small configuration with the delays of V-MB-30. -/
def tinyDelays : Config :=
  { tinyParams with mbPreDelayTicks := 5, mbPostDelayTicks := 3, valid := by decide }

/-- The state after reset of the small block. -/
def s0 : State := State.resetWith tiny

/-- The same block with the operand registers written. -/
def args (a n : Nat) (data : List Byte) (s : State) : State :=
  { s with host := { s.host with
      argAddr := BitVec.ofNat 32 a, argLen := BitVec.ofNat 32 n
      dbuf := data ++ s.host.dbuf.drop data.length
      argAddrWritten := true, argLenWritten := true
      dbufWritten := s.host.dbufWritten.map fun _ => true } }

/-- With the coming answers of ProgramBlock and of Decrypt. -/
def flashAnswers (program decrypt : List Answer) (s : State) : State :=
  { s with env := { s.env with programAnswers := program, decryptAnswers := decrypt } }

/-- With the generic block open at `base`, all bytes `b`. -/
def withGen (base : Nat) (b : Byte) (s : State) : State :=
  { s with gen := { valid := true, base := BitVec.ofNat 32 base, buf := List.replicate 16 b } }

/-- With the boot block open, holding `buf`. -/
def withBoot (buf : List Byte) (s : State) : State :=
  { s with boot := { valid := true, base := 0x10, buf := buf } }

/-- An answer without open bytes of its own. -/
def ans (v : Verdict) : Answer := { verdict := v, bytes := List.replicate 32 0x77 }

/-- The state a step or a command leaves, if it answers one. -/
def nextOf (o : Host.Outcome State Fault Refusal) : Option State :=
  match o with
  | .next t => some t
  | .fault _ => none
  | .refused _ => none

/-- A fact of the state a step or a command leaves. -/
def leaves (o : Host.Outcome State Fault Refusal) (p : State → Bool) : Bool :=
  match nextOf o with
  | some t => p t
  | none => false

/-- Does a step or a command answer a next state? -/
def answers (o : Host.Outcome State Fault Refusal) : Bool := leaves o fun _ => true

/-! ## Decoding: words written out from the tables of 30_encoding.md R61 and section 3 of 95_test_vectors.md -/

theorem test_decode_nvm : decode 0b0000000000000000 = .ok .nvmInit ∧ decode 0b0000000100000000 = .ok .nvmWrite ∧
    decode 0b0000001000000000 = .ok .nvmErase ∧ decode 0b0000001100000000 = .ok .nvmWriteChecksum ∧
    decode 0b0000010000000000 = .ok .nvmVerifyChecksum ∧ decode 0b0000010100000000 = .ok .nvmDone ∧
    decode 0b0000011000000000 = .ok .nvmGetUserProgramBase := by decide

theorem test_decode_pf : decode 0b0001000000000000 = .ok .pfInit ∧ decode 0b0001000100000000 = .ok .pfTransmit ∧
    decode 0b0001001000000000 = .ok .pfPoll := by decide

theorem test_decode_crc : decode 0b0010000000000000 = .ok .crcInit ∧
    decode 0b0010000100110001 = .ok (.crcByte 0x31) ∧ decode 0b0010000111111111 = .ok (.crcByte 0xFF) ∧
    decode 0b0010001000000000 = .ok .crcRead ∧ decode 0b0010001100000000 = .ok .crcBlock := by decide

theorem test_decode_mb : decode 0b0011000000000000 = .ok .mbInit ∧ decode 0b0011000100000000 = .ok .mbTransmit ∧
    decode 0b0011001000000000 = .ok .mbPoll ∧ decode 0b0011001100000000 = .ok .mbGetT35 := by decide

/-- V-ENC-3 to V-ENC-5, V-ENC-7, V-ENC-9, V-ENC-12 to V-ENC-14, V-ENC-16 to V-ENC-18. -/
theorem test_decode_illegal : decode 0x0700 = .error .reservedOp ∧ decode 0x0F00 = .error .reservedOp ∧
    decode 0x0001 = .error .nonzeroImm ∧ decode 0x1300 = .error .reservedOp ∧
    decode 0x2001 = .error .nonzeroImm ∧ decode 0x2201 = .error .nonzeroImm ∧
    decode 0x2400 = .error .reservedOp ∧ decode 0x30FF = .error .nonzeroImm ∧
    decode 0x3400 = .error .reservedOp ∧ decode 0x4000 = .error .reservedUnit ∧
    decode 0xFFFF = .error .reservedUnit := by decide

theorem test_decodeTableWord : decodeTableWord 16 0x2131 = some (.crcByte 0x31) ∧
    decodeTableWord 16 0x4000 = none := by decide

/-! ## Ill-formed terms, one for each check -/

theorem test_wbs_refused : { tinyParams with wbs := 0 }.wbsOk = false := by decide
theorem test_empty_table_refused : { tinyParams with sectorTable := [] }.tableOk = false := by decide
theorem test_empty_sector_refused :
    { tinyParams with sectorTable := [{ start := 16, size := 0, sectorId := 0, bankId := 0 }] }.tableOk = false := by
  decide
theorem test_sector_past_the_space_refused :
    { tinyParams with sectorTable :=
        [{ start := 0xFFFFFFF0, size := 0x20, sectorId := 0, bankId := 0 }] }.tableOk = false := by decide
theorem test_overlap_refused :
    { tinyParams with sectorTable := [{ start := 0x10, size := 0x20, sectorId := 0, bankId := 0 },
        { start := 0x20, size := 0x20, sectorId := 1, bankId := 0 }] }.tableDisjoint = false := by decide
theorem test_unaligned_sector_refused :
    { tinyParams with sectorTable :=
        [{ start := 0x18, size := 0x20, sectorId := 0, bankId := 0 }] }.tableAligned = false := by decide
theorem test_checksum_field_outside_refused : { tinyParams with csOffset := 15 }.csFieldOk = false := by decide
theorem test_vectors_over_field_refused : { tinyParams with csOffset := 7 }.vectorsOk = false := by decide
theorem test_no_vectors_refused : { tinyParams with csWordCount := 0 }.vectorsOk = false := by decide
theorem test_vectors_outside_refused : { tinyParams with csWordCount := 9 }.vectorsOk = false := by decide
theorem test_width_refused : { tinyParams with csWidth := 24 }.csWidthOk = false := by decide
theorem test_max_data_refused : { tinyParams with maxData := 256 }.maxDataOk = false ∧
    { tinyParams with maxData := 0 }.maxDataOk = false := by decide
theorem test_baud_refused : { tinyParams with baud := 0 }.baudOk = false := by decide
theorem test_dbuf_refused : { tinyParams with dbufSize := 7 }.dbufOk = false ∧
    { tinyParams with dbufSize := 1, maxData := 1 }.dbufOk = false := by decide
theorem test_timeout_refused : { tinyParams with pfTimeoutMs := 0 }.timeoutOk = false := by decide
theorem test_wf_is_all_checks : { tinyParams with baud := 0 }.wf = false ∧ tinyParams.wf = true := by decide
theorem test_upstream_index_refused : (UpMove.dbuf 16 0).wf tinyParams = false ∧
    (UpMove.read (.pktData 8)).wf tinyParams = false ∧ (UpMove.read (.dbuf 15)).wf tinyParams = true := by decide
theorem test_step_refuses_missing_byte :
    (match Machine.step { s0 with moves := [.up (.dbuf 16 0)] } with
      | .refused .noSuchRegister => true
      | _ => false) = true := by decide +kernel

/-! ## One step of each command -/

/-- V-NVM-26: NVM_INIT after a write calls no port and invalidates both blocks. -/
theorem test_nvmInit : leaves (exec .nvmInit (withGen 0x40 1 (withBoot (List.replicate 16 2) s0)))
    (fun t => !t.gen.valid && !t.boot.valid && decide (t.events = []) && decide (t.host.status = 0)) = true := by
  decide +kernel

/-- V-NVM-15 in the small block: a write leaves the boot block, deferring its flush, and opens the generic block. -/
theorem test_nvmWrite_crossing : leaves (exec .nvmWrite (args 0x1E 4 [0x11, 0x22, 0x33, 0x44] s0))
    (fun t => decide (t.boot.buf.drop 14 = [0x11, 0x22]) && decide (t.gen.base = 0x20) &&
      decide (t.gen.buf.take 3 = [0x33, 0x44, 0xFF]) &&
      decide (t.events = [.flashRead 0x10 16, .flashRead 0x20 16])) = true := by decide +kernel

/-- V-NVM-6: a range across a gap is a RangeError although both ends are covered. V-ERR-1: so is a length above
DBUF_SIZE, although ARG_ADDR was never written (R64). -/
theorem test_nvmWrite_rangeErrors :
    leaves (exec .nvmWrite (args 0x2F 16 [] s0))
      (fun t => decide (t.host.status = 1) && decide (t.events = [])) = true ∧
    leaves (exec .nvmWrite { s0 with host := { s0.host with argLen := 17, argLenWritten := true } })
      (fun t => decide (t.host.status = 1) && decide (t.events = [])) = true := by decide +kernel

/-- V-NVM-11: a gap inside an erase range is allowed; the sectors are erased in table order. -/
theorem test_nvmErase : leaves
    (exec .nvmErase (args 0x2F 0x12 [] { s0 with
      flash := [(0x10, 0), (0x30, 5), (0x5F, 1)], env := { s0.env with eraseAnswers := [ans .ok, ans .ok] } }))
    (fun t => decide (t.flash = [(0x30, 5)]) && decide (t.host.status = 0) &&
      decide (t.events = [.eraseSector 1 0 .ok, .eraseSector 0 0 .ok])) = true := by decide +kernel

/-- V-NVM-12: the second sector fails; the first stays erased. -/
theorem test_nvmErase_failure : leaves
    (exec .nvmErase (args 0x10 0x50 [] { s0 with
      flash := [(0x10, 0), (0x5F, 1)], env := { s0.env with eraseAnswers := [ans .ok, ans .fail] } }))
    (fun t => decide (t.host.status = 2) && decide (t.flashByte 0x5F = 0xFF)) = true := by decide +kernel

/-- V-NVM-29: vector words 5000 2135 213D 2141, little-endian, give the field bytes 4D 4C. -/
theorem test_nvmWriteChecksum : leaves
    (exec .nvmWriteChecksum (withBoot ([0x00, 0x50, 0x35, 0x21, 0x3D, 0x21, 0x41, 0x21] ++ List.replicate 8 0xFF) s0))
    (fun t => decide ((t.boot.buf.drop 8).take 3 = [0x4D, 0x4C, 0xFF]) && decide (t.events = [])) = true := by
  decide +kernel

/-- V-NVM-30: erased flash verifies false. -/
theorem test_nvmVerifyChecksum_erased : leaves (exec .nvmVerifyChecksum s0)
    (fun t => decide (t.host.result = 0) && decide (t.host.status = 0) && decide (t.events.length = 5)) = true := by
  decide +kernel

/-- V-NVM-29: the words of that vector with their checksum in flash verify true. -/
theorem test_nvmVerifyChecksum_good : leaves
    (exec .nvmVerifyChecksum { s0 with flash := [(0x10, 0x00), (0x11, 0x50), (0x12, 0x35), (0x13, 0x21),
      (0x14, 0x3D), (0x15, 0x21), (0x16, 0x41), (0x17, 0x21), (0x18, 0x4D), (0x19, 0x4C)] })
    (fun t => decide (t.host.result = 1)) = true := by decide +kernel

/-- V-NVM-23b: the generic block is programmed first, the boot block last. -/
theorem test_nvmDone_order : leaves
    (exec .nvmDone (withGen 0x40 1 (withBoot (List.replicate 16 2)
      { s0 with env := { s0.env with defaultAnswer := some true } })))
    (fun t => decide (t.events = [.programBlock 0x40 (List.replicate 16 1) .ok,
        .programBlock 0x10 (List.replicate 16 2) .ok]) && !t.gen.valid && !t.boot.valid &&
      decide (t.flashByte 0x4F = 1) && decide (t.flashByte 0x1F = 2)) = true := by decide +kernel

/-- V-NVM-22: the generic block's program call fails; both blocks stay valid and the boot block is not programmed.
V-NVM-23: the boot block's program call fails after the generic block was flushed. -/
theorem test_nvmDone_failure :
    leaves (exec .nvmDone (withGen 0x40 1 (withBoot (List.replicate 16 2) (flashAnswers [ans .fail] [] s0))))
      (fun t => decide (t.host.status = 2) && t.gen.valid && t.boot.valid && decide (t.events.length = 1) &&
        decide (t.flashByte 0x10 = 0xFF)) = true ∧
    leaves (exec .nvmDone (withGen 0x40 1 (withBoot (List.replicate 16 2) (flashAnswers [ans .ok, ans .fail] [] s0))))
      (fun t => decide (t.host.status = 2) && !t.gen.valid && t.boot.valid && decide (t.flashByte 0x4F = 1)) = true := by
  decide +kernel

/-- V-NVM-27. -/
theorem test_nvmGetUserProgramBase :
    leaves (exec .nvmGetUserProgramBase State.reset) (fun t => decide (t.host.result = 0x08002000)) = true := by
  decide +kernel

/-- V-PF-15. -/
theorem test_pfInit : leaves
    (exec .pfInit { s0 with pf := { s0.pf with state := .receiving, expected := 3, count := 2 } })
    (fun t => decide (t.pf.state = .idle) && decide (t.pf.count = 0)) = true := by decide +kernel

/-- V-PF-10. -/
theorem test_pfTransmit : leaves
    (exec .pfTransmit (args 0 3 [0x11, 0x22, 0x33] { s0 with env := { s0.env with defaultAnswer := some true } }))
    (fun t => decide (t.events = [.txPf 3 .ok, .txPf 0x11 .ok, .txPf 0x22 .ok, .txPf 0x33 .ok]) &&
      decide (t.host.status = 0)) = true := by decide +kernel

/-- V-PF-13. -/
theorem test_pfTransmit_failure : leaves
    (exec .pfTransmit (args 0 3 [0x11, 0x22, 0x33]
      { s0 with env := { s0.env with txPfAnswers := [ans .ok, ans .ok, ans .fail] } }))
    (fun t => decide (t.events = [.txPf 3 .ok, .txPf 0x11 .ok, .txPf 0x22 .fail]) &&
      decide (t.host.status = 2)) = true := by decide +kernel

/-- A framer that took the length byte `n` at `ms`, and then `count` bytes 0xAA. -/
def receiving (n count : Nat) (ms : Word) (s : State) : State :=
  { s with pf := { state := .receiving, expected := BitVec.ofNat 8 n, count := BitVec.ofNat 8 count, lastMs := ms
                   buf := List.replicate count 0xAA ++ List.replicate (8 - count) 0 } }

/-- The environment at millisecond `ms` with bytes waiting on the PF line. -/
def pfLine (ms : Word) (bytes : List Byte) (s : State) : State :=
  { s with env := { s.env with nowMs := ms, rxPf := bytes } }

/-- V-PF-1, the last poll. -/
theorem test_pfPoll_delivers : leaves (exec .pfPoll (pfLine 2 [0xBB] (receiving 2 1 1 s0)))
    (fun t => decide (t.host.result = 1) && decide (t.host.pktLen = 2) &&
      decide (t.host.pktData.take 2 = [0xAA, 0xBB]) && decide (t.pf.state = .idle)) = true := by decide +kernel

/-- V-PF-4: a gap of exactly PF_TIMEOUT_MS times out, and the byte is read as a length byte. -/
theorem test_pfPoll_timeout : leaves (exec .pfPoll (pfLine 100 [0xAA] (receiving 2 0 0 s0)))
    (fun t => decide (t.host.result = 0) && decide (t.pf.state = .idle)) = true := by decide +kernel

/-- V-CRC-20h. -/
theorem test_crcInit : leaves (exec .crcInit { s0 with crcReg := 0x947E })
    (fun t => decide (t.crcReg = 0xFFFF)) = true := by decide +kernel

/-- V-CRC-20b, V-CRC-20c. -/
theorem test_crcByte : leaves (exec (.crcByte 0x31) s0) (fun t => decide (t.crcReg = 0x947E)) = true ∧
    leaves (exec (.crcByte 0) s0) (fun t => decide (t.crcReg = 0x40BF)) = true := by decide +kernel

/-- V-CRC-20i. -/
theorem test_crcRead : leaves (exec .crcRead s0) (fun t => decide (t.host.result = 0xFFFF)) = true := by decide +kernel

/-- V-CRC-8: `Crc16(01 03 00 00 00 0A) = 0xCDC5`. -/
theorem test_crcBlock : leaves (exec .crcBlock (args 0 6 [1, 3, 0, 0, 0, 0x0A] s0))
    (fun t => decide (t.crcReg = 0xCDC5)) = true := by decide +kernel

/-- V-CRC-20f: a length above DBUF_SIZE. -/
theorem test_crcBlock_range : leaves (exec .crcBlock (args 0 17 [] s0))
    (fun t => decide (t.host.status = 1) && decide (t.crcReg = 0xFFFF)) = true := by decide +kernel

/-- A sample of NOW_TICK with nothing arriving. -/
def at_ (t : Nat) : WaitSample := { arrivals := [], tick := BitVec.ofNat 32 t }

/-- V-MB-16: the byte restarts the silence at 100; the wait ends at 903. -/
theorem test_mbInit : leaves
    (exec .mbInit { s0 with env := { s0.env with
      nowTick := 0, rxMb := [0x55], waitSamples := [at_ 100, at_ 500, at_ 903] } })
    (fun t => decide (t.mb.lastTick = 903) && decide (t.wait = .idle) && decide (t.mb.t35 = 403) &&
      decide ((t.events.filter fun e => decide (e = .kick)).length = 3)) = true := by decide +kernel

/-- V-MB-28. -/
theorem test_mbTransmit : leaves
    (exec .mbTransmit (args 0 1 [0xAA] { s0 with env := { s0.env with defaultAnswer := some true } }))
    (fun t => decide (t.events = [.driverEnable true, .nowTick 403, .kick, .nowTick 403, .txMb 0x01 .ok, .txMb 0x50 .ok,
        .txMb 0x01 .ok, .txMb 0xAA .ok, .txMb 0x80 .ok, .txMbLast 0x26 .ok, .nowTick 403, .kick, .nowTick 403,
        .driverEnable false]) &&
      decide (t.host.status = 0)) = true := by decide +kernel

/-- V-MB-31: the driver is released after a refused byte. -/
theorem test_mbTransmit_failure : leaves
    (exec .mbTransmit (args 0 1 [0xAA] { s0 with env := { s0.env with txMbAnswers := [ans .ok, ans .fail] } }))
    (fun t => decide (t.events = [.driverEnable true, .nowTick 403, .kick, .nowTick 403, .txMb 0x01 .ok, .txMb 0x50 .fail,
        .nowTick 403, .kick, .nowTick 403, .driverEnable false]) && decide (t.host.status = 2) && !t.mb.de) = true := by
  decide +kernel

/-- A Modbus receiver that holds `bytes`, the last of them seen at tick 1005. -/
def holding (bytes : List Byte) (s : State) : State :=
  { s with mb := { s.mb with
      buf := bytes ++ List.replicate (13 - bytes.length) 0, count := bytes.length, lastTick := 1005 } }

/-- The environment at tick `t` with bytes waiting on the MB line. -/
def mbLine (t : Word) (bytes : List Byte) (s : State) : State :=
  { s with env := { s.env with nowTick := t, rxMb := bytes } }

/-- V-MB-1 and V-MB-14: the old frame is delivered, and the byte of the same poll starts a new one. -/
theorem test_mbPoll_delivers : leaves
    (exec .mbPoll (mbLine 1408 [0x01] (holding [0x01, 0x50, 0x01, 0xAA, 0x80, 0x26] s0)))
    (fun t => decide (t.host.result = 1) && decide (t.host.pktLen = 1) && decide (t.host.pktData.take 1 = [0xAA]) &&
      decide (t.mb.count = 1) && decide (t.mb.lastTick = 1408)) = true := by decide +kernel

/-- V-MB-4: a changed CRC byte. -/
theorem test_mbPoll_drops : leaves
    (exec .mbPoll (mbLine 1408 [] (holding [0x01, 0x50, 0x01, 0xAA, 0x81, 0x26] s0)))
    (fun t => decide (t.host.result = 0) && decide (t.mb.count = 0) && decide (t.host.status = 0)) = true := by
  decide +kernel

/-- V-MB-22. -/
theorem test_mbGetT35 : leaves (exec .mbGetT35 s0) (fun t => decide (t.host.result = 403)) = true := by decide +kernel

/-- V-ENC-20: an ILLEGAL word leaves RESULT and CRC_REG. -/
theorem test_illegal : leaves
    (Machine.step { s0 with crcReg := 0x5555, host := { s0.host with result := 0x1234 }, moves := [.up (.cmd 0x4000)] })
    (fun t => decide (t.host.status = 3) && decide (t.crcReg = 0x5555) && decide (t.host.result = 0x1234)) = true := by
  decide +kernel

/-- Reset, then the word of a command placed as the next move: the step runs it. -/
theorem test_withFetchWord : leaves (Machine.step (State.reset.withFetchWord 16 0x2131))
    (fun t => decide (t.crcReg = 0x947E)) = true := by decide +kernel

/-- R135, R90 (f): power is lost after the generic block was programmed and before the boot block is. -/
theorem test_power_cut_in_done : leaves
    (exec .nvmDone ((withGen 0x40 1 (withBoot (List.replicate 16 2) (flashAnswers [ans .ok, ans .ok] [] s0))).withCut 1))
    (fun t => decide (t.events = [.programBlock 0x40 (List.replicate 16 1) .ok, .powerLoss]) &&
      decide (t.flashByte 0x4F = 1) && decide (t.flashByte 0x1F = 0xFF) && !t.boot.valid &&
      decide (t.wait = .reset)) = true := by decide +kernel

/-- R135, R138: after a power loss the next turn is the reset sequence, whose MB_INIT waits for 403 silent ticks. -/
theorem test_reset_sequence_after_power_loss : leaves
    (resumeWait { powerOff { s0 with crcReg := 7 } with env := { s0.env with nowTick := 0, waitSamples := [at_ 403] } })
    (fun t => decide (t.crcReg = 0xFFFF) && decide (t.wait = .idle) && decide (t.mb.lastTick = 403) &&
      decide (t.events = [.powerLoss, .nowTick 0, .kick, .rxMb none, .nowTick 403])) = true := by decide +kernel

/-- R70: what a write and a receive expand to and return. -/
theorem test_source_calls :
    sourceCallMoves (.write 0x10 2 [7, 8, 9]) =
      [.argAddr 0x10, .argLen 2, .dbuf 0 7, .dbuf 1 8, .cmd 0x0100] ∧
    sourceCallMoves (.receivePacket true) = [.cmd 0x3200] ∧
    (let s := { s0 with host := { s0.host with result := 1, pktLen := 2, pktData := [5, 6, 0, 0, 0, 0, 0, 0] } }
     callSuccess (.receivePacket true) s = true ∧ receivedPacket s = (2, [5, 6]) ∧ callSuccess .done s = true ∧
     packetReads 2 = [.read .pktLen, .read (.pktData 0), .read (.pktData 1)]) := by decide +kernel

/-! ## States that meet the hypotheses of the statements -/

theorem witness_StepRunsDecodedCommand : let s := { s0 with moves := [.up (.cmd 0x21FF)] }
    s.moves = .up (.cmd 0x21FF) :: [] ∧ s.wait = .idle ∧ decode 0x21FF = .ok (.crcByte 0xFF) := by decide +kernel

theorem witness_IllegalWordSetsStatusOnly : let s := { s0 with moves := [.up (.cmd 0x0700)] }
    s.moves = .up (.cmd 0x0700) :: [] ∧ s.wait = .idle ∧ decode 0x0700 = .error .reservedOp := by decide +kernel

theorem witness_UpstreamWaitsForCommandInProgress :
    let s := { s0 with wait := .mbInit 0 }
    s.wait ≠ .idle ∧ { s with moves := [.up (.cmd 0)] }.moves = .up (.cmd 0) :: [] ∧ s.moves = [] ∧
      { s with moves := [.env .powerLoss] }.moves = .env .powerLoss :: [] := by decide +kernel

theorem witness_UnwrittenOperandFaults :
    s0.host.argAddrWritten = false ∧ s0.host.argLenWritten = false ∧
    ({ s0 with host := { s0.host with argLen := 16, argLenWritten := true } }.host.argLen.toNat ≤ tiny.dbufSize) ∧
    (let s := { args 0x10 8 [] s0 with host := { (args 0x10 8 [] s0).host with
       dbufWritten := List.replicate 7 true ++ List.replicate 9 false } }
     s.host.argLenWritten = true ∧ s.host.argLen.toNat ≤ s.cfg.dbufSize ∧
     (7 < s.host.argLen.toNat ∧ s.host.dbufWritten[7]? = some false) ∧
     s.host.argLen.toNat ≤ s.cfg.maxData ∧ s.host.argAddrWritten = true ∧
     rangeCovered s.cfg s.host.argAddr.toNat s.host.argLen.toNat = true) := by decide +kernel

theorem witness_RangeErrors_write :
    (let s := { s0 with host := { s0.host with argLen := 17, argLenWritten := true } }
     s.host.argAddrWritten = false ∧ s.host.argLenWritten = true ∧ s.cfg.dbufSize < s.host.argLen.toNat) ∧
    ((args 0x10 0 [] s0).host.argAddrWritten = true ∧ (args 0x10 0 [] s0).host.argLenWritten = true ∧
      (args 0x10 0 [] s0).host.argLen.toNat = 0) ∧
    2 ^ 32 < (args 0xFFFFFFFF 2 [] s0).host.argAddr.toNat + (args 0xFFFFFFFF 2 [] s0).host.argLen.toNat ∧
    (0x2F ≤ 0x30 ∧ 0x30 < 0x2F + 2 ∧
      ∀ e ∈ tiny.sectorTable, ¬(e.start ≤ 0x30 ∧ 0x30 < e.start + e.size)) := by decide +kernel

theorem witness_RangeErrors_erase_and_packets :
    (args 0x0F 2 [] s0).host.argAddrWritten = true ∧ (args 0x0F 2 [] s0).host.argLenWritten = true ∧
    (∀ e ∈ tiny.sectorTable, ¬(e.start ≤ 0x0F ∧ 0x0F < e.start + e.size)) ∧
    (∀ e ∈ tiny.sectorTable, ¬(e.start ≤ 0x2F + 2 - 1 ∧ 0x2F + 2 - 1 < e.start + e.size)) ∧
    tiny.maxData < (args 0 9 [] s0).host.argLen.toNat ∧
    tiny.dbufSize < (args 0 17 [] s0).host.argLen.toNat := by decide +kernel

theorem witness_InitCommandsReachTheResetValues :
    let s := { s0 with wait := .reset, env := { s0.env with nowTick := 7, waitSamples := [at_ 410] } }
    s.env.powerCut = none ∧ s.env.rxMb = [] ∧ s.env.waitSamples = [{ arrivals := [], tick := 410 }] ∧
      t35Ticks s.cfg.baud ≤ ((410 : Word) - s.env.nowTick).toNat ∧ s.wait = .reset := by decide +kernel

theorem witness_PowerLossKeepsFlashAndLosesRegisters :
    { s0 with moves := [.env .powerLoss] }.moves = .env .powerLoss :: [] ∧
    (let s := withGen 0x40 1 (withBoot (List.replicate 16 2) (flashAnswers [ans .ok, ans .ok] [] s0))
     s.env.noPowerLoss = true ∧ leaves (exec .nvmDone s) (fun t => decide (t.events.length = 2)) = true) ∧
    (let s := { s0 with wait := .mbInit 0 }
     s.env.noPowerLoss = true ∧ leaves (resumeWait s) (fun t => decide (t.events.length = 3)) = true) := by
  decide +kernel

theorem witness_EveryStepKeepsTheInvariant :
    let s := { args 0x1E 4 [1, 2, 3, 4] s0 with moves := [.up (.cmd 0x0100)] }
    s.Inv ∧ answers (Machine.step s) = true := by decide +kernel

theorem witness_FlashPortsStayCovered :
    (withGen 0x40 1 (withBoot (List.replicate 16 2) { s0 with moves := [.up (.cmd 0x0500)] })).Inv := by
  decide +kernel

/-- A state whose command in progress goes on. -/
def resumed : State := { s0 with wait := .mbInit 0, host := { s0.host with result := 5 } }

theorem witness_resumed : resumed.env.noPowerLoss = true ∧ answers (resumeWait resumed) = true ∧
    resumed.wait ≠ .reset := by decide +kernel

theorem witness_NoCommandWritesAnOperandRegister : s0.env.noPowerLoss = true ∧
    answers (exec .pfTransmit (args 0 1 [5] { s0 with env := { s0.env with txPfAnswers := [ans .ok, ans .ok] } })) = true ∧
    { s0.env with txPfAnswers := [ans .ok, ans .ok] }.noPowerLoss = true := by decide +kernel

theorem witness_OtherCommandsLeaveResult : s0.env.noPowerLoss = true ∧ answers (exec .crcInit s0) = true := by
  decide +kernel

theorem witness_PacketRegistersChangeOnlyOnDelivery : s0.env.noPowerLoss = true ∧
    answers (exec .crcInit s0) = true ∧ leaves (exec .pfPoll s0) (fun t => decide (t.host.result ≠ 1)) = true := by
  decide +kernel

theorem witness_UnitsAreIndependent : s0.env.noPowerLoss = true ∧ answers (exec .nvmVerifyChecksum s0) = true ∧
    answers (exec .pfPoll s0) = true ∧ answers (exec .mbPoll s0) = true ∧ answers (exec (.crcByte 1) s0) = true := by
  decide +kernel

/-- A block with the generic block open at 0x40 and the operands of a write of 4 bytes at `a`. -/
def writing (a : Nat) : State := withGen 0x40 1 (args a 4 [9, 8, 7, 6] s0)

theorem witness_WriteIntoOpenBlockStaysInRam : let s := writing 0x4C
    s.Inv ∧ s.hasRange 0x4C 4 ∧ s.hasPacket 4 ∧ 1 ≤ 4 ∧ 4 ≤ s.cfg.dbufSize ∧ rangeCovered s.cfg 0x4C 4 = true ∧
      0x4C % s.cfg.wbs + 4 ≤ s.cfg.wbs ∧ (s.block .gen).valid = true ∧
      (s.block .gen).base.toNat = 0x4C - 0x4C % s.cfg.wbs := by decide +kernel

theorem witness_FirstWriteOpensTheBlockFromFlash : let s := writing 0x10
    s.Inv ∧ s.env.powerCut = none ∧ s.hasRange 0x10 4 ∧ s.hasPacket 4 ∧ rangeCovered s.cfg 0x10 4 = true ∧
      0x10 % s.cfg.wbs + 4 ≤ s.cfg.wbs ∧ 0x10 = 0x10 - 0x10 % s.cfg.wbs ∧
      BlockId.boot = (if 0x10 = s.cfg.bootBase then .boot else .gen) ∧ (s.block .boot).valid = false := by
  decide +kernel

theorem witness_WriteElsewhereProgramsTheGenericBlock :
    let s := flashAnswers [ans .ok] [] (writing 0x20)
    s.Inv ∧ s.env.powerCut = none ∧ s.hasRange 0x20 4 ∧ s.hasPacket 4 ∧ 4 ≤ s.cfg.dbufSize ∧
      rangeCovered s.cfg 0x20 4 = true ∧ 0x20 % s.cfg.wbs + 4 ≤ s.cfg.wbs ∧ 0x20 = 0x20 - 0x20 % s.cfg.wbs ∧
      0x20 ≠ s.cfg.bootBase ∧ s.gen.valid = true ∧ s.gen.base.toNat ≠ 0x20 ∧ s.cfg.cryptoEnabled = false ∧
      s.flushEnv.verdictOf .program = .ok := by decide +kernel

/-- The same block with the crypto hook. -/
def writingCrypto (a : Nat) : State := withGen 0x40 1 (args a 4 [9, 8, 7, 6] (State.resetWith tinyCrypto))

theorem witness_WriteElsewhereProgramsTheGenericBlock_crypto :
    let s := flashAnswers [ans .ok] [ans .ok] (writingCrypto 0x20)
    s.Inv ∧ s.env.powerCut = none ∧ s.hasRange 0x20 4 ∧ s.hasPacket 4 ∧ rangeCovered s.cfg 0x20 4 = true ∧
      0x20 ≠ s.cfg.bootBase ∧ s.gen.valid = true ∧ s.gen.base.toNat ≠ 0x20 ∧ s.cfg.cryptoEnabled = true ∧
      s.env.verdictOf .decrypt = .ok ∧ s.flushEnv.verdictOf .program = .ok := by decide +kernel

theorem witness_FailedSwitchKeepsTheGenericBlock :
    let s := flashAnswers [ans .fail] [] (writing 0x20)
    s.Inv ∧ s.env.powerCut = none ∧ s.hasRange 0x20 4 ∧ s.hasPacket 4 ∧ rangeCovered s.cfg 0x20 4 = true ∧
      0x20 ≠ s.cfg.bootBase ∧ s.gen.valid = true ∧ s.gen.base.toNat ≠ 0x20 ∧ s.cfg.cryptoEnabled = false ∧
      s.flushEnv.verdictOf .program = .fail := by decide +kernel

theorem witness_FailedSwitchKeepsTheGenericBlock_decrypt :
    let s := flashAnswers [] [ans .fail] (writingCrypto 0x20)
    s.Inv ∧ s.env.powerCut = none ∧ s.hasRange 0x20 4 ∧ s.hasPacket 4 ∧ s.cfg.cryptoEnabled = true ∧
      s.env.verdictOf .decrypt = .fail := by decide +kernel

theorem witness_FailedSwitchKeepsTheGenericBlock_crypto :
    let s := flashAnswers [ans .fail] [ans .ok] (writingCrypto 0x20)
    s.Inv ∧ s.env.powerCut = none ∧ s.cfg.cryptoEnabled = true ∧ s.env.verdictOf .decrypt = .ok ∧
      s.flushEnv.verdictOf .program = .fail := by decide +kernel

theorem witness_WriteCompletesAndKeepsItsFrame :
    let s := { writing 0x1E with env := { s0.env with programAnswers := [ans .fail] } }
    s.Inv ∧ s.hasRange 0x1E 4 ∧ s.hasPacket 4 ∧ 4 ≤ s.cfg.dbufSize ∧ rangeCovered s.cfg 0x1E 4 = true ∧
      s.env.noPowerLoss = true := by decide +kernel

theorem witness_SplitWriteHasTheSameEffect : (writing 0x1E).Inv ∧ [(1 : Byte), 2] ≠ [] ∧ [(3 : Byte)] ≠ [] ∧
    rangeCovered (writing 0x1E).cfg 0x1E ([(1 : Byte), 2].length + [(3 : Byte)].length) = true := by decide +kernel

theorem witness_OnlyDoneProgramsTheBootBlock :
    (withBoot (List.replicate 16 2) (args 0x1E 4 [1, 2, 3, 4] s0)).Inv ∧ Instr.nvmWrite ≠ .nvmDone ∧
    answers (exec .nvmWrite (withBoot (List.replicate 16 2) (args 0x1E 4 [1, 2, 3, 4] s0))) = true := by decide +kernel

theorem witness_EraseErasesEveryTouchedSector :
    let s := { args 0x2F 0x12 [] s0 with env := { s0.env with eraseAnswers := [ans .ok, ans .ok] } }
    s.Inv ∧ s.env.powerCut = none ∧ s.hasRange 0x2F 0x12 ∧ 0x12 ≠ 0 ∧ 0x2F + 0x12 ≤ 2 ^ 32 ∧ covered s.cfg 0x2F = true ∧
      covered s.cfg (0x2F + 0x12 - 1) = true ∧
      s.env.verdictsOf .erase ((s.cfg.sectorTable.filter fun e => intersects e 0x2F 0x12).map Sector.size) =
        (s.cfg.sectorTable.filter fun e => intersects e 0x2F 0x12).map (fun _ => .ok) := by decide +kernel

theorem witness_EraseStopsAtTheFirstFailure :
    let s := { args 0x2F 0x12 [] s0 with env := { s0.env with eraseAnswers := [ans .ok, ans .fail] } }
    s.Inv ∧ s.env.powerCut = none ∧ s.hasRange 0x2F 0x12 ∧ covered s.cfg 0x2F = true ∧
      covered s.cfg (0x2F + 0x12 - 1) = true ∧
      (s.cfg.sectorTable.filter fun f => intersects f 0x2F 0x12) =
        [{ start := 0x40, size := 0x20, sectorId := 1, bankId := 0 }] ++
          { start := 0x10, size := 0x20, sectorId := 0, bankId := 0 } :: [] ∧
      s.env.verdictsOf .erase [0x20, 0x20] = [.ok, .fail] := by decide +kernel

theorem witness_WriteChecksumMakesTheImageSumToZero :
    s0.boot.valid = false ∧ (withBoot (List.replicate 16 2) s0).Inv ∧
      (withBoot (List.replicate 16 2) s0).boot.valid = true := by decide +kernel

theorem witness_DoneWithNothingOpenDoesNothing : s0.gen.valid = false ∧ s0.boot.valid = false := by decide +kernel

theorem witness_DoneProgramsGenericThenBoot :
    let s := withGen 0x40 1 (withBoot (List.replicate 16 2) (flashAnswers [ans .ok, ans .ok] [] s0))
    s.Inv ∧ s.env.powerCut = none ∧ s.gen.valid = true ∧ s.boot.valid = true ∧ s.cfg.cryptoEnabled = false ∧
      s.env.verdictsOf .program [s.cfg.wbs, s.cfg.wbs] = [.ok, .ok] := by decide +kernel

theorem witness_DoneProgramsGenericThenBoot_alone :
    let s := withBoot (List.replicate 16 2) (flashAnswers [ans .ok] [] s0)
    s.Inv ∧ s.env.powerCut = none ∧ s.gen.valid = false ∧ s.boot.valid = true ∧ s.cfg.cryptoEnabled = false ∧
      s.env.verdictOf .program = .ok := by decide +kernel

theorem witness_DoneProgramsGenericThenBoot_generic_alone :
    let s := withGen 0x40 1 (flashAnswers [ans .ok] [] s0)
    s.Inv ∧ s.env.powerCut = none ∧ s.gen.valid = true ∧ s.boot.valid = false ∧ s.cfg.cryptoEnabled = false ∧
      s.env.verdictOf .program = .ok := by decide +kernel

theorem witness_DoneStopsWhenTheGenericFlushFails :
    let s := withGen 0x40 1 (flashAnswers [ans .fail] [] s0)
    s.Inv ∧ s.env.powerCut = none ∧ s.gen.valid = true ∧ s.cfg.cryptoEnabled = false ∧
      s.env.verdictOf .program = .fail := by decide +kernel

theorem witness_DoneStopsWhenTheGenericFlushFails_boot :
    let s := withGen 0x40 1 (withBoot (List.replicate 16 2) (flashAnswers [ans .ok, ans .fail] [] s0))
    s.Inv ∧ s.env.powerCut = none ∧ s.gen.valid = true ∧ s.boot.valid = true ∧
      s.env.verdictsOf .program [s.cfg.wbs, s.cfg.wbs] = [.ok, .fail] := by decide +kernel

theorem witness_DoneStopsWhenTheGenericFlushFails_boot_alone :
    let s := withBoot (List.replicate 16 2) (flashAnswers [ans .fail] [] s0)
    s.Inv ∧ s.env.powerCut = none ∧ s.gen.valid = false ∧ s.boot.valid = true ∧
      s.env.verdictOf .program = .fail := by decide +kernel

/-- With the crypto hook and one block open. -/
def cryptoGen (program decrypt : List Answer) : State :=
  withGen 0x40 1 (flashAnswers program decrypt (State.resetWith tinyCrypto))

/-- With the crypto hook and the boot block open. -/
def cryptoBoot (program decrypt : List Answer) : State :=
  withBoot (List.replicate 16 2) (flashAnswers program decrypt (State.resetWith tinyCrypto))

theorem witness_DoneDecryptsBeforeItPrograms :
    let s := cryptoGen [ans .ok] [ans .ok]
    s.Inv ∧ s.env.powerCut = none ∧ (s.block .gen).valid = true ∧ (s.block .boot).valid = false ∧
      s.cfg.cryptoEnabled = true ∧ s.env.verdictOf .decrypt = .ok ∧ s.flushEnv.verdictOf .program = .ok := by
  decide +kernel

theorem witness_DoneDecryptsBeforeItPrograms_boot :
    let s := cryptoBoot [ans .ok] [ans .ok]
    s.Inv ∧ s.env.powerCut = none ∧ (s.block .boot).valid = true ∧ (s.block .gen).valid = false ∧
      s.cfg.cryptoEnabled = true ∧ s.env.verdictOf .decrypt = .ok ∧ s.flushEnv.verdictOf .program = .ok := by
  decide +kernel

theorem witness_DoneDecryptsBeforeItPrograms_refused :
    let s := cryptoBoot [ans .fail] [ans .ok]
    s.Inv ∧ s.env.powerCut = none ∧ (s.block .boot).valid = true ∧ (s.block .gen).valid = false ∧
      s.env.verdictOf .decrypt = .ok ∧ s.flushEnv.verdictOf .program = .fail := by decide +kernel

theorem witness_DoneDecryptsBeforeItPrograms_both :
    let s := withGen 0x40 1 (cryptoBoot [ans .ok, ans .ok] [ans .ok, ans .fail])
    s.Inv ∧ s.gen.valid = true ∧ s.boot.valid = true ∧ s.env.noPowerLoss = true ∧
      leaves (exec .nvmDone (s.setValid .boot false)) (fun u => decide (u.host.status ≠ 2)) = true := by
  decide +kernel

theorem witness_DoneDecryptsBeforeItPrograms_both_failure :
    let s := withGen 0x40 1 (cryptoBoot [] [ans .fail])
    s.Inv ∧ s.gen.valid = true ∧ s.boot.valid = true ∧ s.env.noPowerLoss = true ∧
      leaves (exec .nvmDone (s.setValid .boot false)) (fun u => decide (u.host.status = 2)) = true := by
  decide +kernel

theorem witness_DoneDecryptsBeforeItPrograms_failure :
    let f := cryptoGen [] [ans .fail]
    f.Inv ∧ f.env.powerCut = none ∧ (f.block .gen).valid = true ∧ (f.block .boot).valid = false ∧
      f.env.verdictOf .decrypt = .fail := by decide +kernel

theorem witness_PowerLossInDoneLeavesTheBootBlock :
    let s := withGen 0x40 1 (flashAnswers [ans .powerLoss] [] s0)
    s.Inv ∧ s.gen.valid = true ∧ s.cfg.cryptoEnabled = false ∧ s.env.powerCut = none ∧
      s.env.verdictOf .program = .powerLoss := by decide +kernel

theorem witness_PowerLossInDoneLeavesTheBootBlock_before :
    let s := (withGen 0x40 1 s0).withCut 0
    s.Inv ∧ s.gen.valid = true ∧ s.cfg.cryptoEnabled = false ∧ s.env.powerCut = some 0 := by decide +kernel

theorem witness_PowerLossInDoneLeavesTheBootBlock_between :
    let s := (withGen 0x40 1 (withBoot (List.replicate 16 2) (flashAnswers [ans .ok] [] s0))).withCut 1
    s.Inv ∧ s.gen.valid = true ∧ s.boot.valid = true ∧ s.cfg.cryptoEnabled = false ∧ s.env.powerCut = some 1 ∧
      s.env.verdictOf .program = .ok := by decide +kernel

theorem witness_PfTransmitSendsLengthThenPayload :
    let s := args 0 8 [] { s0 with env := { s0.env with defaultAnswer := some true } }
    s.Inv ∧ s.env.powerCut = none ∧ s.hasPacket 8 ∧ 8 ≤ s.cfg.maxData ∧
      s.env.verdictsOf .txPf (List.replicate (8 + 1) 0) = List.replicate (8 + 1) .ok := by decide +kernel

theorem witness_PfTransmitStopsAtTheFirstRefusedByte :
    let s := args 0 1 [5] { s0 with env := { s0.env with txPfAnswers := [ans .ok, ans .fail] } }
    s.Inv ∧ s.env.powerCut = none ∧ s.hasPacket 1 ∧ 1 ≤ s.cfg.maxData ∧
      s.env.verdictsOf .txPf (List.replicate (1 + 1) 0) = List.replicate 1 .ok ++ [.fail] := by decide +kernel

theorem witness_PfPollWithoutByteAppliesTheTimeout :
    let s := pfLine 100 [] (receiving 2 1 0 s0)
    s.env.powerCut = none ∧ s.env.rxPf = [] ∧ s.pf.state = .receiving ∧
      s.cfg.pfTimeoutMs ≤ (s.env.nowMs - s.pf.lastMs).toNat := by decide +kernel

theorem witness_PfPollTakesALengthByte :
    let s := pfLine 0 [8] s0
    s.Inv ∧ s.env.powerCut = none ∧ s.env.rxPf = 8 :: [] ∧ s.pf.state = .idle := by decide +kernel

theorem witness_PfPollTakesALengthByte_timeout :
    let s := pfLine 100 [9] (receiving 2 1 0 s0)
    s.Inv ∧ s.env.powerCut = none ∧ s.env.rxPf = 9 :: [] ∧ s.pf.state = .receiving ∧
      s.cfg.pfTimeoutMs ≤ (s.env.nowMs - s.pf.lastMs).toNat := by decide +kernel

theorem witness_PfPollTakesAPayloadByte :
    let s := pfLine 99 [0] (receiving 8 6 0 s0)
    s.Inv ∧ s.env.powerCut = none ∧ s.env.rxPf = 0 :: [] ∧ s.pf.state = .receiving ∧
      (s.env.nowMs - s.pf.lastMs).toNat < s.cfg.pfTimeoutMs ∧ s.pf.count.toNat + 1 < s.pf.expected.toNat := by
  decide +kernel

theorem witness_PfPollTakesAPayloadByte_last :
    let s := pfLine 99 [0] (receiving 1 0 0 s0)
    s.Inv ∧ s.env.powerCut = none ∧ s.env.rxPf = 0 :: [] ∧ s.pf.state = .receiving ∧
      (s.env.nowMs - s.pf.lastMs).toNat < s.cfg.pfTimeoutMs ∧ s.pf.count.toNat + 1 = s.pf.expected.toNat := by
  decide +kernel

theorem witness_CrcBlockFeedsItsBytesInOrder :
    (args 0 16 [] s0).Inv ∧ (args 0 16 [] s0).hasPacket 16 ∧ 16 ≤ (args 0 16 [] s0).cfg.dbufSize := by decide +kernel

theorem witness_CrcBlockFeedsItsBytesInOrder_empty :
    (args 0 0 [] s0).Inv ∧ (args 0 0 [] s0).hasPacket 0 := by decide +kernel

theorem witness_CrcBlockFeedsItsBytesInOrder_tooLong :
    (args 0 17 [] s0).Inv ∧ (args 0 17 [] s0).host.argLenWritten = true ∧
      (args 0 17 [] s0).host.argLen.toNat = 17 ∧ (args 0 17 [] s0).cfg.dbufSize < 17 := by decide +kernel

theorem witness_CrcDetectsOneChangedByte : (0x80 : Byte) ≠ 0x81 := by decide +kernel

theorem witness_T35IsTheCeilingPlusOne : 1 ≤ 19200 ∧ 19200 ≤ 19200 ∧ 1 ≤ 19201 ∧ 19200 < 19201 := by decide +kernel

theorem witness_MbInitEndsAfterT35OfSilence :
    let s := { s0 with env := { s0.env with nowTick := 0, waitSamples := [at_ 402, at_ 403, at_ 900] } }
    s.env.powerCut = none ∧ s.env.rxMb = [] ∧ s.env.waitSamples = [at_ 402] ++ at_ 403 :: [at_ 900] ∧
      (∀ u ∈ [at_ 402], u.arrivals = [] ∧ (u.tick - s.env.nowTick).toNat < t35Ticks s.cfg.baud) ∧
      (at_ 403).arrivals = [] ∧ t35Ticks s.cfg.baud ≤ ((at_ 403).tick - s.env.nowTick).toNat := by decide +kernel

theorem witness_MbInitEndsAfterT35OfSilence_resumed :
    let s := { s0 with
      wait := .mbInit 7, env := { s0.env with nowTick := 300, waitSamples := [at_ 409, at_ 410, at_ 900] } }
    s.env.powerCut = none ∧ s.env.rxMb = [] ∧ s.env.waitSamples = [at_ 409] ++ at_ 410 :: [at_ 900] ∧
      s.wait = .mbInit 7 ∧ (∀ u ∈ [at_ 409], u.arrivals = [] ∧ (u.tick - 7).toNat < s.mb.t35.toNat) ∧
      (at_ 410).arrivals = [] ∧ s.mb.t35.toNat ≤ ((at_ 410).tick - 7).toNat := by decide +kernel

/-- A sample of NOW_TICK with one byte arriving before it. -/
def byteAt (b : Byte) (t : Nat) : WaitSample := { arrivals := [b], tick := BitVec.ofNat 32 t }

theorem witness_MbInitKeepsWaitingWhileBytesArrive :
    let s (v : Nat) := { s0 with env := { s0.env with nowTick := 0, waitSamples := [byteAt 0x55 100, at_ v] } }
    ((s 503).env.powerCut = none ∧ (s 503).env.rxMb ++ (byteAt 0x55 100).arrivals = [0x55] ∧
      (at_ 503).arrivals = [] ∧ (s 503).env.waitSamples = [byteAt 0x55 100, at_ 503] ∧
      (byteAt 0x55 100).tick ≠ (s 503).env.nowTick ∧
      t35Ticks tiny.baud ≤ ((at_ 503).tick - (byteAt 0x55 100).tick).toNat) ∧
    ((s 502).env.waitSamples = [byteAt 0x55 100, at_ 502] ∧
      ((at_ 502).tick - (byteAt 0x55 100).tick).toNat < t35Ticks tiny.baud ∧
      t35Ticks tiny.baud ≤ ((at_ 502).tick - (s 502).env.nowTick).toNat) := by decide +kernel

/-- A fragment waits on the line as MB_INIT starts. -/
theorem witness_MbInitKeepsWaitingWhileBytesArrive_waiting :
    (let s := { mbLine 0 [0x55] s0 with env := { (mbLine 0 [0x55] s0).env with waitSamples := [at_ 100, at_ 503] } }
     s.env.powerCut = none ∧ s.env.rxMb ++ (at_ 100).arrivals = [0x55] ∧ (at_ 503).arrivals = [] ∧
       s.env.waitSamples = [at_ 100, at_ 503] ∧ t35Ticks s.cfg.baud ≤ ((at_ 503).tick - (at_ 100).tick).toNat) ∧
    (let s := { s0 with env := { s0.env with rxMb := [1, 2, 3], waitSamples := [at_ 5, at_ 90, at_ 100, at_ 503] } }
     s.env.powerCut = none ∧ s.env.rxMb = [1, 2] ++ [3] ∧
       s.env.waitSamples = [at_ 5, at_ 90] ++ at_ 100 :: at_ 503 :: [] ∧ [at_ 5, at_ 90].length = [(1 : Byte), 2].length ∧
       (∀ u ∈ [at_ 5, at_ 90], u.arrivals = []) ∧ (at_ 100).arrivals = [] ∧ (at_ 503).arrivals = [] ∧
       t35Ticks s.cfg.baud ≤ ((at_ 503).tick - (at_ 100).tick).toNat) ∧
    (let s := mbLine 900 [1, 2] s0
     s.env.powerCut = none ∧ s.env.rxMb = 1 :: [2] ∧ s.env.waitSamples = []) := by decide +kernel

theorem witness_MbInitKeepsWaitingWhileBytesArrive_silent :
    (let s := { s0 with env := { s0.env with nowTick := 0, waitSamples := [at_ 402] } }
     s.env.powerCut = none ∧ s.env.rxMb = [] ∧ (at_ 402).arrivals = [] ∧ s.env.waitSamples = [at_ 402] ∧
       ((at_ 402).tick - s.env.nowTick).toNat < t35Ticks s.cfg.baud) ∧
    (let s := mbLine 900 [0x55] { s0 with wait := .mbInit 0 }
     s.env.powerCut = none ∧ s.wait = .mbInit 0 ∧ s.env.rxMb = 0x55 :: [] ∧ s.env.waitSamples = []) := by
  decide +kernel

theorem witness_MbPollTakesAByteBeforeTheBoundary :
    (let s := mbLine 1407 [] (holding [1] s0)
     s.env.powerCut = none ∧ (s.env.nowTick - s.mb.lastTick).toNat < s.mb.t35.toNat ∧ s.env.rxMb = []) ∧
    (let s := mbLine 1407 [7] (holding (List.replicate 13 1) s0)
     s.env.powerCut = none ∧ (s.env.nowTick - s.mb.lastTick).toNat < s.mb.t35.toNat ∧ s.env.rxMb = 7 :: [] ∧
     s.mb.count = s.cfg.maxData + 5) := by decide +kernel

/-- The poll of a receiver that holds the frame of `p`, on a line with `line` waiting. -/
def delivering (c : Config) (p line : List Byte) : State :=
  mbLine 1408 line (holding (frame c p) (State.resetWith c))

theorem witness_MbPollDeliversAValidFrame :
    let s := delivering tiny [0xAA] []
    let p : List Byte := [0xAA]
    let body : List Byte := [s.cfg.nodeId, s.cfg.functionCode, BitVec.ofNat 8 p.length] ++ p
    s.Inv ∧ s.env.powerCut = none ∧ 1 ≤ p.length ∧ p.length ≤ s.cfg.maxData ∧ s.mb.sync = false ∧
      s.mb.count = p.length + 5 ∧
      s.mb.buf.take s.mb.count = body ++ [(crc16 body).setWidth 8, (crc16 body >>> 8).setWidth 8] ∧
      s.mb.t35.toNat ≤ (s.env.nowTick - s.mb.lastTick).toNat ∧ s.env.rxMb = [] := by decide +kernel

/-- V-MB-7b: the empty payload, where it is accepted, in a poll whose byte starts the next frame. -/
theorem witness_MbPollDeliversAValidFrame_empty :
    let s := delivering tinyEmpty [] [0x01]
    s.Inv ∧ s.env.powerCut = none ∧ s.cfg.mbAcceptEmpty = true ∧ s.mb.sync = false ∧ s.mb.count = 5 ∧
      s.mb.buf.take s.mb.count = [0x01, 0x50, 0x00, 0x1C, 0x00] ∧
      s.mb.t35.toNat ≤ (s.env.nowTick - s.mb.lastTick).toNat ∧ s.env.rxMb = 0x01 :: [] := by decide +kernel

/-- V-MB-8: four bytes with a matching CRC fail the length check. -/
theorem witness_MbPollDropsAnInvalidFrame :
    let s := mbLine 1408 [] (holding [0x01, 0x50, 0x00, 0x1C] s0)
    s.Inv ∧ s.env.powerCut = none ∧ s.mb.sync = false ∧ 4 ≤ s.mb.count ∧
      [0x01, 0x50, 0x00, 0x1C] = s.mb.buf.take s.mb.count ∧
      (([0x01, 0x50, 0x00, 0x1C] : List Byte).getD 2 0).toNat + 5 ≠ 4 ∧
      s.mb.t35.toNat ≤ (s.env.nowTick - s.mb.lastTick).toNat ∧ s.env.rxMb = [] := by decide +kernel

/-- V-MB-7: an empty payload that is not accepted, in a poll whose byte starts the next frame. -/
theorem witness_MbPollDropsAnInvalidFrame_empty :
    let s := delivering tiny [] [0x01]
    s.Inv ∧ s.env.powerCut = none ∧ s.mb.sync = false ∧ 4 ≤ s.mb.count ∧
      (s.mb.buf.take s.mb.count).getD 2 0 = 0 ∧ s.cfg.mbAcceptEmpty = false ∧
      s.mb.t35.toNat ≤ (s.env.nowTick - s.mb.lastTick).toNat ∧ s.env.rxMb = 0x01 :: [] := by decide +kernel

theorem witness_MbPollEndsResyncAndDropsFragments :
    (let s := mbLine 1408 [] (holding [1, 2, 3] s0)
     s.env.powerCut = none ∧ s.env.rxMb = [] ∧ s.mb.t35.toNat ≤ (s.env.nowTick - s.mb.lastTick).toNat ∧
       s.mb.sync = false ∧
     s.mb.count ≤ 3) ∧
    (let s := mbLine 1408 [] { holding [] s0 with mb := { (holding [] s0).mb with sync := true } }
     s.env.powerCut = none ∧ s.env.rxMb = [] ∧ s.mb.t35.toNat ≤ (s.env.nowTick - s.mb.lastTick).toNat ∧
       s.mb.sync = true) := by
  decide +kernel

theorem witness_MbPollStartsANewFrameAfterSilence :
    let s := mbLine 1408 [9] (holding (List.replicate 13 1) s0)
    s.Inv ∧ s.env.powerCut = none ∧ s.env.rxMb = 9 :: [] ∧ s.mb.t35.toNat ≤ (s.env.nowTick - s.mb.lastTick).toNat := by
  decide +kernel

/-- The block with delays, its operands and a scripted environment (V-MB-30). -/
def transmitting (answers : List Answer) (samples : List WaitSample) : State :=
  let r := State.resetWith tinyDelays
  args 0 1 [0xAA] { r with env := { r.env with nowTick := 100, txMbAnswers := answers, waitSamples := samples } }

theorem witness_MbTransmitSendsTheFrameUnderDriverEnable :
    let s := transmitting (List.replicate 6 (ans .ok)) [at_ 102, at_ 105, at_ 200, at_ 201, at_ 203, at_ 300]
    s.Inv ∧ s.env.powerCut = none ∧ s.hasPacket 1 ∧ 1 ≤ s.cfg.maxData ∧
      s.env.waitSamples = [at_ 102] ++ at_ 105 :: at_ 200 :: ([at_ 201] ++ at_ 203 :: [at_ 300]) ∧
      (∀ x ∈ [at_ 102], (x.tick - s.env.nowTick).toNat < s.cfg.mbPreDelayTicks) ∧
      s.cfg.mbPreDelayTicks ≤ ((at_ 105).tick - s.env.nowTick).toNat ∧
      (∀ x ∈ [at_ 201], (x.tick - (at_ 200).tick).toNat < s.cfg.mbPostDelayTicks) ∧
      s.cfg.mbPostDelayTicks ≤ ((at_ 203).tick - (at_ 200).tick).toNat ∧
      s.env.verdictsOf .txMb (List.replicate (1 + 5) 0) = List.replicate (1 + 5) .ok := by decide +kernel

theorem witness_MbTransmitSendsTheFrameUnderDriverEnable_resumed :
    let s := { transmitting (List.replicate 2 (ans .ok)) [at_ 102, at_ 105, at_ 200, at_ 201, at_ 203] with
      wait := .mbPre 100 ([7] ++ [8]) }
    s.env.powerCut = none ∧ s.wait = .mbPre 100 ([7] ++ [8]) ∧
      s.env.waitSamples = [at_ 102] ++ at_ 105 :: at_ 200 :: ([at_ 201] ++ at_ 203 :: []) ∧
      (∀ x ∈ [at_ 201], (x.tick - (at_ 200).tick).toNat < s.cfg.mbPostDelayTicks) ∧
      s.cfg.mbPostDelayTicks ≤ ((at_ 203).tick - (at_ 200).tick).toNat ∧
      (∀ x ∈ [at_ 102], (x.tick - 100).toNat < s.cfg.mbPreDelayTicks) ∧
      s.cfg.mbPreDelayTicks ≤ ((at_ 105).tick - 100).toNat ∧
      s.env.verdictsOf .txMb (List.replicate (1 + 1) 0) = List.replicate (1 + 1) .ok := by decide +kernel

theorem witness_MbTransmitReleasesTheDriverOnFailure :
    let s := transmitting [ans .ok, ans .fail] [at_ 102, at_ 105, at_ 200, at_ 201, at_ 203]
    s.Inv ∧ s.env.powerCut = none ∧ s.hasPacket 1 ∧ 1 ≤ s.cfg.maxData ∧ 1 < 1 + 5 ∧
      s.env.waitSamples = [at_ 102] ++ at_ 105 :: at_ 200 :: ([at_ 201] ++ at_ 203 :: []) ∧
      (∀ x ∈ [at_ 102], (x.tick - s.env.nowTick).toNat < s.cfg.mbPreDelayTicks) ∧
      s.cfg.mbPreDelayTicks ≤ ((at_ 105).tick - s.env.nowTick).toNat ∧
      (∀ x ∈ [at_ 201], (x.tick - (at_ 200).tick).toNat < s.cfg.mbPostDelayTicks) ∧
      s.cfg.mbPostDelayTicks ≤ ((at_ 203).tick - (at_ 200).tick).toNat ∧
      s.env.verdictsOf .txMb (List.replicate (1 + 1) 0) = List.replicate 1 .ok ++ [.fail] := by decide +kernel

theorem witness_MbTransmitReleasesTheDriverOnFailure_resumed :
    let s := { transmitting [] [at_ 201, at_ 203] with wait := .mbPost 200 false }
    s.env.powerCut = none ∧ s.wait = .mbPost 200 false ∧ s.env.waitSamples = [at_ 201] ++ at_ 203 :: [] ∧
      (∀ x ∈ [at_ 201], (x.tick - 200).toNat < s.cfg.mbPostDelayTicks) ∧
      s.cfg.mbPostDelayTicks ≤ ((at_ 203).tick - 200).toNat := by decide +kernel

theorem witness_MbTransmitWithoutCounterMoves : let s := transmitting [] []
    s.Inv ∧ s.env.powerCut = none ∧ s.hasPacket 1 ∧ 1 ≤ s.cfg.maxData ∧ s.env.waitSamples = [] ∧
      0 < s.cfg.mbPreDelayTicks := by
  decide +kernel

theorem witness_MbTransmitWithoutCounterMoves_completes :
    let s := args 0 8 [] { s0 with env := { s0.env with defaultAnswer := some true } }
    s.Inv ∧ s.env.powerCut = none ∧ s.hasPacket 8 ∧ 8 ≤ s.cfg.maxData ∧ s.env.waitSamples = [] ∧
      s.cfg.mbPreDelayTicks = 0 ∧
      s.cfg.mbPostDelayTicks = 0 ∧
      s.env.verdictsOf .txMb (List.replicate (8 + 5) 0) = List.replicate (8 + 5) .ok := by decide +kernel

/-- The block with a post-delay alone, its operands and the answers of the transmit port. -/
def postDelayed (answers : List Answer) : State :=
  let r := State.resetWith { tinyParams with mbPostDelayTicks := 3, valid := by decide }
  args 0 1 [0xAA] { r with env := { r.env with txMbAnswers := answers } }

theorem witness_MbTransmitWithoutCounterMoves_post_delay :
    let s := postDelayed (List.replicate 6 (ans .ok))
    s.Inv ∧ s.env.powerCut = none ∧ s.hasPacket 1 ∧ 1 ≤ s.cfg.maxData ∧ s.env.waitSamples = [] ∧
      s.cfg.mbPreDelayTicks = 0 ∧ s.cfg.mbPostDelayTicks ≠ 0 ∧
      s.env.verdictsOf .txMb (List.replicate (1 + 5) 0) = List.replicate (1 + 5) .ok := by decide +kernel

theorem witness_MbTransmitWithoutCounterMoves_refused :
    let s := postDelayed (List.replicate 5 (ans .ok) ++ [ans .fail])
    s.Inv ∧ s.env.powerCut = none ∧ s.hasPacket 1 ∧ s.env.waitSamples = [] ∧ 5 < 1 + 5 ∧
      s.cfg.mbPreDelayTicks = 0 ∧ s.cfg.mbPostDelayTicks ≠ 0 ∧
      s.env.verdictsOf .txMb (List.replicate (5 + 1) 0) = List.replicate 5 .ok ++ [.fail] := by decide +kernel

theorem witness_MbTransmitWithoutCounterMoves_resumed :
    let s := transmitting [] []
    s.env.powerCut = none ∧ s.env.waitSamples = [] ∧
      { s with wait := .mbPre 96 [1] }.wait = .mbPre 96 [1] ∧ (s.env.nowTick - 96).toNat < s.cfg.mbPreDelayTicks ∧
      { s with wait := .mbPost 98 true }.wait = .mbPost 98 true ∧
      (s.env.nowTick - 98).toNat < s.cfg.mbPostDelayTicks := by decide +kernel

/-- What a part of a command answers, if it goes on. -/
def okOf {α : Type} (r : Res α) : Option α :=
  match r with
  | .ok a _ => some a
  | .ended _ => none
  | .fault _ => none

theorem witness_ProgrammedBlockReadsBack :
    let s := { s0 with env := { s0.env with programAnswers := [ans .ok] } }
    let f := { s0 with env := { s0.env with programAnswers := [ans .fail] } }
    s.FlashOk ∧ s.env.powerCut = none ∧ okOf (programBlock 0x40 (List.replicate 16 3) s) = some true ∧
      f.FlashOk ∧ f.env.powerCut = none ∧ okOf (programBlock 0x40 (List.replicate 16 3) f) = some false := by
  decide +kernel

theorem witness_UpstreamReadsBackItsWrites : s0.Inv ∧ 15 < s0.cfg.dbufSize := by decide +kernel

theorem witness_UpstreamReadsBackItsWrites_delivered :
    let s := { s0 with host := { s0.host with
      pktLen := 8, pktData := List.replicate 8 6, pktLenWritten := true, pktDataWritten := 8 } }
    s.Inv ∧ s.host.pktLenWritten = true ∧ 7 < s.host.pktDataWritten := by decide +kernel

theorem witness_UpstreamReadsBackItsWrites_unwritten :
    s0.Inv ∧ s0.host.cmdWritten = false ∧ s0.host.argAddrWritten = false ∧ s0.host.argLenWritten = false ∧
      s0.host.dbufWritten[15]? = some false ∧ s0.host.pktLenWritten = false ∧
      s0.host.pktDataWritten ≤ 0 ∧ s0.host.pktDataWritten ≤ 7 ∧ 7 < s0.cfg.maxData := by decide +kernel

theorem witness_UpstreamReadsBackItsWrites_step :
    let s := { s0 with moves := [.up (.read (.pktData 7))] }
    s.Inv ∧ s.moves = .up (.read (.pktData 7)) :: [] ∧ s.wait = .idle ∧
      (UpMove.read (.pktData 7)).wf s.cfg.toParams = true := by decide +kernel

end Sys2Proof.Tests
end

