-- ==== Sys2Proof/Proofs/NvmInitVerifyBase.lean ====
section
/-! PROOFS. NVM_INIT, PF_INIT and CRC_INIT, NVM_GET_USER_PROGRAM_BASE and NVM_VERIFY_CHECKSUM
(spec/40_nvm_block.md R79, R87, R91; spec/41_packet_framer.md R92; spec/42_crc16.md R103). -/

namespace Sys2Proof.Machine

open Sys2Proof

/-! ## The init commands -/

/-- R79: both FlashBlocks become INVALID; their bases and buffers stay. -/
theorem exec_nvmInit (s : State) : exec .nvmInit s = .next { s with
    gen := { s.gen with valid := false }, boot := { s.boot with valid := false },
    host := { s.host with status := 0 } } := rfl

/-- R92: the framer is IDLE with no byte counted; the rest of its state stays. -/
theorem exec_pfInit (s : State) : exec .pfInit s = .next { s with
    pf := { s.pf with state := .idle, count := 0 }, host := { s.host with status := 0 } } := rfl

/-- R103: the remainder takes its initial value. -/
theorem exec_crcInit (s : State) :
    exec .crcInit s = .next { s with crcReg := 0xFFFF, host := { s.host with status := 0 } } := rfl

/-- Settles O19: the effect of each command, and the three words by evaluating the encoder. -/
theorem initCommandsWriteTheirOwnUnit : Obligations.InitCommandsWriteTheirOwnUnit := fun s =>
  ⟨exec_nvmInit s, exec_pfInit s, exec_crcInit s, rfl, rfl, rfl⟩

/-! ## The base of the user program -/

/-- R91: RESULT takes BOOT_BASE. -/
theorem exec_nvmGetUserProgramBase (s : State) : exec .nvmGetUserProgramBase s = .next { s with
    host := { s.host with result := BitVec.ofNat 32 s.cfg.bootBase, status := 0 } } := rfl

/-- Settles O20: the value returned is BOOT_BASE, which every configuration has as its least start. -/
theorem userProgramBaseIsTheLowestSectorStart : Obligations.UserProgramBaseIsTheLowestSectorStart := by
  intro s
  obtain ⟨hstart, hleast⟩ := s.cfg.bootBase_spec
  exact ⟨s.cfg.bootBase, hstart, hleast, exec_nvmGetUserProgramBase s, rfl⟩

/-! ## The words of the first write block in flash -/

@[simp] theorem State.flashWord_record (s : State) (e : Event) (a : Nat) :
    (s.record e).flashWord a = s.flashWord a := rfl

/-- R41: every vector word ends inside the first write block. -/
theorem vectorWord_le_wbs (c : Config) {k : Nat} (hk : k < c.csWordCount) :
    k * c.csBytes + c.csBytes ≤ c.wbs := by
  obtain ⟨-, hfield, -, hvectors, -⟩ := c.checksum
  calc k * c.csBytes + c.csBytes = (k + 1) * c.csBytes := (Nat.succ_mul k c.csBytes).symm
    _ ≤ c.csWordCount * c.csBytes := Nat.mul_le_mul_right _ hk
    _ ≤ c.wbs := by omega

/-- R38, R43: a word that lies in the first write block is read from flash with one call. -/
theorem flashRead_bootWord {s : State} {off : Nat} (hp : s.env.powerCut = none)
    (h : off + s.cfg.csBytes ≤ s.cfg.wbs) :
    flashRead (s.cfg.bootBase + off) s.cfg.csBytes s = .ok (s.flashBytes (s.cfg.bootBase + off) s.cfg.csBytes)
      (s.record (.flashRead (s.cfg.bootBase + off) s.cfg.csBytes)) := by
  have hpos : 1 ≤ s.cfg.csBytes := by
    rcases s.cfg.checksum.1 with ⟨-, hb⟩ | ⟨-, hb⟩ <;> omega
  exact flashRead_on hp (rangeCovered_part s.cfg.boot_covered hpos (by omega) (by omega))

/-! ## The summing loop of NVM_VERIFY_CHECKSUM -/

/-- R87: the `n` vector words in flash from word `k` on. -/
def State.vectorWords (s : State) (k n : Nat) : List Nat :=
  (List.range' k n).map fun i => s.flashWord (s.cfg.bootBase + i * s.cfg.csBytes)

/-- The calls that read the `n` vector words from word `k` on. -/
def vectorReads (c : Config) (k n : Nat) : List Event :=
  (List.range' k n).map fun i => .flashRead (c.bootBase + i * c.csBytes) c.csBytes

theorem State.vectorWords_succ (s : State) (k n : Nat) :
    s.vectorWords k (n + 1) = s.flashWord (s.cfg.bootBase + k * s.cfg.csBytes) :: s.vectorWords (k + 1) n := rfl

theorem vectorReads_succ (c : Config) (k n : Nat) :
    vectorReads c k (n + 1) = .flashRead (c.bootBase + k * c.csBytes) c.csBytes :: vectorReads c (k + 1) n := rfl

@[simp] theorem State.vectorWords_record (s : State) (e : Event) (k n : Nat) :
    (s.record e).vectorWords k n = s.vectorWords k n := rfl

/-- The loop adds the vector words modulo 2^CS_WIDTH. It records one FlashRead a word and changes nothing else. -/
theorem verifySum_on (k n sum : Nat) {s : State} (hp : s.env.powerCut = none) (hk : k + n ≤ s.cfg.csWordCount) :
    ∃ r, r % 2 ^ s.cfg.csWidth = (sum + (s.vectorWords k n).sum) % 2 ^ s.cfg.csWidth ∧
      verifySum k n sum s = .ok r { s with events := s.events ++ vectorReads s.cfg k n } := by
  induction n generalizing k sum s with
  | zero => exact ⟨sum, rfl, by simp [verifySum, vectorReads]⟩
  | succ n ih =>
    have hread := flashRead_bootWord hp (vectorWord_le_wbs s.cfg (k := k) (by omega))
    obtain ⟨r, hr, hloop⟩ := ih (k + 1)
      ((sum + s.flashWord (s.cfg.bootBase + k * s.cfg.csBytes)) % 2 ^ s.cfg.csWidth)
      (s := s.record (.flashRead (s.cfg.bootBase + k * s.cfg.csBytes) s.cfg.csBytes)) hp
      (show k + 1 + n ≤ s.cfg.csWordCount by omega)
    refine ⟨r, ?_, ?_⟩
    · simpa [State.vectorWords_succ, Nat.add_assoc] using hr
    · rw [verifySum, hread, Res.bind_ok]
      refine hloop.trans ?_
      simp [vectorReads_succ, State.record]

/-- Settles O31: the loop over the vector words, one more FlashRead for the stored word, and the test of their sum. -/
theorem verifyChecksumTestsTheSumInFlash : Obligations.VerifyChecksumTestsTheSumInFlash := by
  intro s hp
  refine ⟨?_, rfl⟩
  obtain ⟨-, hfield, -⟩ := s.cfg.checksum
  obtain ⟨r, hr, hloop⟩ := verifySum_on 0 s.cfg.csWordCount 0 hp (by omega)
  have hread := flashRead_bootWord
    (s := { s with events := s.events ++ vectorReads s.cfg 0 s.cfg.csWordCount }) hp hfield
  have hsum : (r + s.flashWord (s.cfg.bootBase + s.cfg.csOffset)) % 2 ^ s.cfg.csWidth =
      ((s.vectorWords 0 s.cfg.csWordCount).sum + s.flashWord (s.cfg.bootBase + s.cfg.csOffset)) %
        2 ^ s.cfg.csWidth := by
    rw [Nat.add_mod, hr, Nat.zero_add, ← Nat.add_mod]
  have hexec : exec .nvmVerifyChecksum s = .next ((State.setResult
      { s with events := s.events ++ vectorReads s.cfg 0 s.cfg.csWordCount ++
        [.flashRead (s.cfg.bootBase + s.cfg.csOffset) s.cfg.csBytes] }
      (if (r + s.flashWord (s.cfg.bootBase + s.cfg.csOffset)) % 2 ^ s.cfg.csWidth = 0 then 1 else 0)).setStatus
        .ok) := by
    change execNvmVerifyChecksum s = _
    rw [execNvmVerifyChecksum, hloop, Res.bind_ok, hread, Res.bind_ok]
    rfl
  rw [hexec, hsum, List.range_eq_range']
  rfl

end Sys2Proof.Machine
end

