-- ==== Sys2Proof/Proofs/PfPollPayload.lean ====
section
/-! PROOFS. A payload byte of PF_POLL (spec/41_packet_framer.md R95, R96, R98). -/

namespace Sys2Proof.Machine

open Sys2Proof

/-! ## The parts of a poll -/

/-- R96: before PF_TIMEOUT_MS has passed the timeout rule changes nothing. -/
theorem pfTimeout_early {now : Word} {s : State} (h : elapsed now s.pf.lastMs < s.cfg.pfTimeoutMs) :
    pfTimeout now s = s :=
  if_neg fun hlate => Nat.not_le.2 h hlate.2

/-- The state a poll has come to once it has taken the waiting byte `b`, with `bs` still to come (R95): RESULT is cleared
and its two port calls are recorded. -/
def State.polledPf (s : State) (b : Byte) (bs : List Byte) : State :=
  { s with
    host := { s.host with result := 0 }
    env := { s.env with rxPf := bs }
    events := s.events ++ [.nowMs s.env.nowMs, .rxPf (some b)] }

/-- R95, R98: a poll in RECEIVING before the timeout hands the waiting byte to PF_Recv. -/
theorem exec_pfPoll_receiving {s : State} {b : Byte} {bs : List Byte} (hpow : s.env.powerCut = none)
    (hrx : s.env.rxPf = b :: bs) (hrecv : s.pf.state = .receiving)
    (hearly : elapsed s.env.nowMs s.pf.lastMs < s.cfg.pfTimeoutMs) :
    exec .pfPoll s = .next ((pfRecv b s.env.nowMs (s.polledPf b bs)).setStatus .ok) := by
  have htimeout : pfTimeout s.env.nowMs ((s.record (.nowMs s.env.nowMs)).setResult 0) =
      (s.record (.nowMs s.env.nowMs)).setResult 0 := pfTimeout_early hearly
  have hrxByte : rxBytePf ((s.record (.nowMs s.env.nowMs)).setResult 0) = .ok (some b) (s.polledPf b bs) := by
    rw [rxBytePf_on (by exact hpow)]
    simp [hrx, State.polledPf, State.record, State.setResult]
  have htake : pfTake (some b) s.env.nowMs (s.polledPf b bs) = pfRecv b s.env.nowMs (s.polledPf b bs) :=
    if_neg (by simp [State.polledPf, hrecv])
  change execPfPoll s = _
  rw [execPfPoll, readMs_on hpow, Res.bind_ok, htimeout, hrxByte, Res.bind_ok, htake, Res.finish_ok]

/-! ## PF_Recv on a byte that continues the packet, and on the last one -/

/-- R98: a byte that leaves PF_COUNT below PF_EXPECTED is accumulated. -/
theorem pfRecv_continues {b : Byte} {now : Word} {s : State} (h : s.pf.count.toNat + 1 < s.pf.expected.toNat) :
    pfRecv b now s = { s with pf := { s.pf with
      buf := s.pf.buf.set s.pf.count.toNat b
      count := BitVec.ofNat 8 (s.pf.count.toNat + 1)
      lastMs := now } } := by
  have hcount : s.pf.count + 1 = BitVec.ofNat 8 (s.pf.count.toNat + 1) := by bv_omega
  have hmore : s.pf.count + 1 ≠ s.pf.expected := by bv_omega
  rw [pfRecv, if_neg hmore, hcount]

/-- The first `i + 1` elements after element `i` is replaced. -/
theorem take_succ_set {α : Type} {l : List α} {i : Nat} (a : α) (h : i < l.length) :
    (l.set i a).take (i + 1) = l.take i ++ [a] := by
  simp [List.take_add_one, List.take_set_of_le, h]

/-- R98: the byte that brings PF_COUNT to PF_EXPECTED delivers the accumulated bytes with it and ends in IDLE. -/
theorem pfRecv_completes {b : Byte} {now : Word} {s : State} (hfits : s.pf.count.toNat < s.pf.buf.length)
    (h : s.pf.count.toNat + 1 = s.pf.expected.toNat) :
    pfRecv b now s = State.deliver { s with pf := { s.pf with
      state := .idle, count := 0, lastMs := now, buf := s.pf.buf.set s.pf.count.toNat b } }
      s.pf.expected (s.pf.buf.take s.pf.count.toNat ++ [b]) := by
  have hlast : s.pf.count + 1 = s.pf.expected := by bv_omega
  rw [pfRecv, if_pos hlast, ← h, take_succ_set b hfits]

/-- Settles O41: the two cases of PF_Recv. In the second, R28 keeps PF_COUNT inside PF_BUF, so the delivered payload has
PF_EXPECTED bytes. -/
theorem pfPollTakesAPayloadByte : Obligations.PfPollTakesAPayloadByte := by
  intro s b bs hinv hpow hrx hrecv hearly
  rw [exec_pfPoll_receiving hpow hrx hrecv hearly]
  constructor
  · intro hmore
    rw [pfRecv_continues (s := s.polledPf b bs) hmore]
    rfl
  · intro hlast
    obtain ⟨-, -, -, -, ⟨hbuf, hbounds, -⟩, -⟩ := hinv
    obtain ⟨-, hmax, hlt⟩ := hbounds hrecv
    have hfits : s.pf.count.toNat < s.pf.buf.length := by omega
    have hlen : (s.pf.buf.take s.pf.count.toNat ++ [b]).length = s.pf.expected.toNat := by
      rw [List.length_append, List.length_take_of_le hfits.le, List.length_singleton, hlast]
    rw [pfRecv_completes (s := s.polledPf b bs) hfits hlast, ← hlen]
    rfl

end Sys2Proof.Machine
end

