-- ==== Sys2Proof/Proofs/CrcBlock.lean ====
section
/-! PROOFS. CRC_BLOCK (spec/42_crc16.md R105). -/

namespace Sys2Proof.Machine

open Sys2Proof

/-- An operand read of DBUF, where every byte it takes was written (spec/10_state.md R36). -/
theorem readData_written {s : State} {n : Nat} (h : ∀ i, i < n → s.host.dbufWritten[i]? = some true) :
    readData n s = .ok (s.host.dbuf.take n) s := if_pos (dataWritten_iff.2 h)

/-- R64: the length check of DBUF against DBUF_SIZE. -/
theorem dataLenOk_iff {c : Config} {n : Nat} : dataLenOk c n = true ↔ n ≤ c.dbufSize := decide_eq_true_iff

/-- R105 on written operands in range: CRC_REG takes the remainder of the fed bytes. -/
theorem exec_crcBlock_inRange {s : State} {n : Nat} (h : s.hasPacket n) (hn : n ≤ s.cfg.dbufSize) :
    exec .crcBlock s = .next ({ s with crcReg := crcFeed s.crcReg (s.host.dbuf.take n) }.setStatus .ok) := by
  obtain ⟨hwritten, hlen, hdata⟩ := h
  change execCrcBlock s = _
  rw [execCrcBlock, readArgLen_written hwritten, Res.bind_ok, hlen, if_pos (dataLenOk_iff.2 hn),
    readData_written hdata, Res.bind_ok, Res.finish_ok]

/-- R105 above DBUF_SIZE: the range check ends the command before a byte of DBUF is read (R64). -/
theorem exec_crcBlock_tooLong {s : State} (hwritten : s.host.argLenWritten = true)
    (hlong : s.cfg.dbufSize < s.host.argLen.toNat) : exec .crcBlock s = .next (s.setStatus .rangeError) := by
  change execCrcBlock s = _
  rw [execCrcBlock, readArgLen_written hwritten, Res.bind_ok, if_neg (by rw [dataLenOk_iff]; omega), raise_eq,
    Res.finish_ended]

/-- Settles O44: the two outcomes of the range check, with CrcFeed as a fold over the bytes in index order. -/
theorem crcBlockFeedsItsBytesInOrder : Obligations.CrcBlockFeedsItsBytesInOrder := by
  intro s n _
  refine ⟨fun hpacket hn => ?_, fun hwritten hlen hlong => ?_, rfl⟩
  · rw [exec_crcBlock_inRange hpacket hn, crcFeed_eq_foldl]
    rfl
  · rw [exec_crcBlock_tooLong hwritten (hlen ▸ hlong)]
    rfl

end Sys2Proof.Machine
end

