-- ==== Sys2Proof/Proofs/MbThreshold.lean ====
section
/-! PROOFS. The T3.5 threshold and MB_GET_T35 (spec/43_modbus_frame.md R109, R118). -/

namespace Sys2Proof.Machine

open Sys2Proof

/-- R109, with the strict boundary of C3: the fixed 1750 µs. -/
theorem t35Ticks_above {baud : Nat} (h : 19200 < baud) : t35Ticks baud = 175 := if_pos h

/-- R109 at 19200 baud and below: the rounded-up quotient and the tick that makes up for the rounding. -/
theorem t35Ticks_upTo {baud : Nat} (h : baud ≤ 19200) : t35Ticks baud = (3850000 + baud - 1) / baud + 1 :=
  if_neg (Nat.not_lt.2 h)

/-- Settles O47: the rounded-up quotient `k` is the ceiling, since `k * baud` lies within
`3850000 .. 3850000 + baud - 1`. -/
theorem t35IsTheCeilingPlusOne : Obligations.T35IsTheCeilingPlusOne := by
  intro baud hbaud
  refine ⟨t35Ticks_above, fun hslow => ⟨(3850000 + baud - 1) / baud, t35Ticks_upTo hslow, ?_, ?_⟩⟩
  · have habove : 3850000 + baud - 1 < (3850000 + baud - 1) / baud * baud + baud := Nat.lt_div_mul_add hbaud
    omega
  · have hbelow : (3850000 + baud - 1) / baud * baud ≤ 3850000 + baud - 1 := Nat.div_mul_le_self _ _
    rw [Nat.sub_mul, Nat.one_mul]
    omega

/-- R118: RESULT takes MB_T35. -/
theorem exec_mbGetT35 (s : State) : exec .mbGetT35 s = .next { s with
    host := { s.host with result := s.mb.t35, status := 0 } } := rfl

/-- Settles O48: the effect of the command, and its word by evaluating the encoder. -/
theorem getT35ReturnsTheThreshold : Obligations.GetT35ReturnsTheThreshold := fun s => ⟨exec_mbGetT35 s, rfl⟩

end Sys2Proof.Machine
end

