-- ==== Sys2Proof/Proofs/Exceptions.lean ====
section
/-! PROOFS. RangeError and ILLEGAL (spec/60_exceptions.md R122, R124): what the range checks of the commands refuse,
and that a refusal changes STATUS alone. -/

namespace Sys2Proof.Machine

open Sys2Proof

/-! ## ILLEGAL words -/

/-- R62: with no command in progress, a coming write of CMD is issued. -/
theorem step_cmd {s : State} {w : Half} {ms : List Move} (hmoves : s.moves = .up (.cmd w) :: ms)
    (hidle : s.wait = .idle) : step s = issue w { s with moves := ms } := by
  have haccepts : acceptsCommand s = true := decide_eq_true hidle
  rw [step, nextMove, hmoves]
  exact if_pos haccepts

/-- R65: a word that does not decode sets STATUS beside the write of CMD (R17). -/
theorem issue_illegal {w : Half} {e : DecodeError} (h : decode w = .error e) (s : State) :
    issue w s = .next (illegal (writeCmd w s)) := by
  rw [issue, h]

/-- Settles O5: the write is taken, and its word is refused by the decoder. -/
theorem illegalWordSetsStatusOnly : Obligations.IllegalWordSetsStatusOnly := by
  intro s w ms e hmoves hidle hdecode
  rw [step_cmd hmoves hidle, issue_illegal hdecode]
  rfl

/-! ## What the range checks accept -/

/-- R73: an address is not covered when no entry of the table holds it. -/
theorem not_covered_iff {c : Config} {a : Nat} :
    ¬ covered c a = true ↔ ∀ e ∈ c.sectorTable, ¬(e.start ≤ a ∧ a < e.start + e.size) := by
  rw [covered_iff, not_exists]
  exact forall_congr' fun _ => not_and

/-- R80: the check of NVM_WRITE. -/
theorem writeRangeOk_iff {c : Config} {a n : Nat} :
    writeRangeOk c a n = true ↔ n ≤ c.dbufSize ∧ rangeCovered c a n = true := by
  rw [writeRangeOk, Bool.and_eq_true, dataLenOk_iff]

/-- R82: the check of NVM_ERASE asks for the two boundary bytes alone. -/
theorem eraseRangeOk_iff {c : Config} {a n : Nat} :
    eraseRangeOk c a n = true ↔
      n ≠ 0 ∧ a + n ≤ Params.addrSpace ∧ covered c a = true ∧ covered c (a + n - 1) = true := by
  simp only [eraseRangeOk, Bool.and_eq_true, decide_eq_true_eq, and_assoc]

/-- R93, R116: the check of PF_TRANSMIT and MB_TRANSMIT. -/
theorem packetLenOk_iff {c : Config} {n : Nat} :
    packetLenOk c n = true ↔ n ≤ c.dbufSize ∧ n ≠ 0 ∧ n ≤ c.maxData := by
  simp only [packetLenOk, Bool.and_eq_true, dataLenOk_iff, decide_eq_true_eq, and_assoc]

/-! ## The command that fails its range check -/

/-- R121: a command that raises RangeError ends with STATUS 1 and otherwise as it stands. -/
theorem finish_raise_rangeError (s : State) : (raise .rangeError s).finish = .next (s.withStatus 1) := rfl

/-- R80, R122: ARG_ADDR is read only behind the length check (R64). -/
theorem exec_nvmWrite_rangeError {s : State} (hlen : s.host.argLenWritten = true)
    (haddr : s.host.argLen.toNat ≤ s.cfg.dbufSize → s.host.argAddrWritten = true)
    (hbad : ¬ writeRangeOk s.cfg s.host.argAddr.toNat s.host.argLen.toNat = true) :
    exec .nvmWrite s = .next (s.withStatus 1) := by
  change execNvmWrite s = _
  rw [execNvmWrite, readArgLen_written hlen, Res.bind_ok]
  by_cases hfits : s.host.argLen.toNat ≤ s.cfg.dbufSize
  · rw [if_pos (dataLenOk_iff.2 hfits), readArgAddr_written (haddr hfits), Res.bind_ok, writeBody, if_neg hbad,
      finish_raise_rangeError]
  · rw [if_neg (mt dataLenOk_iff.1 hfits), finish_raise_rangeError]

/-- R82, R122: no sector is erased. -/
theorem exec_nvmErase_rangeError {s : State} (haddr : s.host.argAddrWritten = true)
    (hlen : s.host.argLenWritten = true)
    (hbad : ¬ eraseRangeOk s.cfg s.host.argAddr.toNat s.host.argLen.toNat = true) :
    exec .nvmErase s = .next (s.withStatus 1) := by
  change execNvmErase s = _
  rw [execNvmErase, readArgAddr_written haddr, Res.bind_ok, readArgLen_written hlen, Res.bind_ok, if_neg hbad,
    finish_raise_rangeError]

/-- R64: the operands of a packet too long or empty are refused before DBUF is read. -/
theorem readPacket_rangeError {s : State} (hlen : s.host.argLenWritten = true)
    (hbad : ¬ packetLenOk s.cfg s.host.argLen.toNat = true) : readPacket s = raise .rangeError s := by
  rw [readPacket, readArgLen_written hlen, Res.bind_ok, if_neg hbad]

/-- R93, R122: no byte is sent. -/
theorem exec_pfTransmit_rangeError {s : State} (hlen : s.host.argLenWritten = true)
    (hbad : ¬ packetLenOk s.cfg s.host.argLen.toNat = true) : exec .pfTransmit s = .next (s.withStatus 1) := by
  change execPfTransmit s = _
  rw [execPfTransmit, readPacket_rangeError hlen hbad]
  rfl

/-- R116, R122: the line driver is not enabled. -/
theorem exec_mbTransmit_rangeError {s : State} (hlen : s.host.argLenWritten = true)
    (hbad : ¬ packetLenOk s.cfg s.host.argLen.toNat = true) : exec .mbTransmit s = .next (s.withStatus 1) := by
  change execMbTransmit s = _
  rw [execMbTransmit, readPacket_rangeError hlen hbad]
  rfl

/-! ## The causes of R122 -/

/-- R122: an empty range, one past the address space, or one with an uncovered byte is no covered range. -/
theorem not_rangeCovered {c : Config} {a n : Nat}
    (h : n = 0 ∨ 2 ^ 32 < a + n ∨
      ∃ x, a ≤ x ∧ x < a + n ∧ ∀ e ∈ c.sectorTable, ¬(e.start ≤ x ∧ x < e.start + e.size)) :
    ¬ rangeCovered c a n = true := by
  intro hcov
  obtain ⟨hpos, hspace, hall⟩ := rangeCovered_iff.1 hcov
  obtain hzero | hpast | ⟨x, hlo, hhi, hgap⟩ := h
  · omega
  · exact absurd hspace (Nat.not_le.2 hpast)
  · exact not_covered_iff.2 hgap (hall x hlo hhi)

/-- R122: an empty range, one past the address space, or one with an uncovered boundary byte is not erased. -/
theorem not_eraseRangeOk {c : Config} {a n : Nat}
    (h : n = 0 ∨ 2 ^ 32 < a + n ∨ (∀ e ∈ c.sectorTable, ¬(e.start ≤ a ∧ a < e.start + e.size)) ∨
      ∀ e ∈ c.sectorTable, ¬(e.start ≤ a + n - 1 ∧ a + n - 1 < e.start + e.size)) :
    ¬ eraseRangeOk c a n = true := by
  intro hok
  obtain ⟨hpos, hspace, hfirst, hlast⟩ := eraseRangeOk_iff.1 hok
  obtain hzero | hpast | hgap | hgap := h
  · exact hpos hzero
  · exact absurd hspace (Nat.not_le.2 hpast)
  · exact not_covered_iff.2 hgap hfirst
  · exact not_covered_iff.2 hgap hlast

/-- R122: the three causes of the packet commands. -/
theorem not_packetLenOk {c : Config} {n : Nat} (h : n = 0 ∨ c.maxData < n ∨ c.dbufSize < n) :
    ¬ packetLenOk c n = true := by
  rw [packetLenOk_iff]
  omega

/-- Settles O8: each cause fails the command's range check, and a failed check changes STATUS alone. -/
theorem rangeErrorsChangeStatusOnly : Obligations.RangeErrorsChangeStatusOnly := by
  intro s
  refine ⟨fun hlen hlong => ?_, fun haddr hlen hcause => ?_, fun haddr hlen hcause => ?_,
    fun hlen hcause => ?_, fun hlen hlong => ?_⟩
  · exact exec_nvmWrite_rangeError hlen (fun hfits => absurd hlong (Nat.not_lt.2 hfits))
      fun hok => Nat.not_lt.2 (writeRangeOk_iff.1 hok).1 hlong
  · exact exec_nvmWrite_rangeError hlen (fun _ => haddr)
      fun hok => not_rangeCovered hcause (writeRangeOk_iff.1 hok).2
  · exact exec_nvmErase_rangeError haddr hlen (not_eraseRangeOk hcause)
  · have hbad := not_packetLenOk hcause
    exact ⟨exec_pfTransmit_rangeError hlen hbad, exec_mbTransmit_rangeError hlen hbad⟩
  · exact exec_crcBlock_tooLong hlen hlong

end Sys2Proof.Machine
end

