-- ==== Sys2Proof/Proofs/Encoding.lean ====
section
/-! PROOFS. The command word and its issue (spec/30_encoding.md R59 to R65, R71). -/

namespace Sys2Proof.Machine

open Sys2Proof

/-! ## The opcode map -/

/-- R63: CRC_BYTE alone uses its immediate, and OP 1 of UNIT 2 is its own. -/
theorem usesImm_iff (i : Instr) : usesImm i = true ↔ opByte i = 0x21 := by
  cases i with
  | crcByte b => exact ⟨fun _ => rfl, fun _ => rfl⟩
  | _ => decide

/-- R63: a command that uses no immediate has 0 in its place. -/
theorem immByte_of_not_usesImm {i : Instr} (h : usesImm i = false) : immByte i = 0 := by
  cases i with
  | crcByte b => cases h
  | _ => rfl

/-- R61: the command that the map gives to a UNIT and an OP is encoded with them, and with the immediate it was given. -/
theorem commandOf_ok {unit op : Nat} {imm : Byte} {i : Instr} (h : commandOf unit op imm = .ok i) :
    opByte i = 16 * unit + op ∧ (usesImm i = true → immByte i = imm.toNat) := by
  unfold commandOf at h
  split at h
  case h_5 => cases h
  all_goals
    split at h <;> cases h <;> exact ⟨rfl, by simp [usesImm, immByte]⟩

/-- R65 (a), (b): the UNITs and OPs to which the map gives no command. -/
theorem commandOf_error_iff {unit op : Nat} {imm : Byte} :
    (∃ e, commandOf unit op imm = .error e) ↔
      4 ≤ unit ∨ (unit = 0 ∧ 7 ≤ op) ∨ (unit = 1 ∧ 3 ≤ op) ∨ (unit = 2 ∧ 4 ≤ op) ∨ (unit = 3 ∧ 4 ≤ op) := by
  constructor
  · rintro ⟨e, h⟩
    unfold commandOf at h
    split at h
    case h_5 => simp only [imp_false] at *; omega
    all_goals
      split at h <;> cases h
      simp only [imp_false, true_and] at *
      omega
  · rintro (h | ⟨rfl, h⟩ | ⟨rfl, h⟩ | ⟨rfl, h⟩ | ⟨rfl, h⟩) <;> obtain ⟨k, rfl⟩ := Nat.exists_eq_add_of_le' h <;>
      exact ⟨_, rfl⟩

/-! ## The fields of a word -/

/-- R59: a word is its three fields. -/
theorem word_fields (w : Half) : 256 * (16 * unitOf w + opOf w) + (immOf w).toNat = w.toNat := by
  have hw := w.isLt
  simp only [unitOf, opOf, immOf, BitVec.toNat_ofNat]
  omega

/-- R59: UNIT by a shift. -/
theorem shift12_eq_unitOf (w : Half) : (w >>> 12).toNat = unitOf w := by
  simp [unitOf, Nat.shiftRight_eq_div_pow]

/-- R59: UNIT and OP by a shift. -/
theorem shift8_eq_fields (w : Half) : (w >>> 8).toNat = 16 * unitOf w + opOf w := by
  simp only [BitVec.toNat_ushiftRight, Nat.shiftRight_eq_div_pow, unitOf, opOf]
  omega

/-- R59: OP by a shift. -/
theorem shift8_low_eq_opOf (w : Half) : ((w >>> 8).setWidth 4).toNat = opOf w := by
  simp [opOf, Nat.shiftRight_eq_div_pow]

/-- R59: IMM8 by truncation. -/
theorem setWidth8_eq_immOf (w : Half) : w.setWidth 8 = immOf w := by
  apply BitVec.eq_of_toNat_eq
  simp [immOf]

/-! ## Decoding -/

/-- R71: a word decodes where the map gives a command and a command without an operand has no stray immediate. -/
theorem decode_ok_iff {w : Half} {i : Instr} :
    decode w = .ok i ↔
      commandOf (unitOf w) (opOf w) (immOf w) = .ok i ∧ (usesImm i = true ∨ immOf w = 0) := by
  unfold decode
  split
  · next e he => simp [he]
  · next j hj =>
    rw [hj]
    split_ifs with himm <;> simp only [Bool.or_eq_true, decide_eq_true_eq] at himm
    · constructor
      · intro h; cases h; exact ⟨rfl, himm⟩
      · exact And.left
    · constructor
      · intro h; cases h
      · rintro ⟨h, himm'⟩; cases h; exact absurd himm' himm

/-- R61: the word of a command decodes to it. -/
theorem decode_encode (i : Instr) : decode (encode i) = .ok i := by
  cases i with
  | crcByte b =>
    obtain ⟨hop, himm⟩ := Laws.EncodedFields.crcByte b
    have hlt : opOf (encode (.crcByte b)) < 16 := Nat.mod_lt _ (by decide)
    have hunit : unitOf (encode (.crcByte b)) = 2 := by simp only [opByte] at hop; omega
    have hop1 : opOf (encode (.crcByte b)) = 1 := by simp only [opByte] at hop; omega
    have hb : immOf (encode (.crcByte b)) = b := BitVec.eq_of_toNat_eq himm
    exact decode_ok_iff.2 ⟨by rw [hunit, hop1, hb]; rfl, .inl rfl⟩
  | _ => rfl

/-- R61, R63: the fields of a word that decodes are those its command is encoded with. -/
theorem encode_of_decode {w : Half} {i : Instr} (h : decode w = .ok i) : encode i = w := by
  obtain ⟨hmap, himm⟩ := decode_ok_iff.1 h
  obtain ⟨hop, hby⟩ := commandOf_ok hmap
  have hbyte : immByte i = (immOf w).toNat := by
    cases huse : usesImm i with
    | true => exact hby huse
    | false =>
      have hzero : immOf w = 0 := himm.resolve_left (by simp [huse])
      rw [immByte_of_not_usesImm huse, hzero]; rfl
  apply BitVec.eq_of_toNat_eq
  rw [encode, hop, hbyte, word_fields, BitVec.toNat_ofNat, Nat.mod_eq_of_lt w.isLt]

/-- Settles O2: a word that decodes is its command's, and a command's word decodes to it. -/
theorem decodeEncodeAgree : Obligations.DecodeEncodeAgree := fun _ i =>
  ⟨encode_of_decode, fun h => h ▸ decode_encode i⟩

/-- Settles O1: the words of the opcode map, evaluated. -/
theorem specWordsDecode : Obligations.SpecWordsDecode :=
  ⟨rfl, rfl, rfl, rfl, rfl, rfl, rfl, rfl, rfl, rfl, rfl, rfl, rfl, rfl, rfl, rfl, rfl, rfl⟩

/-- R71: a word is refused where the map has no command, or where its command takes no immediate and it has one. -/
theorem decode_error_iff {w : Half} :
    (∃ e, decode w = .error e) ↔
      (∃ e, commandOf (unitOf w) (opOf w) (immOf w) = .error e) ∨
        (immOf w ≠ 0 ∧ 16 * unitOf w + opOf w ≠ 0x21) := by
  unfold decode
  split
  · next e he => simp [he]
  · next i hi =>
    have huse : usesImm i = true ↔ 16 * unitOf w + opOf w = 0x21 := by rw [usesImm_iff, (commandOf_ok hi).1]
    split_ifs with himm <;> simp only [Bool.or_eq_true, decide_eq_true_eq, huse] at himm
    · simp only [hi, reduceCtorEq, exists_false, false_or, false_iff]; tauto
    · simp only [hi, reduceCtorEq, exists_false, false_or, Except.error.injEq, exists_eq', true_iff]; tauto

/-- Settles O3: the refusals of the decoder, with the fields of the word taken by shifts. -/
theorem illegalWordsAreTheReservedOnes : Obligations.IllegalWordsAreTheReservedOnes := by
  intro w
  rw [decode_error_iff, commandOf_error_iff, shift12_eq_unitOf, shift8_low_eq_opOf, setWidth8_eq_immOf,
    shift8_eq_fields]
  simp only [or_assoc]

/-! ## Issue -/

/-- Settles O4: the write of CMD is taken and issued, and its word decodes. -/
theorem stepRunsDecodedCommand : Obligations.StepRunsDecodedCommand := by
  intro s w ms i hmoves hidle hdecode
  rw [step_cmd hmoves hidle, issue, hdecode]
  rfl

end Sys2Proof.Machine
end

