-- ==== Sys2Proof/Proofs/CrcUnit.lean ====
section
/-! PROOFS. The CRC step, CRC_BYTE and CRC_READ, and what a remainder detects (spec/42_crc16.md R101 to R107,
spec/43_modbus_frame.md R119). -/

namespace Sys2Proof.Machine

open Sys2Proof

/-! ## The bit step -/

/-- R102: the bit shifted out decides the xor. -/
theorem crcBit_eq (c : Half) : crcBit c = if c.toNat % 2 = 1 then (c >>> 1) ^^^ 0xA001 else c >>> 1 := by
  simp [crcBit, BitVec.getLsbD, Nat.testBit_zero]

/-- R102: eight bits, as the statement folds them. -/
theorem crcStep_eq_foldl (c : Half) (b : Byte) : crcStep c b =
    (List.range 8).foldl (fun (x : Half) _ => if x.toNat % 2 = 1 then (x >>> 1) ^^^ 0xA001 else x >>> 1)
      (c ^^^ b.setWidth 16) := by
  simp only [← crcBit_eq]
  rfl

/-- The bit shifted out comes back as bit 15, since 0xA001 has that bit and a shifted word has not. -/
theorem crcBit_high (c : Half) : (crcBit c).getLsbD 15 = c.getLsbD 0 := by
  unfold crcBit
  cases h : c.getLsbD 0 <;> simp

/-- A bit step loses nothing: bit 15 says whether 0xA001 was xored in, and with what bit 0 was. -/
theorem crcBit_injective : Function.Injective crcBit := by
  intro c d h
  have hlow : c.getLsbD 0 = d.getLsbD 0 := by rw [← crcBit_high, ← crcBit_high, h]
  have hshift : c >>> 1 = d >>> 1 := by
    unfold crcBit at h
    rw [hlow] at h
    split_ifs at h
    · exact (BitVec.xor_left_inj 0xA001).1 h
    · exact h
  refine BitVec.eq_of_getLsbD_eq fun i hi => ?_
  cases i with
  | zero => exact hlow
  | succ i =>
    have hbit := congrArg (fun x : Half => x.getLsbD i) hshift
    simpa [Nat.add_comm] using hbit

theorem crcBits_injective (n : Nat) : Function.Injective (crcBits n) := by
  induction n with
  | zero => exact fun _ _ h => h
  | succ n ih => exact ih.comp crcBit_injective

/-- Where the low `n` bits are 0, `n` bit steps are a plain shift. -/
theorem crcBits_of_low_zero {n : Nat} {c : Half} (h : ∀ i, i < n → c.getLsbD i = false) :
    crcBits n c = c >>> n := by
  induction n generalizing c with
  | zero => simp [crcBits]
  | succ n ih =>
    have hbit : crcBit c = c >>> 1 := if_neg (by rw [h 0 (Nat.succ_pos n)]; decide)
    rw [crcBits, hbit, ih fun i hi => by simpa [Nat.add_comm] using h (i + 1) (by omega), ← BitVec.shiftRight_add,
      Nat.add_comm]

/-! ## The byte step -/

theorem crcStep_injective_remainder (b : Byte) : Function.Injective fun c => crcStep c b := by
  intro c d h
  exact (BitVec.xor_left_inj _).1 (crcBits_injective 8 h)

theorem crcStep_injective_byte (c : Half) : Function.Injective (crcStep c) := by
  intro b d h
  have hwide : b.setWidth 16 = d.setWidth 16 := (BitVec.xor_right_inj c).1 (crcBits_injective 8 h)
  have hnat := congrArg BitVec.toNat hwide
  simp only [BitVec.toNat_setWidth] at hnat
  exact BitVec.eq_of_toNat_eq (by omega)

theorem crcFeed_injective (q : List Byte) : Function.Injective fun c => crcFeed c q := by
  induction q with
  | nil => exact fun _ _ h => h
  | cons b q ih => exact fun _ _ h => crcStep_injective_remainder b (ih h)

/-- A remainder fed with its own low byte moves down by a byte. -/
theorem crcStep_low (c : Half) : crcStep c (c.setWidth 8) = c >>> 8 := by
  have hzero : ∀ i, i < 8 → (c ^^^ (c.setWidth 8).setWidth 16).getLsbD i = false := by
    intro i hi
    have h16 : i < 16 := by omega
    simp [hi, h16]
  rw [crcStep, crcBits_of_low_zero hzero]
  refine BitVec.eq_of_getLsbD_eq fun i hi => ?_
  simp

/-- A remainder of one byte fed with that byte is 0. -/
theorem crcStep_high (c : Half) : crcStep (c >>> 8) ((c >>> 8).setWidth 8) = 0 := by
  rw [crcStep_low]
  have hlt := c.isLt
  apply BitVec.eq_of_toNat_eq
  simp only [BitVec.toNat_ushiftRight, Nat.shiftRight_eq_div_pow, BitVec.ofNat_eq_ofNat, BitVec.toNat_ofNat]
  omega

/-! ## The statements -/

/-- Settles O42: the check value, evaluated. -/
theorem crcCheckValue : Obligations.CrcCheckValue := by
  unfold Obligations.CrcCheckValue
  decide +kernel

/-- R61: the word of CRC_BYTE is 0x21 and its byte. -/
theorem encode_crcByte (b : Byte) : encode (.crcByte b) = 0x21#8 ++ b := by
  have hb := b.isLt
  apply BitVec.eq_of_toNat_eq
  rw [BitVec.toNat_append, ← Nat.shiftLeft_add_eq_or_of_lt hb]
  simp only [encode, opByte, immByte, BitVec.toNat_ofNat, Nat.shiftLeft_eq]
  omega

/-- Settles O43: the step as a fold over its eight bits, the feed as a fold over the bytes, and the effects of the two
commands. -/
theorem crcByteAndReadWriteTheirRegister : Obligations.CrcByteAndReadWriteTheirRegister := by
  refine ⟨crcStep_eq_foldl, crcFeed_eq_foldl 0xFFFF, fun s b => ?_, fun s => rfl, encode_crcByte, rfl⟩
  rw [← crcStep_eq_foldl]
  rfl

/-- Settles O45: the low byte moves the remainder down by a byte, and the high byte then takes it to 0. -/
theorem crcResidueIsZero : Obligations.CrcResidueIsZero := by
  intro s
  calc crc16 (s ++ [(crc16 s).setWidth 8, (crc16 s >>> 8).setWidth 8])
      = crcStep (crcStep (crc16 s) ((crc16 s).setWidth 8)) ((crc16 s >>> 8).setWidth 8) := crcFeed_append _ _ _
    _ = crcStep (crc16 s >>> 8) ((crc16 s >>> 8).setWidth 8) := by rw [crcStep_low]
    _ = 0 := crcStep_high _

/-- Settles O46: the remainders differ after the changed byte, and no later byte can make them equal. -/
theorem crcDetectsOneChangedByte : Obligations.CrcDetectsOneChangedByte := by
  intro p q b b' hne heq
  simp only [crc16, crcFeed_append] at heq
  exact hne (crcStep_injective_byte _ (crcFeed_injective q heq))

end Sys2Proof.Machine
end

