-- ==== Sys2Proof/Proofs/Interface.lean ====
section
/-! PROOFS. The state after reset, the operands that nothing wrote and the registers the upstream agent reads back
(spec/10_state.md R17 to R23, R35, R36). -/

namespace Sys2Proof.Machine

open Sys2Proof

/-! ## Reset -/

/-- Settles O9: the fields of the state after reset, read off. -/
theorem resetHoldsTheStatedValues : Obligations.ResetHoldsTheStatedValues := fun _ =>
  ⟨rfl, rfl, rfl, rfl, rfl, rfl, rfl, rfl, rfl, rfl, rfl, rfl, rfl⟩

/-- Settles O12: the buffers have their sizes, nothing is open, nothing is being received and the driver is off. -/
theorem resetMeetsTheInvariant : Obligations.ResetMeetsTheInvariant := by
  intro c
  have hblock : (FlashBlock.reset c).buf.length = c.wbs := List.length_replicate
  refine ⟨rfl, ⟨?_, ?_, ?_, Nat.zero_le _, Nat.zero_le _⟩, ⟨hblock, nofun⟩, ⟨hblock, nofun⟩, ⟨?_, nofun, fun _ => rfl⟩,
    ⟨?_, Nat.zero_le _, nofun, rfl⟩, rfl⟩
  all_goals exact List.length_replicate

/-! ## Operands never written -/

theorem readArgAddr_unwritten {s : State} (h : s.host.argAddrWritten = false) :
    readArgAddr s = .fault .unwrittenOperand := by simp [readArgAddr, h]

theorem readArgLen_unwritten {s : State} (h : s.host.argLenWritten = false) :
    readArgLen s = .fault .unwrittenOperand := by simp [readArgLen, h]

/-- R36: an operand read of DBUF that takes a byte never written. -/
theorem readData_unwritten {s : State} {n i : Nat} (hi : i < n) (h : s.host.dbufWritten[i]? = some false) :
    readData n s = .fault .unwrittenOperand := by
  rcases readData_spec n s with ⟨hall, -⟩ | ⟨-, hfault⟩
  · have := hall i hi
    rw [h] at this
    cases this
  · exact hfault

/-- The commands that read ARG_LEN fault where it was never written. -/
theorem exec_argLen_unwritten {s : State} (h : s.host.argLenWritten = false) :
    exec .nvmWrite s = .fault .unwrittenOperand ∧ exec .nvmErase s = .fault .unwrittenOperand ∧
      exec .pfTransmit s = .fault .unwrittenOperand ∧ exec .mbTransmit s = .fault .unwrittenOperand ∧
      exec .crcBlock s = .fault .unwrittenOperand := by
  have hlen := readArgLen_unwritten h
  refine ⟨?_, ?_, ?_, ?_, ?_⟩
  · simp [exec, execNvmWrite, hlen]
  · cases haddr : s.host.argAddrWritten
    · simp [exec, execNvmErase, readArgAddr_unwritten haddr]
    · simp [exec, execNvmErase, readArgAddr_written haddr, hlen]
  · simp [exec, execPfTransmit, readPacket, hlen]
  · simp [exec, execMbTransmit, readPacket, hlen]
  · simp [exec, execCrcBlock, hlen]

/-- The packet commands fault where a byte of their payload was never written. -/
theorem readPacket_unwritten {s : State} {i : Nat} (hlen : s.host.argLenWritten = true)
    (hdbuf : s.host.argLen.toNat ≤ s.cfg.dbufSize) (hmax : s.host.argLen.toNat ≤ s.cfg.maxData)
    (hi : i < s.host.argLen.toNat) (h : s.host.dbufWritten[i]? = some false) :
    readPacket s = .fault .unwrittenOperand := by
  have hok : packetLenOk s.cfg s.host.argLen.toNat = true := packetLenOk_iff.2 ⟨hdbuf, by omega, hmax⟩
  rw [readPacket, readArgLen_written hlen, Res.bind_ok, if_pos hok, readData_unwritten hi h]

/-- Settles O7: each command comes to its first operand read of what nothing wrote. -/
theorem unwrittenOperandFaults : Obligations.UnwrittenOperandFaults := by
  intro s
  refine ⟨fun haddr => ?_, fun haddr hfits => ?_, exec_argLen_unwritten, fun hlen hfits ⟨i, hi, hdata⟩ => ⟨?_, ?_, ?_⟩⟩
  · simp [exec, execNvmErase, readArgAddr_unwritten haddr]
  · cases hlen : s.host.argLenWritten
    · exact (exec_argLen_unwritten hlen).1
    · simp [exec, execNvmWrite, readArgLen_written hlen, dataLenOk_iff.2 hfits, readArgAddr_unwritten haddr]
  · simp [exec, execCrcBlock, readArgLen_written hlen, dataLenOk_iff.2 hfits, readData_unwritten hi hdata]
  · intro hmax
    have hpacket := readPacket_unwritten hlen hfits hmax hi hdata
    exact ⟨by simp [exec, execPfTransmit, hpacket], by simp [exec, execMbTransmit, hpacket]⟩
  · intro haddr hcov
    simp [exec, execNvmWrite, readArgLen_written hlen, dataLenOk_iff.2 hfits, readArgAddr_written haddr, writeBody,
      writeRangeOk_iff.2 ⟨hfits, hcov⟩, readData_unwritten hi hdata]

/-! ## Register reads -/

/-- A read of a register that holds a value puts it on the read bus. -/
theorem readRegister_some {s : State} {r : ReadReg} {v : Word} (h : readValue s.host r = some v) :
    readRegister r s = .next { s with readBus := v } := by rw [readRegister, h]

/-- I8: a read of a register that nothing has written. -/
theorem readRegister_none {s : State} {r : ReadReg} (h : readValue s.host r = none) :
    readRegister r s = .fault .unwrittenRead := by rw [readRegister, h]

/-- R20: a DBUF byte just written holds what was written. -/
theorem readValue_writeDbuf {s : State} {i : Nat} (b : Byte) (hi : i < s.host.dbuf.length)
    (hw : i < s.host.dbufWritten.length) :
    readValue (writeDbuf i b s).host (.dbuf i) = some (b.setWidth 32) := by
  simp [readValue, hi, hw]

/-- R62: with no command in progress, a coming read of a register the block has is made. -/
theorem step_read {s : State} {r : ReadReg} {ms : List Move} (hmoves : s.moves = .up (.read r) :: ms)
    (hidle : s.wait = .idle) (hwf : (UpMove.read r).wf s.cfg.toParams = true) :
    step s = readRegister r { s with moves := ms } := by
  have haccepts : acceptsCommand s = true := decide_eq_true hidle
  rw [step, nextMove, hmoves]
  refine (if_pos haccepts).trans ?_
  rw [applyUpMove, if_pos hwf, runUpMove]

/-- Settles O60: each register with its mark, and the step that makes a read. -/
theorem upstreamReadsBackItsWrites : Obligations.UpstreamReadsBackItsWrites := by
  rintro s v i b w ⟨-, ⟨hdbuf, hmarks, hpkt, hdelivered, -⟩, -⟩
  refine ⟨fun hi => ⟨rfl, rfl, readRegister_some (readValue_writeDbuf b (by omega) (by omega)), rfl⟩, rfl, rfl,
    fun h => ?_, fun h => ?_, fun h => ?_, fun h => ?_, fun h => ?_, fun h => ?_, fun h => ?_, fun h _ => ?_,
    fun r ms => step_read⟩
  · exact readRegister_some (if_pos h)
  · have hlen : i < s.host.pktData.length := by omega
    refine ⟨s.host.pktData[i], List.getElem?_eq_getElem hlen, readRegister_some ?_⟩
    simp [readValue, h, hlen]
  · exact readRegister_none (by simp [readValue, h])
  · exact readRegister_none (by simp [readValue, h])
  · exact readRegister_none (by simp [readValue, h])
  · exact readRegister_none (by simp [readValue, List.getD_eq_getElem?_getD, h])
  · exact readRegister_none (by simp [readValue, h])
  · exact readRegister_none (if_neg (by omega))

end Sys2Proof.Machine
end

