-- ==== Sys2Proof/Proofs/FlashPort.lean ====
section
/-! PROOFS. What flash reads after a port has written it (spec/20_memory.md R43, R44). -/

namespace Sys2Proof.Machine

open Sys2Proof

/-! ## Bytes of flash -/

/-- R37: a covered range lies inside the address space. -/
theorem rangeCovered_le {c : Config} {a n : Nat} (h : rangeCovered c a n = true) : a + n ≤ Params.addrSpace :=
  (rangeCovered_iff.1 h).2.1

/-- Writing a range of flash leaves every byte outside it. -/
theorem flashByte_setFlash_outside {s : State} {a x : Nat} {l : List Byte} (h : x < a ∨ a + l.length ≤ x) :
    (s.setFlash a l).flashByte x = s.flashByte x := Memory.read_writeBytes_outside h

/-- Byte `i` of a range of flash just written. -/
theorem flashByte_setFlash_inside {s : State} {a i : Nat} {l : List Byte} (hs : s.FlashOk)
    (ha : a + l.length ≤ Params.addrSpace) (hi : i < l.length) :
    (s.setFlash a l).flashByte (a + i) = l.getD i 0 := Memory.read_writeBytes_inside hs ha hi

@[simp] theorem flashBytes_length (s : State) (a n : Nat) : (s.flashBytes a n).length = n :=
  Memory.readBytes_length _ _ _ _

/-- A run of flash bytes, one by one. -/
theorem flashBytes_getD {s : State} {a n i : Nat} (h : i < n) :
    (s.flashBytes a n).getD i 0 = s.flashByte (a + i) := Memory.readBytes_getD h

/-- The bytes of a range just written are those written. -/
theorem flashBytes_setFlash {s : State} {a : Nat} {l : List Byte} (hs : s.FlashOk)
    (ha : a + l.length ≤ Params.addrSpace) : (s.setFlash a l).flashBytes a l.length = l := by
  refine List.ext_getElem (flashBytes_length _ _ _) fun i hi hl => ?_
  rw [← List.getD_eq_getElem _ 0 hi, ← List.getD_eq_getElem _ 0 hl, flashBytes_getD hl,
    flashByte_setFlash_inside hs ha hl]

/-! ## ProgramBlock -/

/-- R38: a ProgramBlock that answers was made of a covered range. -/
theorem programBlock_covered {a : Nat} {l : List Byte} {s t : State} {r : Bool} (h : programBlock a l s = .ok r t) :
    rangeCovered s.cfg a l.length = true := by
  by_contra hcov
  rw [programBlock, if_neg hcov] at h
  cases h

/-- Settles O59: what a call that answered wrote, and that it wrote no further. -/
theorem programmedBlockReadsBack : Obligations.ProgrammedBlockReadsBack := by
  intro s t a data hflash hpow
  refine ⟨fun h => ?_, fun h => ?_⟩ <;> have hcov := programBlock_covered h
  · rcases programBlock_on hpow hcov with ⟨-, hok⟩ | ⟨junk, -, ⟨-, hfail⟩ | ⟨-, hlost⟩⟩
    · rw [hok] at h
      cases h
      refine ⟨?_, fun x hx => flashByte_setFlash_outside hx⟩
      rw [flashRead_on (by simpa using hpow) (by exact hcov),
        flashBytes_setFlash (by exact hflash) (rangeCovered_le hcov)]
    · rw [hfail] at h; cases h
    · rw [hlost] at h; cases h
  · rcases programBlock_on hpow hcov with ⟨-, hok⟩ | ⟨junk, hlen, ⟨-, hfail⟩ | ⟨-, hlost⟩⟩
    · rw [hok] at h; cases h
    · rw [hfail] at h
      cases h
      exact fun x hx => flashByte_setFlash_outside (by rwa [hlen])
    · rw [hlost] at h; cases h

end Sys2Proof.Machine
end

