-- ==== Sys2Proof/Proofs/Keeps.lean ====
section
/-! PROOFS. What a command keeps of the invariant on its way (spec/10_state.md R24, R27, R28, R30, R32), whatever the
ports answer and wherever power is lost: the terms in which it is said, and the parts of the NVM commands. -/

namespace Sys2Proof.Machine

open Sys2Proof

/-! ## The outcomes of a part of a command -/

/-- What a part of a command can come to: it goes on with `Q`, or it has ended the command with `E`. It may fault for an
operand never written, but never for a flash port called outside the covered addresses. -/
def Res.Ends {α : Type} (Q : α → State → Prop) (E : State → Prop) : Res α → Prop
  | .ok a t => Q a t
  | .ended t => E t
  | .fault f => f ≠ .uncoveredFlash

theorem Res.Ends.bind {α β : Type} {Q : α → State → Prop} {Q' : β → State → Prop} {E : State → Prop} {r : Res α}
    {f : α → State → Res β} (hr : r.Ends Q E) (hf : ∀ a t, Q a t → (f a t).Ends Q' E) : (r.bind f).Ends Q' E := by
  cases r with
  | ok a t => exact hf a t hr
  | ended t => exact hr
  | fault e => exact hr

theorem Res.Ends.mono {α : Type} {Q Q' : α → State → Prop} {E : State → Prop} {r : Res α}
    (hr : r.Ends Q E) (h : ∀ a t, Q a t → Q' a t) : r.Ends Q' E := by
  cases r with
  | ok a t => exact h a t hr
  | ended t => exact hr
  | fault e => exact hr

/-- What a step or a command can come to: a next state with `E`, or a fault for an operand never written, or a refusal. -/
def outcomeKeeps (E : State → Prop) : Host.Outcome State Fault Refusal → Prop
  | .next t => E t
  | .fault f => f ≠ .uncoveredFlash
  | .refused _ => True

theorem Res.Ends.finish {Q : Unit → State → Prop} {E : State → Prop} {r : Res Unit} (hr : r.Ends Q E)
    (h : ∀ t, Q () t → E (t.setStatus .ok)) : outcomeKeeps E r.finish := by
  cases r with
  | ok a t => exact h t hr
  | ended t => exact hr
  | fault e => exact hr

/-! ## A state on the way of a command -/

/-- R21: STATUS holds one of the four codes. -/
theorem statusValue_le (c : StatusCode) : (statusValue c).toNat ≤ 3 := by cases c <;> decide

/-- MB_DE and the command in progress agree (R32). -/
def Driven (de : Bool) (w : Wait) : Prop := de = w.transmitting

/-- A state that a command started in `s` passes through: the invariant, with `D` in place of R32's clause on the
driver, the configuration of `s`, and the calls made since, each with `P`. -/
structure Mid (P : Event → Prop) (D : Bool → Wait → Prop) (s u : State) : Prop where
  cfg : u.cfg = s.cfg
  flash : u.FlashOk
  host : u.HostOk
  gen : u.GenOk
  boot : u.BootOk
  pf : u.PfOk
  mb : u.MbOk
  driver : D u.mb.de u.wait
  calls : ∃ es, u.events = s.events ++ es ∧ ∀ e ∈ es, P e

/-- A call that does not program the boot block. -/
def Event.sparesBoot (c : Config) (e : Event) : Prop := ∀ l v, e ≠ .programBlock c.bootBase l v

theorem Mid.refl {P : Event → Prop} {s : State} (h : s.Inv) : Mid P Driven s s := by
  obtain ⟨hflash, hhost, hgen, hboot, hpf, hmb, hdriver⟩ := h
  exact ⟨rfl, hflash, hhost, hgen, hboot, hpf, hmb, hdriver, [], by simp, by simp⟩

theorem Mid.inv {P : Event → Prop} {s u : State} (h : Mid P Driven s u) : u.Inv :=
  ⟨h.flash, h.host, h.gen, h.boot, h.pf, h.mb, h.driver⟩

section
variable {P : Event → Prop} {D : Bool → Wait → Prop} {s u : State}

theorem Mid.weaken {D' : Bool → Wait → Prop} (h : Mid P D s u) (hD : D u.mb.de u.wait → D' u.mb.de u.wait) :
    Mid P D' s u := { h with driver := hD h.driver }

/-- Calls and moves of the environment touch no register of the block. -/
theorem Mid.recorded (h : Mid P D s u) (env : Env) {es : List Event} (hes : ∀ e ∈ es, P e) :
    Mid P D s { u with env := env, events := u.events ++ es } := by
  obtain ⟨fs, hfs, hP⟩ := h.calls
  refine { h with calls := ⟨fs ++ es, by simp [hfs], fun e he => ?_⟩ }
  exact (List.mem_append.1 he).elim (hP e) (hes e)

theorem Mid.withEnv (h : Mid P D s u) (env : Env) : Mid P D s { u with env := env } := { h with }

theorem Mid.setStatus (h : Mid P D s u) (c : StatusCode) : Mid P D s (u.setStatus c) := by
  obtain ⟨hdbuf, hmarks, hpkt, hdelivered, -⟩ := h.host
  exact { h with host := ⟨hdbuf, hmarks, hpkt, hdelivered, statusValue_le c⟩ }

theorem Mid.setResult (h : Mid P D s u) (v : Word) : Mid P D s (u.setResult v) := { h with }

/-- R33: an INVALID block has no base to keep. -/
theorem Mid.setInvalid (h : Mid P D s u) (b : BlockId) : Mid P D s (u.setValid b false) := by
  cases b with
  | gen => exact { h with gen := ⟨h.gen.1, nofun⟩ }
  | boot => exact { h with boot := ⟨h.boot.1, nofun⟩ }

/-- A buffer of WBS bytes may be replaced by another. -/
theorem Mid.setBuf (h : Mid P D s u) (b : BlockId) {l : List Byte} (hl : l.length = u.cfg.wbs) :
    Mid P D s (u.setBuf b l) := by
  cases b with
  | gen => exact { h with gen := ⟨hl, h.gen.2⟩ }
  | boot => exact { h with boot := ⟨hl, h.boot.2⟩ }

theorem Mid.buf_length (h : Mid P D s u) (b : BlockId) : (u.block b).buf.length = u.cfg.wbs := by
  cases b with
  | gen => exact h.gen.1
  | boot => exact h.boot.1

/-- R38: flash stays inside the address space when a range inside it is written. -/
theorem Mid.setFlash (h : Mid P D s u) {a : Nat} {l : List Byte} (ha : a + l.length ≤ Params.addrSpace) :
    Mid P D s (u.setFlash a l) := { h with flash := Memory.wf_writeBytes h.flash ha }

theorem Mid.eraseFlash (h : Mid P D s u) (a n : Nat) : Mid P D s (u.eraseFlash a n) :=
  { h with flash := Memory.wf_erase a n h.flash }

/-- R135, R46: a power loss leaves flash, and the registers as they are after reset. -/
theorem Mid.powerOff (h : Mid P D s u) (hP : P .powerLoss) : Mid P Driven s (powerOff u) := by
  obtain ⟨-, hhost, hgen, hboot, hpf, hmb, -⟩ := resetMeetsTheInvariant u.cfg
  obtain ⟨fs, hfs, hfsP⟩ := h.calls
  refine ⟨h.cfg, h.flash, hhost, hgen, hboot, hpf, hmb, rfl, fs ++ [.powerLoss], by simp [hfs], ?_⟩
  simpa [or_imp, forall_and, hP] using hfsP

end

/-! ## One port call -/

section
variable {P : Event → Prop} {D : Bool → Wait → Prop} {s u : State}
  (hP : ∀ e : Event, e.sparesBoot s.cfg → P e)

/-- A power loss spares the boot block. -/
theorem spares_powerLoss {c : Config} : Event.sparesBoot c .powerLoss := fun _ _ => nofun

include hP

/-- One call is made, or power is lost before it. -/
theorem call_keeps (h : Mid P D s u) {e : Event} (he : P e) :
    (call e u).Ends (fun _ v => Mid P D s v ∧ ∃ c, v = { u with
      env := { u.env with powerCut := c }, events := u.events ++ [e] }) (Mid P Driven s) := by
  rcases call_spec e u with ⟨c, hc⟩ | ⟨-, hc⟩ <;> rw [hc]
  · exact ⟨h.recorded _ (by simpa using he), c, rfl⟩
  · exact h.powerOff (hP _ spares_powerLoss)

/-- An answered call is made, or power is lost before it. -/
theorem answeredCall_keeps (h : Mid P D s u) {p : Port} {n : Nat} {e : Verdict → Event} :
    (answeredCall p n e u).Ends (fun v t => ∃ env, t = { u with env := env, events := u.events ++ [e v] })
      (Mid P Driven s) := by
  cases hr : answeredCall p n e u with
  | ok v t => exact (answeredCall_ok hr).2
  | ended t =>
    obtain hcall | ⟨_, _, -, hlate⟩ := Res.bind_eq_ended.1 hr
    · obtain ⟨-, rfl⟩ := call_ended hcall
      exact h.powerOff (hP _ spares_powerLoss)
    · cases hlate
  | fault f =>
    obtain hcall | ⟨_, _, -, hlate⟩ := Res.bind_eq_fault.1 hr
    · exact absurd hcall (call_ne_fault _ _ _)
    · cases hlate

/-- The verdict of a call: it goes on, or power was lost while it ran. -/
theorem verdictResult_keeps (h : Mid P D s u) (v : Verdict) :
    (verdictResult v u).Ends (fun _ t => t = u) (Mid P Driven s) := by
  cases v with
  | ok => exact rfl
  | fail => exact rfl
  | powerLoss => exact h.powerOff (hP _ spares_powerLoss)

/-- A byte send of either line. -/
theorem send_keeps (h : Mid P D s u) {p : Port} {e : Verdict → Event} (he : ∀ v, P (e v)) :
    ((answeredCall p 0 e u).bind verdictResult).Ends (fun _ v => Mid P D s v) (Mid P Driven s) := by
  refine (answeredCall_keeps hP h).bind ?_
  rintro v t ⟨env, rfl⟩
  have ht := h.recorded env (es := [e v]) (by simpa using he v)
  exact (verdictResult_keeps hP ht v).mono fun _ _ hv => hv ▸ ht

/-! ## Flash ports -/

/-- Two states in which the same blocks are open at the same bases. -/
def SameOpen (u v : State) : Prop :=
  ∀ c, (v.block c).valid = (u.block c).valid ∧ (v.block c).base = (u.block c).base

omit hP in
theorem SameOpen.of_blocks {v : State} (hgen : v.gen = u.gen) (hboot : v.boot = u.boot) : SameOpen u v
  | .gen => by simp [hgen]
  | .boot => by simp [hboot]

omit hP in
theorem SameOpen.trans {v w : State} (h1 : SameOpen u v) (h2 : SameOpen v w) : SameOpen u w := fun c =>
  ⟨(h2 c).1.trans (h1 c).1, (h2 c).2.trans (h1 c).2⟩

/-- R38, R43: a covered FlashRead. -/
theorem flashRead_keeps (h : Mid P D s u) {a n : Nat} (hc : rangeCovered u.cfg a n = true) :
    (flashRead a n u).Ends (fun l v => Mid P D s v ∧ l.length = n ∧ v.cfg = u.cfg) (Mid P Driven s) := by
  rw [flashRead, if_pos hc]
  refine (call_keeps hP h (hP (.flashRead a n) fun _ _ => nofun)).bind ?_
  rintro _ v ⟨hv, c, rfl⟩
  exact ⟨hv, flashBytes_length _ _ _, rfl⟩

/-- R38, R44: a covered ProgramBlock. -/
theorem programBlock_keeps (h : Mid P D s u) {a : Nat} {l : List Byte} (hc : rangeCovered u.cfg a l.length = true)
    (he : ∀ v, P (.programBlock a l v)) :
    (programBlock a l u).Ends (fun _ v => Mid P D s v ∧ SameOpen u v) (Mid P Driven s) := by
  rw [programBlock, if_pos hc]
  refine (answeredCall_keeps hP h).bind ?_
  rintro v t ⟨env, rfl⟩
  have hlen : (if v = Verdict.ok then l else u.env.bytesOf .program l.length).length = l.length := by
    split_ifs <;> simp
  have ht := (h.recorded env (es := [.programBlock a l v]) (by simpa using he v)).setFlash
    (a := a) (l := if v = .ok then l else u.env.bytesOf .program l.length)
    (by rw [hlen]; exact rangeCovered_le hc)
  refine (verdictResult_keeps hP ht v).mono ?_
  rintro _ _ rfl
  exact ⟨ht, .of_blocks rfl rfl⟩

/-- R47: Decrypt leaves WBS bytes in the buffer. -/
theorem decrypt_keeps (h : Mid P D s u) (b : BlockId) :
    (decrypt b u).Ends (fun _ v => Mid P D s v ∧ SameOpen u v) (Mid P Driven s) := by
  refine (answeredCall_keeps hP h).bind ?_
  rintro v t ⟨env, rfl⟩
  have ht := (h.recorded env (es := [.decrypt u.cfg.wbs v])
    (by simpa using hP (.decrypt u.cfg.wbs v) fun _ _ => nofun)).setBuf b
    (l := u.env.bytesOf .decrypt u.cfg.wbs) (by simp)
  refine (verdictResult_keeps hP ht v).mono ?_
  rintro _ _ rfl
  refine ⟨ht, fun c => ?_⟩
  cases b <;> cases c <;> exact ⟨rfl, rfl⟩

/-- R45: EraseSector of a table entry. -/
theorem eraseSector_keeps (h : Mid P D s u) {e : Sector} (he : e ∈ u.cfg.sectorTable) :
    (eraseSector e u).Ends (fun _ v => Mid P D s v) (Mid P Driven s) := by
  refine (answeredCall_keeps hP h).bind ?_
  rintro v t ⟨env, rfl⟩
  have hcall := h.recorded env (es := [.eraseSector e.sectorId e.bankId v])
    (by simpa using hP (.eraseSector e.sectorId e.bankId v) fun _ _ => nofun)
  have ht : Mid P D s (if v = .ok then State.eraseFlash { u with
        env := env, events := u.events ++ [.eraseSector e.sectorId e.bankId v] } e.start e.size
      else State.setFlash { u with
        env := env, events := u.events ++ [.eraseSector e.sectorId e.bankId v] } e.start
          (u.env.bytesOf .erase e.size)) := by
    split_ifs
    · exact hcall.eraseFlash _ _
    · exact hcall.setFlash (by simpa using (u.cfg.sector he).2.1)
  exact (verdictResult_keeps hP ht v).mono fun _ _ hv => hv ▸ ht

end

/-! ## The block operations of R74 to R77 -/

/-- The block `b` is open at `base`. -/
def State.OpenAt (u : State) (b : BlockId) (base : Nat) : Prop :=
  (u.block b).valid = true ∧ (u.block b).base.toNat = base

section
variable {P : Event → Prop} {D : Bool → Wait → Prop} {s u : State}
  (hP : ∀ e : Event, e.sparesBoot s.cfg → P e)

/-- R27: where a block can be open, and which of the two. -/
theorem Mid.openAt (h : Mid P D s u) {b : BlockId} {base : Nat} (ho : u.OpenAt b base) :
    base % u.cfg.wbs = 0 ∧ covered u.cfg base = true ∧ (b = .boot ↔ base = u.cfg.bootBase) := by
  obtain ⟨hv, rfl⟩ := ho
  cases b with
  | gen =>
    obtain ⟨hal, hne, hcov⟩ := h.gen.2 hv
    exact ⟨hal, hcov, nofun, fun heq => absurd heq hne⟩
  | boot =>
    have hbase : (u.block .boot).base.toNat = u.cfg.bootBase := h.boot.2 hv
    have hcov := (rangeCovered_iff.1 u.cfg.boot_covered).2.2
    have hw := u.cfg.wbs_pos
    rw [hbase]
    exact ⟨u.cfg.bootBase_aligned, hcov _ le_rfl (by omega), by simp⟩

/-- Writing a byte into a buffer leaves its length and what is open. -/
theorem Mid.setBufByte (h : Mid P D s u) (b : BlockId) (i : Nat) (v : Byte) : Mid P D s (u.setBufByte b i v) :=
  h.setBuf b (by rw [List.length_set]; exact h.buf_length b)

theorem State.OpenAt.setBufByte {b : BlockId} {base : Nat} (h : u.OpenAt b base) (i : Nat) (v : Byte) :
    (u.setBufByte b i v).OpenAt b base := by simpa [State.OpenAt] using h

include hP

/-- R74: a block opens where a block of its kind may. -/
theorem openBlock_keeps (h : Mid P D s u) {b : BlockId} {base : Nat} (hal : base % u.cfg.wbs = 0)
    (hcov : covered u.cfg base = true) (hb : b = .boot ↔ base = u.cfg.bootBase) :
    (openBlock b base u).Ends (fun _ v => Mid P D s v ∧ v.OpenAt b base) (Mid P Driven s) := by
  have hwhole := u.cfg.block_covered hal hcov
  have hbase : (BitVec.ofNat 32 base).toNat = base := by
    have hw := u.cfg.wbs_pos
    have hle := rangeCovered_le hwhole
    rw [Params.addrSpace] at hle
    simp only [BitVec.toNat_ofNat]
    omega
  rw [openBlock]
  split_ifs with hopen
  · simp only [Bool.and_eq_true, decide_eq_true_eq] at hopen
    exact ⟨h, hopen⟩
  · refine (flashRead_keeps hP h hwhole).bind ?_
    rintro l v ⟨hv, hl, hcfg⟩
    rw [← hcfg] at hl hal hcov hb
    cases b with
    | gen =>
      refine ⟨{ hv with gen := ⟨hl, fun _ => ?_⟩ }, rfl, hbase⟩
      exact ⟨by simpa [hbase] using hal, by simpa [hbase] using hb, by simpa [hbase] using hcov⟩
    | boot => exact ⟨{ hv with boot := ⟨hl, fun _ => by simpa [hbase] using hb⟩ }, rfl, hbase⟩

/-- R75: a flush of an open block, where `P` allows its ProgramBlock. -/
theorem flushBlock_keeps (h : Mid P D s u) {b : BlockId} (hv : (u.block b).valid = true)
    (he : ∀ l v, P (.programBlock (u.block b).base.toNat l v)) :
    (flushBlock b u).Ends (fun _ v => Mid P D s v ∧ SameOpen u v) (Mid P Driven s) := by
  have hprogram : ∀ v, Mid P D s v → SameOpen u v →
      (programBlock (v.block b).base.toNat (v.block b).buf v).Ends
        (fun _ w => Mid P D s w ∧ SameOpen u w) (Mid P Driven s) := by
    intro v hmid hsame
    obtain ⟨hal, hcov, -⟩ := hmid.openAt ⟨(hsame b).1.trans hv, rfl⟩
    refine (programBlock_keeps hP hmid ?_ ?_).mono fun _ w hw => ⟨hw.1, hsame.trans hw.2⟩
    · rw [hmid.buf_length b]
      exact v.cfg.block_covered hal hcov
    · rw [(hsame b).2]
      exact he _
  rw [flushBlock]
  split_ifs
  · refine (decrypt_keeps hP h b).bind ?_
    rintro ok v ⟨hmid, hsame⟩
    split_ifs
    · exact hprogram v hmid hsame
    · exact ⟨hmid, hsame⟩
  · exact hprogram u h (.of_blocks rfl rfl)

/-- A flush of the open generic block spares the boot block (R27 (c)). -/
theorem flushGen_keeps (h : Mid P D s u) (hv : u.gen.valid = true) :
    (flushBlock .gen u).Ends (fun _ v => Mid P D s v) (Mid P Driven s) := by
  refine (flushBlock_keeps hP h (b := .gen) hv fun l v => hP _ fun _ _ heq => ?_).mono fun _ _ hw => hw.1
  have hbase : (u.block .gen).base.toNat = s.cfg.bootBase := (Event.programBlock.inj heq).1
  exact (h.gen.2 hv).2.1 (by rw [h.cfg]; exact hbase)

/-- R76: after a switch the new block is open; the boot block is never switched to its own base. -/
theorem switchBlock_keeps (h : Mid P D s u) {b : BlockId} {nb : Nat} (hal : nb % u.cfg.wbs = 0)
    (hcov : covered u.cfg nb = true) (hgen : b = .gen → u.gen.valid = true)
    (hboot : b = .boot → nb ≠ u.cfg.bootBase) :
    (switchBlock b nb u).Ends (fun r v => Mid P D s v ∧ ∀ b', r = some b' → v.OpenAt b' nb) (Mid P Driven s) := by
  have hopen : ∀ (ok : Bool) (v : State), nb ≠ u.cfg.bootBase → Mid P D s v →
      (if ok then (openBlock .gen nb v).bind fun _ s => Res.ok (some BlockId.gen) s else .ok none v).Ends
        (fun r v => Mid P D s v ∧ ∀ b', r = some b' → v.OpenAt b' nb) (Mid P Driven s) := by
    intro ok v hne hv
    rw [← hv.cfg.trans h.cfg.symm] at hal hcov hne
    split_ifs
    · refine (openBlock_keeps hP hv hal hcov (by simpa using hne)).bind ?_
      rintro _ w ⟨hw, ho⟩
      exact ⟨hw, by rintro b' ⟨⟩; exact ho⟩
    · exact ⟨hv, nofun⟩
  cases b with
  | boot =>
    rw [switchBlock]
    refine Res.Ends.bind (Q := fun _ v => Mid P D s v) ?_ fun ok v => hopen ok v (hboot rfl)
    split_ifs with hflush
    · simp only [Bool.and_eq_true] at hflush
      exact flushGen_keeps hP h hflush.1
    · exact h
  | gen =>
    rw [switchBlock]
    split_ifs with hnb
    · refine (openBlock_keeps hP h u.cfg.bootBase_aligned (hnb ▸ hcov) (by simp)).bind ?_
      rintro _ w ⟨hw, ho⟩
      exact ⟨hw, by rintro b' ⟨⟩; rwa [hnb]⟩
    · exact (flushGen_keeps hP h (hgen rfl)).bind fun ok v => hopen ok v hnb

end

end Sys2Proof.Machine
end

