-- ==== Sys2Proof/Proofs/KeepsNvm.lean ====
section
/-! PROOFS. What the NVM commands keep of the invariant (spec/40_nvm_block.md R77 to R91). -/

namespace Sys2Proof.Machine

open Sys2Proof

/-! ## Operands -/

section
variable {E : State → Prop} {u : State}

theorem readArgAddr_keeps : (readArgAddr u).Ends (fun _ v => v = u) E := by
  rw [readArgAddr]
  split_ifs
  · exact rfl
  · exact nofun

theorem readArgLen_keeps : (readArgLen u).Ends (fun _ v => v = u) E := by
  rw [readArgLen]
  split_ifs
  · exact rfl
  · exact nofun

theorem readData_keeps (n : Nat) : (readData n u).Ends (fun l v => v = u ∧ l = u.host.dbuf.take n) E := by
  rw [readData]
  split_ifs
  · exact ⟨rfl, rfl⟩
  · exact nofun

end

@[simp] theorem littleBytes_length (n v : Nat) : (littleBytes n v).length = n := by
  induction n generalizing v with
  | zero => rfl
  | succ n ih => simp [littleBytes, ih]

@[simp] theorem serialize_length (c : Config) (v : Nat) : (serialize c v).length = c.csBytes := by
  rw [serialize]
  cases c.csEndian <;> simp

/-- R38, R41: a word that lies in the first write block is covered. -/
theorem bootWord_covered {c : Config} {off : Nat} (h : off + c.csBytes ≤ c.wbs) :
    rangeCovered c (c.bootBase + off) c.csBytes = true := by
  have hpos : 1 ≤ c.csBytes := by
    rcases c.checksum.1 with ⟨-, hb⟩ | ⟨-, hb⟩ <;> omega
  exact rangeCovered_part c.boot_covered hpos (by omega) (by omega)

/-! ## The write commands -/

section
variable {P : Event → Prop} {D : Bool → Wait → Prop} {s u : State}
  (hP : ∀ e : Event, e.sparesBoot s.cfg → P e)
include hP

/-- R77: the copying loop, over a range that stays covered. -/
theorem copyBytes_keeps {ds : List Byte} {b : BlockId} {cb off : Nat} (h : Mid P Driven s u) (ho : u.OpenAt b cb)
    (hcov : ∀ x, cb + off ≤ x → x < cb + off + ds.length → covered u.cfg x = true) :
    (copyBytes b cb off ds u).Ends (fun _ v => Mid P Driven s v) (Mid P Driven s) := by
  induction ds generalizing b cb off u with
  | nil => exact h
  | cons d ds ih =>
    simp only [List.length_cons] at hcov
    rw [copyBytes]
    split_ifs with hend
    · obtain ⟨hal, -, hboot⟩ := h.openAt ho
      have hwbs := u.cfg.wbs_pos
      subst hend
      have hnext : (cb + u.cfg.wbs) % u.cfg.wbs = 0 := by simpa using hal
      refine (switchBlock_keeps hP h hnext (hcov _ le_rfl (by omega)) (fun hb => ?_) fun hb => ?_).bind ?_
      · subst hb; exact ho.1
      · have := hboot.1 hb
        omega
      · rintro r v ⟨hv, hopen⟩
        cases r with
        | none => exact hv.setStatus _
        | some b' =>
          have hcfg : v.cfg = u.cfg := hv.cfg.trans h.cfg.symm
          change Res.Ends _ _ (copyBytes b' (cb + v.cfg.wbs) 1 ds (v.setBufByte b' 0 d))
          rw [hcfg]
          refine ih (hv.setBufByte b' 0 d) ((hopen b' rfl).setBufByte 0 d) fun x hx hx' => ?_
          rw [State.setBufByte_cfg, hcfg]
          exact hcov x (by omega) (by omega)
    · refine ih (h.setBufByte b off d) (ho.setBufByte off d) fun x hx hx' => ?_
      rw [State.setBufByte_cfg]
      exact hcov x (by omega) (by omega)

/-- R77: the block in which a write starts is open at its base. -/
theorem enterBlock_keeps (h : Mid P Driven s u) {b : BlockId} {cb : Nat} (hal : cb % u.cfg.wbs = 0)
    (hcov : covered u.cfg cb = true) (hb : b = .boot ↔ cb = u.cfg.bootBase) :
    (enterBlock b cb u).Ends (fun r v => Mid P Driven s v ∧ ∀ b', r = some b' → v.OpenAt b' cb)
      (Mid P Driven s) := by
  rw [enterBlock]
  split_ifs with hv hbase
  · exact ⟨h, by rintro b' ⟨⟩; exact ⟨hv, hbase⟩⟩
  · refine switchBlock_keeps hP h hal hcov (by rintro rfl; exact hv) ?_
    rintro rfl
    exact absurd ((h.boot.2 hv).trans (hb.1 rfl).symm) hbase
  · refine (openBlock_keeps hP h hal hcov hb).bind ?_
    rintro _ v ⟨hv', ho⟩
    exact ⟨hv', by rintro b' ⟨⟩; exact ho⟩

/-- R80: a write of a covered range. -/
theorem routeWrite_keeps (h : Mid P Driven s u) {a : Nat} {ds : List Byte}
    (hcov : rangeCovered u.cfg a ds.length = true) :
    (routeWrite a ds u).Ends (fun _ v => Mid P Driven s v) (Mid P Driven s) := by
  obtain ⟨hpos, -, hall⟩ := rangeCovered_iff.1 hcov
  obtain ⟨hbcov, hal, hle, -⟩ := u.cfg.blockBase_covered (hall a le_rfl (by omega))
  have hadd : ∀ b, (b = .boot ↔ blockBase u.cfg a = u.cfg.bootBase) →
      (addToBlock b a ds u).Ends (fun _ v => Mid P Driven s v) (Mid P Driven s) := by
    intro b hb
    refine (enterBlock_keeps hP h hal hbcov hb).bind ?_
    rintro r v ⟨hv, hopen⟩
    cases r with
    | none => exact hv.setStatus _
    | some b' =>
      have hcfg : v.cfg = u.cfg := hv.cfg.trans h.cfg.symm
      rw [← hcfg] at hopen hle hall
      exact copyBytes_keeps hP hv (hopen b' rfl) fun x hx hx' => hall x (by omega) (by omega)
  rw [routeWrite]
  split_ifs with hb
  · exact hadd .boot (by simpa using hb)
  · exact hadd .gen (by simpa using hb)

/-- R80, R85: the body of a write, with data of its own length. -/
theorem writeBody_keeps (h : Mid P Driven s u) {a n : Nat} {data : State → Res (List Byte)}
    (hdata : n ≤ u.cfg.dbufSize → (data u).Ends (fun l v => v = u ∧ l.length = n) (Mid P Driven s)) :
    (writeBody a n data u).Ends (fun _ v => Mid P Driven s v) (Mid P Driven s) := by
  rw [writeBody]
  split_ifs with hok
  · obtain ⟨hfits, hcov⟩ := writeRangeOk_iff.1 hok
    refine (hdata hfits).bind ?_
    rintro l v ⟨rfl, rfl⟩
    exact routeWrite_keeps hP h hcov
  · exact h.setStatus _

theorem execNvmWrite_keeps (h : s.Inv) : outcomeKeeps (Mid P Driven s) (execNvmWrite s) := by
  have h0 : Mid P Driven s s := .refl h
  refine Res.Ends.finish (Q := fun _ v => Mid P Driven s v) (readArgLen_keeps.bind ?_) fun t ht => ht.setStatus _
  rintro n u rfl
  split_ifs
  · refine readArgAddr_keeps.bind ?_
    rintro a v rfl
    refine writeBody_keeps hP h0 fun hfits => (readData_keeps n).mono ?_
    rintro l w ⟨rfl, rfl⟩
    exact ⟨rfl, List.length_take_of_le (by rw [h0.host.1]; exact hfits)⟩
  · exact h0.setStatus _

theorem execNvmWriteChecksum_keeps (h : s.Inv) : outcomeKeeps (Mid P Driven s) (execNvmWriteChecksum s) := by
  have h0 : Mid P Driven s s := .refl h
  refine Res.Ends.finish (Q := fun _ v => Mid P Driven s v) ?_ fun t ht => ht.setStatus _
  split_ifs
  · exact writeBody_keeps hP h0 fun _ => ⟨rfl, serialize_length _ _⟩
  · exact h0

/-! ## NVM_ERASE and NVM_VERIFY_CHECKSUM -/

/-- R82: the erase loop takes entries of the table alone. -/
theorem eraseLoop_keeps {es : List Sector} {a n : Nat} (h : Mid P Driven s u) (hes : ∀ e ∈ es, e ∈ s.cfg.sectorTable) :
    (eraseLoop a n es u).Ends (fun _ v => Mid P Driven s v) (Mid P Driven s) := by
  induction es generalizing u with
  | nil => exact h
  | cons e es ih =>
    have htail : ∀ f ∈ es, f ∈ s.cfg.sectorTable := fun f hf => hes f (List.mem_cons_of_mem _ hf)
    rw [eraseLoop]
    split_ifs
    · refine (eraseSector_keeps hP h (by rw [h.cfg]; exact hes e List.mem_cons_self)).bind fun ok v hv => ?_
      split_ifs
      · exact ih hv htail
      · exact hv.setStatus _
    · exact ih h htail

theorem execNvmErase_keeps (h : s.Inv) : outcomeKeeps (Mid P Driven s) (execNvmErase s) := by
  have h0 : Mid P Driven s s := .refl h
  refine Res.Ends.finish (Q := fun _ v => Mid P Driven s v) (readArgAddr_keeps.bind ?_) fun t ht => ht.setStatus _
  rintro a u rfl
  refine readArgLen_keeps.bind ?_
  rintro n v rfl
  split_ifs
  · exact eraseLoop_keeps hP h0 fun e he => he
  · exact h0.setStatus _

/-- R87: the summing loop reads words of the first write block alone. -/
theorem verifySum_keeps (k n sum : Nat) (h : Mid P Driven s u) (hk : k + n ≤ u.cfg.csWordCount) :
    (verifySum k n sum u).Ends (fun _ v => Mid P Driven s v) (Mid P Driven s) := by
  induction n generalizing k sum u with
  | zero => exact h
  | succ n ih =>
    rw [verifySum]
    refine (flashRead_keeps hP h (bootWord_covered (vectorWord_le_wbs u.cfg (by omega)))).bind ?_
    rintro l v ⟨hv, -, hcfg⟩
    exact ih _ _ hv (by rw [hcfg]; omega)

theorem execNvmVerifyChecksum_keeps (h : s.Inv) : outcomeKeeps (Mid P Driven s) (execNvmVerifyChecksum s) := by
  refine Res.Ends.finish (Q := fun _ v => Mid P Driven s v) ?_ fun t ht => ht.setStatus _
  refine (verifySum_keeps hP 0 s.cfg.csWordCount 0 (.refl h) (by omega)).bind fun sum u hu => ?_
  refine (flashRead_keeps hP hu (bootWord_covered u.cfg.checksum.2.1)).bind ?_
  rintro l v ⟨hv, -, -⟩
  exact hv.setResult _

end

/-! ## NVM_DONE -/

/-- R89: the one command that may program the boot block. -/
theorem commitBlock_keeps {P : Event → Prop} (hP : ∀ e, P e) {s u : State} (h : Mid P Driven s u) (b : BlockId) :
    (commitBlock b u).Ends (fun _ v => Mid P Driven s v) (Mid P Driven s) := by
  rw [commitBlock]
  split_ifs with hv
  · refine (flushBlock_keeps (fun e _ => hP e) h hv fun l v => hP _).bind ?_
    rintro ok v ⟨hmid, -⟩
    split_ifs
    · exact hmid.setInvalid b
    · exact hmid.setStatus _
  · exact h

theorem execNvmDone_keeps {P : Event → Prop} (hP : ∀ e, P e) {s : State} (h : s.Inv) :
    outcomeKeeps (Mid P Driven s) (execNvmDone s) := by
  refine Res.Ends.finish (Q := fun _ v => Mid P Driven s v) ?_ fun t ht => ht.setStatus _
  exact (commitBlock_keeps hP (.refl h) .gen).bind fun _ u hu => commitBlock_keeps hP hu .boot

end Sys2Proof.Machine
end

