-- ==== Sys2Proof/Proofs/KeepsStep.lean ====
section
/-! PROOFS. What the PF, CRC and MB commands, the reset sequence and every step keep of the invariant, and which calls
they make (spec/10_state.md R24, R27 to R32; spec/20_memory.md R38; spec/40_nvm_block.md R90). -/

namespace Sys2Proof.Machine

open Sys2Proof

/-! ## The packet registers and the two receivers -/

section
variable {P : Event → Prop} {D : Bool → Wait → Prop} {s u : State}

theorem Mid.withPf (h : Mid P D s u) {p : PfUnit} (hp : State.PfOk { u with pf := p }) :
    Mid P D s { u with pf := p } := { h with pf := hp }

theorem Mid.withCrc (h : Mid P D s u) (c : Half) : Mid P D s { u with crcReg := c } := { h with }

/-- R23: a payload of MAX_DATA bytes or fewer may be delivered. -/
theorem Mid.deliver (h : Mid P D s u) (n : BitVec 8) {p : List Byte} (hp : p.length ≤ u.cfg.maxData) :
    Mid P D s (u.deliver n p) := by
  obtain ⟨hdbuf, hmarks, hpkt, hdelivered, hstatus⟩ := h.host
  refine { h with host := ⟨hdbuf, hmarks, ?_, ?_, hstatus⟩ }
  · simp only [State.deliver_host_pktData, List.length_append, List.length_drop, State.deliver_cfg]; omega
  · simp only [State.deliver_host_pktDataWritten, State.deliver_cfg]; omega

theorem pfTimeout_keeps (h : Mid P D s u) (now : Word) : Mid P D s (pfTimeout now u) := by
  rw [pfTimeout]
  split_ifs
  · exact { h with pf := ⟨h.pf.1, nofun, fun _ => rfl⟩ }
  · exact h

/-- R28: a byte in IDLE starts a packet of a legal length, or nothing. -/
theorem pfIdle_keeps (h : Mid P D s u) (b : Byte) (now : Word) : Mid P D s (pfIdle b now u) := by
  rw [pfIdle]
  split_ifs with hb
  · exact { h with pf := ⟨h.pf.1, fun _ => ⟨hb.1, hb.2, Nat.lt_of_lt_of_le Nat.zero_lt_one hb.1⟩, nofun⟩ }
  · exact h

/-- R28: a byte in RECEIVING brings PF_COUNT nearer to PF_EXPECTED, or ends the packet. -/
theorem pfRecv_keeps (h : Mid P D s u) (hrecv : u.pf.state = .receiving) (b : Byte) (now : Word) :
    Mid P D s (pfRecv b now u) := by
  obtain ⟨hbuf, hbounds, -⟩ := h.pf
  obtain ⟨hpos, hmax, hlt⟩ := hbounds hrecv
  have hset : (u.pf.buf.set u.pf.count.toNat b).length = u.cfg.maxData := by simpa using hbuf
  rw [pfRecv]
  split_ifs with hlast
  · refine (h.withPf (p := { u.pf with
      state := .idle, count := 0, lastMs := now, buf := u.pf.buf.set u.pf.count.toNat b })
      ⟨hset, nofun, fun _ => rfl⟩).deliver _ ?_
    rw [List.length_take]
    exact (Nat.min_le_left _ _).trans hmax
  · refine { h with pf := ⟨hset, fun _ => ⟨hpos, hmax, ?_⟩, fun hidle => ?_⟩ }
    · change (u.pf.count + 1).toNat < u.pf.expected.toNat
      bv_omega
    · change u.pf.state = .idle at hidle
      rw [hrecv] at hidle
      cases hidle

theorem pfTake_keeps (h : Mid P D s u) (r : Option Byte) (now : Word) : Mid P D s (pfTake r now u) := by
  cases r with
  | none => exact h
  | some b =>
    rw [pfTake]
    split_ifs with hidle
    · exact pfIdle_keeps h b now
    · refine pfRecv_keeps h ?_ b now
      cases hst : u.pf.state with
      | idle => exact absurd hst hidle
      | receiving => rfl

/-- R113: a frame that passes the checks carries MAX_DATA bytes or fewer. -/
theorem mbValidate_keeps (h : Mid P D s u) : Mid P D s (mbValidate u) := by
  rw [mbValidate]
  split_ifs with hvalid
  · refine h.deliver _ ?_
    simp only [frameValid, Bool.and_eq_true, decide_eq_true_eq] at hvalid
    obtain ⟨⟨-, hlen⟩, -⟩ := hvalid
    have hfits : (u.mb.buf.take u.mb.count).length ≤ u.cfg.maxData + 5 :=
      (List.length_take_le _ _).trans h.mb.2.1
    rw [List.length_take]
    omega
  · exact h

/-- A new MB_COUNT within the buffer, with nothing kept while resynchronising (R30). -/
theorem Mid.setMbCount (h : Mid P D s u) {n : Nat} (hn : n = 0) : Mid P D s (setMbCount n u) := by
  subst hn
  exact { h with mb := ⟨h.mb.1, Nat.zero_le _, fun _ => rfl, h.mb.2.2.2⟩ }

theorem mbBoundary_keeps (h : Mid P D s u) (now : Word) : Mid P D s (mbBoundary now u) := by
  rw [mbBoundary]
  split_ifs
  · exact { h with mb := ⟨h.mb.1, h.mb.2.1, nofun, h.mb.2.2.2⟩ }
  · exact (mbValidate_keeps h).setMbCount rfl
  · exact h.setMbCount rfl
  · exact h
  · exact h

theorem mbTake_keeps (h : Mid P D s u) (r : Option Byte) (now : Word) : Mid P D s (mbTake r now u) := by
  cases r with
  | none => exact h
  | some b =>
    obtain ⟨hbuf, hcount, hsync, ht35⟩ := h.mb
    rw [mbTake, mbByte]
    dsimp only
    split_ifs with hs hfull
    · exact { h with mb := ⟨hbuf, hcount, hsync, ht35⟩ }
    · exact { h with mb := ⟨hbuf, Nat.zero_le _, fun _ => rfl, ht35⟩ }
    · refine { h with mb := ⟨by simpa using hbuf, ?_, fun hs' => absurd hs' hs, ht35⟩ }
      change u.mb.count + 1 ≤ u.cfg.mbBufSize
      omega

end

/-! ## Calls without an answer -/

/-- The driver is `on`, whatever is in progress: on the way of MB_TRANSMIT and of MB_INIT. -/
def DriverIs (on : Bool) : Bool → Wait → Prop := fun de _ => de = on

section
variable {P : Event → Prop} {D : Bool → Wait → Prop} {s u : State}
  (hP : ∀ e : Event, e.sparesBoot s.cfg → P e)
include hP

/-- A call other than those of the answered ports. -/
theorem plainCall_keeps (h : Mid P D s u) {e : Event} (he : e.sparesBoot s.cfg) :
    (call e u).Ends (fun _ v => Mid P D s v) (Mid P Driven s) :=
  (call_keeps hP h (hP e he)).mono fun _ _ hv => hv.1

theorem readMs_keeps (h : Mid P D s u) : (readMs u).Ends (fun _ v => Mid P D s v) (Mid P Driven s) :=
  (plainCall_keeps hP h (e := .nowMs u.env.nowMs) fun _ _ => nofun).bind fun _ _ hv => hv

theorem readTick_keeps (h : Mid P D s u) : (readTick u).Ends (fun _ v => Mid P D s v) (Mid P Driven s) :=
  (plainCall_keeps hP h (e := .nowTick u.env.nowTick) fun _ _ => nofun).bind fun _ _ hv => hv

theorem kick_keeps (h : Mid P D s u) : (kick u).Ends (fun _ v => Mid P D s v) (Mid P Driven s) :=
  plainCall_keeps hP h (e := .kick) fun _ _ => nofun

theorem rxBytePf_keeps (h : Mid P D s u) : (rxBytePf u).Ends (fun _ v => Mid P D s v) (Mid P Driven s) :=
  (plainCall_keeps hP h (e := .rxPf u.env.rxPf.head?) fun _ _ => nofun).bind fun _ _ hv => hv.withEnv _

theorem rxByteMb_keeps (h : Mid P D s u) : (rxByteMb u).Ends (fun _ v => Mid P D s v) (Mid P Driven s) :=
  (plainCall_keeps hP h (e := .rxMb u.env.rxMb.head?) fun _ _ => nofun).bind fun _ _ hv => hv.withEnv _

theorem driveEnable_keeps (h : Mid P D s u) (on : Bool) :
    (driveEnable on u).Ends (fun _ v => Mid P (DriverIs on) s v) (Mid P Driven s) :=
  (plainCall_keeps hP h (e := .driverEnable on) fun _ _ => nofun).bind fun _ _ hv => { hv with driver := rfl }

omit hP in
theorem readPacket_keeps (h : Mid P Driven s u) : (readPacket u).Ends (fun _ v => v = u) (Mid P Driven s) := by
  refine readArgLen_keeps.bind ?_
  rintro n v rfl
  split_ifs
  · exact (readData_keeps n).mono fun _ _ hv => hv.1
  · exact h.setStatus _

/-! ## The PF and CRC commands -/

theorem pfSend_keeps {bs : List Byte} (h : Mid P Driven s u) :
    (pfSend bs u).Ends (fun _ v => Mid P Driven s v) (Mid P Driven s) := by
  induction bs generalizing u with
  | nil => exact h
  | cons b bs ih =>
    refine (send_keeps hP h fun v => hP (.txPf b v) fun _ _ => nofun).bind fun ok v hv => ?_
    split_ifs
    · exact ih hv
    · exact hv.setStatus _

theorem execPfTransmit_keeps (h : s.Inv) : outcomeKeeps (Mid P Driven s) (execPfTransmit s) := by
  refine Res.Ends.finish (Q := fun _ v => Mid P Driven s v) ((readPacket_keeps (.refl h)).bind ?_)
    fun t ht => ht.setStatus _
  rintro l v rfl
  exact pfSend_keeps hP (.refl h)

theorem execPfPoll_keeps (h : s.Inv) : outcomeKeeps (Mid P Driven s) (execPfPoll s) := by
  refine Res.Ends.finish (Q := fun _ v => Mid P Driven s v) ?_ fun t ht => ht.setStatus _
  refine (readMs_keeps hP (.refl h)).bind fun now u hu => ?_
  refine (rxBytePf_keeps hP (pfTimeout_keeps (hu.setResult 0) now)).bind fun r v hv => ?_
  exact pfTake_keeps hv r now

omit hP in
theorem execCrcBlock_keeps (h : s.Inv) : outcomeKeeps (Mid P Driven s) (execCrcBlock s) := by
  have h0 : Mid P Driven s s := .refl h
  refine Res.Ends.finish (Q := fun _ v => Mid P Driven s v) (readArgLen_keeps.bind ?_) fun t ht => ht.setStatus _
  rintro n u rfl
  split_ifs
  · refine (readData_keeps n).bind ?_
    rintro l v ⟨rfl, -⟩
    exact { h0 with }
  · exact h0.setStatus _

/-! ## The busy waits -/

theorem delayIteration_keeps (h : Mid P D s u) (d : Nat) (t0 : Word) :
    (delayIteration d t0 u).Ends (fun _ v => Mid P D s v) (Mid P Driven s) :=
  (kick_keeps hP h).bind fun _ _ hv => (readTick_keeps hP hv).bind fun _ _ hw => hw

theorem delayWait_keeps {ws : List WaitSample} (h : Mid P D s u) (d : Nat) (t0 : Word) :
    (delayWait d t0 ws u).Ends (fun _ v => Mid P D s v) (Mid P Driven s) := by
  induction ws generalizing u with
  | nil => exact delayIteration_keeps hP h d t0
  | cons w ws ih =>
    refine (delayIteration_keeps hP (u := applySample w ws u) (h.withEnv _) d t0).bind fun done v hv => ?_
    split_ifs
    · exact hv
    · exact ih hv

theorem idleIteration_keeps (h : Mid P D s u) (t0 : Word) :
    (idleIteration t0 u).Ends (fun _ v => Mid P D s v) (Mid P Driven s) := by
  refine (kick_keeps hP h).bind fun _ v hv => (rxByteMb_keeps hP hv).bind fun r w hw =>
    (readTick_keeps hP hw).bind fun now x hx => ?_
  split_ifs <;> exact hx

/-- R110: with the driver off, the idle-line wait may end or stay in progress. -/
theorem idleWait_keeps {ws : List WaitSample} {t0 : Word} (h : Mid P (DriverIs false) s u) :
    (idleWait ws t0 u).Ends (fun _ v => Mid P Driven s v) (Mid P Driven s) := by
  have hdone : ∀ now v, Mid P (DriverIs false) s v →
      (idleDone now v).Ends (fun _ v => Mid P Driven s v) (Mid P Driven s) :=
    fun _ _ hv => { hv with driver := hv.driver }
  induction ws generalizing t0 u with
  | nil =>
    refine (idleIteration_keeps hP h t0).bind fun r v hv => ?_
    split_ifs
    · exact hdone _ _ hv
    · exact { hv with driver := hv.driver }
  | cons w ws ih =>
    refine (idleIteration_keeps hP (u := applySample w ws u) (h.withEnv _) t0).bind fun r v hv => ?_
    split_ifs
    · exact hdone _ _ hv
    · exact ih hv

/-! ## The MB commands and the reset sequence -/

/-- R110: MB_INIT turns the driver off, whatever was in progress. -/
theorem mbInitBody_keeps (h : Mid P D s u) :
    (mbInitBody u).Ends (fun _ v => Mid P Driven s v) (Mid P Driven s) := by
  have hpre : Mid P (DriverIs false) s (mbInitPrelude u) :=
    { h with mb := ⟨h.mb.1, Nat.zero_le _, nofun, rfl⟩, driver := rfl }
  exact (readTick_keeps hP hpre).bind fun t0 v hv => idleWait_keeps hP hv

theorem mbSend_keeps {bs : List Byte} (h : Mid P D s u) :
    (mbSend bs u).Ends (fun _ v => Mid P D s v) (Mid P Driven s) := by
  induction bs generalizing u with
  | nil => exact h
  | cons b bs ih =>
    cases bs with
    | nil => exact send_keeps hP h fun v => hP (.txMbLast b v) fun _ _ => nofun
    | cons b' bs =>
      refine (send_keeps hP h fun v => hP (.txMb b v) fun _ _ => nofun).bind fun ok v hv => ?_
      split_ifs
      · exact ih hv
      · exact hv

/-- R116: the post-delay releases the driver at its end, and leaves it on while it stays in progress. -/
theorem mbPostWait_keeps (h : Mid P (DriverIs true) s u) (t0 : Word) (ok : Bool) :
    (mbPostWait t0 ok u).Ends (fun _ v => Mid P Driven s v) (Mid P Driven s) := by
  refine (delayWait_keeps hP h _ t0).bind fun done v hv => ?_
  split_ifs
  · refine (driveEnable_keeps hP hv false).bind fun _ w hw => ?_
    have hidle : Mid P Driven s { w with wait := .idle } := { hw with driver := hw.driver }
    dsimp only
    split_ifs
    · exact hidle
    · exact hidle.setStatus _
  · exact { hv with driver := hv.driver }

theorem mbSendFrame_keeps (h : Mid P (DriverIs true) s u) (f : List Byte) :
    (mbSendFrame f u).Ends (fun _ v => Mid P Driven s v) (Mid P Driven s) := by
  refine (mbSend_keeps hP h).bind fun ok v hv => ?_
  have hmove : Mid P (DriverIs true) s (moveTick v) := by
    rw [moveTick]
    split
    · exact hv
    · exact hv.withEnv _
  exact (readTick_keeps hP hmove).bind fun t0 w hw => mbPostWait_keeps hP hw t0 ok

theorem mbPreWait_keeps (h : Mid P (DriverIs true) s u) (t0 : Word) (f : List Byte) :
    (mbPreWait t0 f u).Ends (fun _ v => Mid P Driven s v) (Mid P Driven s) := by
  refine (delayWait_keeps hP h _ t0).bind fun done v hv => ?_
  split_ifs
  · exact mbSendFrame_keeps hP hv f
  · exact { hv with driver := hv.driver }

theorem execMbTransmit_keeps (h : s.Inv) : outcomeKeeps (Mid P Driven s) (execMbTransmit s) := by
  refine Res.Ends.finish (Q := fun _ v => Mid P Driven s v) ((readPacket_keeps (.refl h)).bind ?_)
    fun t ht => ht.setStatus _
  rintro l v rfl
  exact (driveEnable_keeps hP (.refl h) true).bind fun _ w hw =>
    (readTick_keeps hP hw).bind fun t0 x hx => mbPreWait_keeps hP hx t0 _

theorem execMbPoll_keeps (h : s.Inv) : outcomeKeeps (Mid P Driven s) (execMbPoll s) := by
  refine Res.Ends.finish (Q := fun _ v => Mid P Driven s v) ?_ fun t ht => ht.setStatus _
  refine (readTick_keeps hP (.refl h)).bind fun now u hu => ?_
  refine (rxByteMb_keeps hP (mbBoundary_keeps (hu.setResult 0) now)).bind fun r v hv => ?_
  exact mbTake_keeps hv r now

omit hP in
theorem nvmInitBody_keeps (h : Mid P D s u) : Mid P D s (nvmInitBody u) :=
  ((h.setInvalid .gen).setInvalid .boot).setStatus _

omit hP in
theorem pfInitBody_keeps (h : Mid P D s u) : Mid P D s (pfInitBody u) :=
  (h.withPf (p := { u.pf with state := .idle, count := 0 }) ⟨h.pf.1, nofun, fun _ => rfl⟩).setStatus _

omit hP in
theorem crcInitBody_keeps (h : Mid P D s u) : Mid P D s (crcInitBody u) :=
  (h.withCrc _).setStatus _

/-- R62, R135: one more turn of what is in progress. -/
theorem resumeWait_keeps (h : s.Inv) : outcomeKeeps (Mid P Driven s) (resumeWait s) := by
  have h0 : Mid P Driven s s := .refl h
  have hdriver : ∀ w, s.wait = w → s.mb.de = w.transmitting := fun w hw => hw ▸ h0.driver
  have hend : ∀ {r : Res Unit}, r.Ends (fun _ v => Mid P Driven s v) (Mid P Driven s) →
      outcomeKeeps (Mid P Driven s) r.finish := fun hr => hr.finish fun t ht => ht.setStatus _
  rw [resumeWait]
  split
  · exact h0
  · exact hend (mbInitBody_keeps hP (crcInitBody_keeps (pfInitBody_keeps (nvmInitBody_keeps h0))))
  · next t0 hw => exact hend (idleWait_keeps hP { h0 with driver := hdriver _ hw })
  · next t0 f hw => exact hend (mbPreWait_keeps hP { h0 with driver := hdriver _ hw } t0 f)
  · next t0 ok hw => exact hend (mbPostWait_keeps hP { h0 with driver := hdriver _ hw } t0 ok)

/-! ## Every command -/

/-- Every command keeps the invariant and the configuration; every command but NVM_DONE spares the boot block. -/
theorem exec_keeps (h : s.Inv) (i : Instr) (hdone : i = .nvmDone → ∀ e, P e) :
    outcomeKeeps (Mid P Driven s) (exec i s) := by
  have h0 : Mid P Driven s s := .refl h
  cases i with
  | nvmInit => exact nvmInitBody_keeps h0
  | nvmWrite => exact execNvmWrite_keeps hP h
  | nvmErase => exact execNvmErase_keeps hP h
  | nvmWriteChecksum => exact execNvmWriteChecksum_keeps hP h
  | nvmVerifyChecksum => exact execNvmVerifyChecksum_keeps hP h
  | nvmDone => exact execNvmDone_keeps (hdone rfl) h
  | nvmGetUserProgramBase => exact (h0.setResult _).setStatus _
  | pfInit => exact pfInitBody_keeps h0
  | pfTransmit => exact execPfTransmit_keeps hP h
  | pfPoll => exact execPfPoll_keeps hP h
  | crcInit => exact crcInitBody_keeps h0
  | crcByte b => exact (h0.withCrc _).setStatus _
  | crcRead => exact (h0.setResult _).setStatus _
  | crcBlock => exact execCrcBlock_keeps h
  | mbInit =>
    exact Res.Ends.finish (Q := fun _ v => Mid P Driven s v) (mbInitBody_keeps hP h0) fun t ht => ht.setStatus _
  | mbTransmit => exact execMbTransmit_keeps hP h
  | mbPoll => exact execMbPoll_keeps hP h
  | mbGetT35 => exact (h0.setResult _).setStatus _

end

/-! ## Every step -/

/-- The invariant and the configuration, after a step from `s`. -/
def StepKeeps (s t : State) : Prop := t.Inv ∧ t.cfg = s.cfg

theorem Mid.stepKeeps {P : Event → Prop} {s t : State} (h : Mid P Driven s t) : StepKeeps s t := ⟨h.inv, h.cfg⟩

theorem outcomeKeeps.mono {E E' : State → Prop} {o : Host.Outcome State Fault Refusal} (h : outcomeKeeps E o)
    (hE : ∀ t, E t → E' t) : outcomeKeeps E' o := by
  cases o with
  | next t => exact hE t h
  | fault f => exact h
  | refused r => exact h

/-- A move of the environment reaches the environment alone, or takes the power. -/
theorem applyEnvMove_keeps {s : State} (h : s.Inv) (m : EnvMove) : StepKeeps s (applyEnvMove m s) := by
  have h0 : Mid (fun _ => True) Driven s s := .refl h
  cases m with
  | powerLoss => exact (h0.powerOff trivial).stepKeeps
  | _ => exact (h0.withEnv _).stepKeeps

/-- The moves of the upstream agent that run no command keep the interface's buffers at their sizes. -/
theorem runUpMove_keeps {s : State} (h : s.Inv) (m : UpMove) : outcomeKeeps (StepKeeps s) (runUpMove m s) := by
  obtain ⟨hflash, ⟨hdbuf, hmarks, hpkt, hdelivered, hstatus⟩, hrest⟩ := h
  cases m with
  | argAddr v => exact ⟨⟨hflash, ⟨hdbuf, hmarks, hpkt, hdelivered, hstatus⟩, hrest⟩, rfl⟩
  | argLen v => exact ⟨⟨hflash, ⟨hdbuf, hmarks, hpkt, hdelivered, hstatus⟩, hrest⟩, rfl⟩
  | dbuf i b =>
    exact ⟨⟨hflash, ⟨by simpa using hdbuf, by simpa using hmarks, hpkt, hdelivered, hstatus⟩, hrest⟩, rfl⟩
  | read r =>
    rw [runUpMove, readRegister]
    split
    · exact ⟨⟨hflash, ⟨hdbuf, hmarks, hpkt, hdelivered, hstatus⟩, hrest⟩, rfl⟩
    · exact nofun
  | cmd w =>
    have hw : (writeCmd w s).Inv := ⟨hflash, ⟨hdbuf, hmarks, hpkt, hdelivered, hstatus⟩, hrest⟩
    rw [runUpMove, issue]
    split
    · next i _ =>
      exact (exec_keeps (P := fun _ => True) (fun _ _ => trivial) hw i fun _ _ => trivial).mono
        fun t ht => ht.stepKeeps
    · exact (Mid.setStatus (P := fun _ => True) (.refl hw) .illegal).stepKeeps

/-- Every step keeps the invariant and the configuration, and calls no flash port outside the covered addresses. -/
theorem step_keeps {s : State} (h : s.Inv) : outcomeKeeps (StepKeeps s) (step s) := by
  have hresume : outcomeKeeps (StepKeeps s) (resumeWait s) :=
    (resumeWait_keeps (P := fun _ => True) (fun _ _ => trivial) h).mono fun t ht => ht.stepKeeps
  rw [step, nextMove]
  split
  · exact hresume
  · next m ms _ => exact applyEnvMove_keeps (s := { s with moves := ms }) h m
  · next m ms _ =>
    split_ifs
    · rw [applyUpMove]
      split_ifs
      · exact runUpMove_keeps (s := { s with moves := ms }) h m
      · trivial
    · exact hresume

/-- Settles O13: every part of every step keeps the invariant. -/
theorem everyStepKeepsTheInvariant : Obligations.EveryStepKeepsTheInvariant := by
  intro s t h hstep
  have hkeeps := step_keeps h
  rw [hstep] at hkeeps
  exact hkeeps

/-- Settles O14: the invariant puts every FlashRead and ProgramBlock on the way inside the covered addresses. -/
theorem flashPortsStayCovered : Obligations.FlashPortsStayCovered := by
  intro s h hfault
  have hkeeps := step_keeps h
  rw [hfault] at hkeeps
  exact hkeeps rfl

/-- Settles O27: every ProgramBlock of another command is a flush of the generic block, which is never open at
BOOT_BASE (R27 (c)). -/
theorem onlyDoneProgramsTheBootBlock : Obligations.OnlyDoneProgramsTheBootBlock := by
  intro i s t h hi hexec
  have hkeeps := exec_keeps (P := Event.sparesBoot s.cfg) (fun _ he => he) h i fun hdone => absurd hdone hi
  rw [hexec] at hkeeps
  obtain ⟨es, hes, hspare⟩ := Mid.calls hkeeps
  refine ⟨es, hes, fun addr data v hmem haddr => ?_⟩
  exact hspare _ hmem data v (by rw [haddr])

end Sys2Proof.Machine
end

