-- ==== Sys2Proof/Proofs/Logs.lean ====
section
/-! PROOFS. What a further turn of a command in progress records (spec/30_encoding.md R62, spec/10_state.md R31): it never
faults, loses no move, and makes a call or loses power, wherever the power is lost. -/

namespace Sys2Proof.Machine

open Sys2Proof

/-- The moves are `ms` and the record of events has begun with `es`. -/
def Recording (ms : List Move) (es : List Event) (u : State) : Prop := u.moves = ms ∧ ∃ fs, u.events = es ++ fs

/-- The moves are `ms` and the record of events has grown beyond `es`. -/
def Recorded (ms : List Move) (es : List Event) (u : State) : Prop := u.moves = ms ∧ ∃ e fs, u.events = es ++ e :: fs

/-- A part of a command that never faults, and after which the record has grown beyond `es`. -/
def Res.Logs {α : Type} (ms : List Move) (es : List Event) : Res α → Prop
  | .ok _ t => Recorded ms es t
  | .ended t => Recorded ms es t
  | .fault _ => False

section
variable {α β : Type} {ms : List Move} {es : List Event} {u : State}

theorem Recorded.recording (h : Recorded ms es u) : Recording ms es u := by
  obtain ⟨hm, e, fs, hu⟩ := h
  exact ⟨hm, e :: fs, hu⟩

theorem Recording.append {v : State} (h : Recording ms es u) {e : Event} (hm : v.moves = u.moves)
    (he : v.events = u.events ++ [e]) : Recorded ms es v := by
  obtain ⟨hm', fs, hu⟩ := h
  refine ⟨hm.trans hm', ?_⟩
  rw [he, hu, List.append_assoc]
  cases fs with
  | nil => exact ⟨e, [], rfl⟩
  | cons f fs => exact ⟨f, fs ++ [e], rfl⟩

theorem Res.Logs.bind {r : Res α} {f : α → State → Res β} (hr : r.Logs ms es)
    (hf : ∀ a t, Recorded ms es t → (f a t).Logs ms es) : (r.bind f).Logs ms es := by
  cases r with
  | ok a t => exact hf a t hr
  | ended t => exact hr
  | fault e => exact hr

/-- A call is recorded, or the power loss before it is. -/
theorem call_logs (h : Recording ms es u) (e : Event) : (call e u).Logs ms es := by
  rcases call_spec e u with ⟨c, hc⟩ | ⟨-, hc⟩ <;> rw [hc]
  · exact h.append rfl rfl
  · exact h.append (v := powerOff u) rfl rfl

theorem readTick_logs (h : Recording ms es u) : (readTick u).Logs ms es := (call_logs h _).bind fun _ _ ht => ht

theorem rxByteMb_logs (h : Recording ms es u) : (rxByteMb u).Logs ms es := (call_logs h _).bind fun _ _ ht => ht

theorem driveEnable_logs (h : Recording ms es u) (on : Bool) : (driveEnable on u).Logs ms es :=
  (call_logs h _).bind fun _ _ ht => ht

/-- A byte send, whatever its verdict. -/
theorem send_logs (h : Recording ms es u) {p : Port} {n : Nat} {e : Verdict → Event} :
    ((answeredCall p n e u).bind verdictResult).Logs ms es := by
  have hcall : (answeredCall p n e u).Logs ms es := (call_logs h _).bind fun _ _ ht => ht
  refine hcall.bind fun v t ht => ?_
  cases v with
  | ok => exact ht
  | fail => exact ht
  | powerLoss => exact ht.recording.append (v := powerOff t) rfl rfl

theorem delayIteration_logs (h : Recording ms es u) (d : Nat) (t0 : Word) : (delayIteration d t0 u).Logs ms es :=
  (call_logs h _).bind fun _ _ ht => (readTick_logs ht.recording).bind fun _ _ hv => hv

theorem delayWait_logs {ws : List WaitSample} (h : Recording ms es u) (d : Nat) (t0 : Word) :
    (delayWait d t0 ws u).Logs ms es := by
  induction ws generalizing u with
  | nil => exact delayIteration_logs h d t0
  | cons w ws ih =>
    refine (delayIteration_logs (u := applySample w ws u) h d t0).bind fun done v hv => ?_
    split_ifs
    · exact hv
    · exact ih hv.recording

theorem idleIteration_logs (h : Recording ms es u) (t0 : Word) : (idleIteration t0 u).Logs ms es := by
  refine (call_logs h _).bind fun _ _ ht => (rxByteMb_logs ht.recording).bind fun r v hv =>
    (readTick_logs hv.recording).bind fun now w hw => ?_
  split_ifs <;> exact hw

theorem idleWait_logs {ws : List WaitSample} {t0 : Word} (h : Recording ms es u) : (idleWait ws t0 u).Logs ms es := by
  induction ws generalizing t0 u with
  | nil =>
    refine (idleIteration_logs h t0).bind fun r v hv => ?_
    split_ifs <;> exact hv
  | cons w ws ih =>
    refine (idleIteration_logs (u := applySample w ws u) h t0).bind fun r v hv => ?_
    split_ifs
    · exact hv
    · exact ih hv.recording

theorem mbInitBody_logs (h : Recording ms es u) : (mbInitBody u).Logs ms es :=
  (readTick_logs (u := mbInitPrelude u) h).bind fun _ _ hv => idleWait_logs hv.recording

theorem mbSend_logs {bs : List Byte} (h : Recorded ms es u) : (mbSend bs u).Logs ms es := by
  induction bs generalizing u with
  | nil => exact h
  | cons b bs ih =>
    cases bs with
    | nil => exact send_logs h.recording
    | cons b' bs =>
      refine (send_logs h.recording).bind fun ok v hv => ?_
      split_ifs
      · exact ih hv
      · exact hv

theorem mbPostWait_logs (h : Recording ms es u) (t0 : Word) (ok : Bool) : (mbPostWait t0 ok u).Logs ms es := by
  refine (delayWait_logs h _ t0).bind fun done v hv => ?_
  split_ifs
  · refine (driveEnable_logs hv.recording false).bind fun _ w hw => ?_
    dsimp only
    split_ifs <;> exact hw
  · exact hv

theorem mbPreWait_logs (h : Recording ms es u) (t0 : Word) (f : List Byte) : (mbPreWait t0 f u).Logs ms es := by
  refine (delayWait_logs h _ t0).bind fun done v hv => ?_
  split_ifs
  · refine (mbSend_logs hv).bind fun ok w hw => ?_
    have hmove : Recorded ms es (moveTick w) := by
      rw [moveTick]
      split <;> exact hw
    exact (readTick_logs hmove.recording).bind fun t0 x hx => mbPostWait_logs hx.recording t0 ok
  · exact hv

/-- A command that ends this way answers a next state. -/
theorem Res.Logs.finish {r : Res Unit} (h : r.Logs ms es) : ∃ t, r.finish = .next t ∧ Recorded ms es t := by
  cases r with
  | ok a t => exact ⟨_, rfl, h⟩
  | ended t => exact ⟨_, rfl, h⟩
  | fault f => exact h.elim

end

/-- R62, R135: a further turn answers a next state and records at least one call. -/
theorem resumeWait_logs {s : State} (hwait : s.wait ≠ .idle) :
    ∃ t, resumeWait s = .next t ∧ Recorded s.moves s.events t := by
  have h : Recording s.moves s.events s := ⟨rfl, [], (List.append_nil _).symm⟩
  rw [resumeWait]
  split
  · next hidle => exact absurd hidle hwait
  · exact (mbInitBody_logs (u := crcInitBody (pfInitBody (nvmInitBody s))) h).finish
  · exact (idleWait_logs h).finish
  · exact (mbPreWait_logs h _ _).finish
  · exact (mbPostWait_logs h _ _).finish

/-- Settles O6: which moves are taken while something is in progress, and what a further turn of it records. -/
theorem upstreamWaitsForCommandInProgress : Obligations.UpstreamWaitsForCommandInProgress := by
  intro s hwait
  have hbusy : acceptsCommand s = false := decide_eq_false hwait
  refine ⟨fun m ms hm => ?_, fun hm => ?_, fun m ms hm => ?_, ?_⟩
  · rw [step, nextMove, hm]
    simp [hbusy]
  · rw [step, nextMove, hm]
  · rw [step, nextMove, hm]
  · obtain ⟨t, ht, hmoves, e, es, hes⟩ := resumeWait_logs hwait
    exact ⟨t, e, es, ht, hmoves, hes⟩

end Sys2Proof.Machine
end

