-- ==== Sys2Proof/Proofs/Powered.lean ====
section
/-! PROOFS. Parts of a command while power stays on: which registers they leave (spec/30_encoding.md R64,
spec/70_reset_and_hazards.md R136, R139), the calls they make, and what a coming power cut does to them
(spec/60_exceptions.md R135, log 12). -/

namespace Sys2Proof.Machine

open Sys2Proof

/-! ## What a part writes -/

/-- The four units (spec/00_scope.md R2). -/
inductive BlockUnit where
  | nvm
  | pf
  | mb
  | crc

/-- Which registers of the command interface a command writes: STATUS; RESULT too (R22); the packet registers too
(R23). -/
inductive HostWrites where
  | status
  | result
  | packet

/-- Between two values of the command interface only the registers of `y` differ. -/
def HostWrites.kept : HostWrites → HostRegs → HostRegs → Prop
  | .status, h, h' => h' = { h with status := h'.status }
  | .result, h, h' => h' = { h with status := h'.status, result := h'.result }
  | .packet, h, h' => h' = { h with
      status := h'.status, result := h'.result, pktLen := h'.pktLen, pktData := h'.pktData,
      pktLenWritten := h'.pktLenWritten, pktDataWritten := h'.pktDataWritten }

theorem HostWrites.kept_status (y : HostWrites) (h : HostRegs) (v : BitVec 8) : y.kept h { h with status := v } := by
  cases y <;> rfl

theorem HostWrites.kept_refl (y : HostWrites) (h : HostRegs) : y.kept h h := by cases y <;> rfl

theorem HostWrites.kept_trans {y : HostWrites} {h h' h'' : HostRegs} (h1 : y.kept h h') (h2 : y.kept h' h'') :
    y.kept h h'' := by
  cases y <;> simp only [HostWrites.kept] at h1 h2 ⊢ <;> rw [h2, h1]

/-- `t` comes after `s` with the calls `cs` between them; only the units of `X` and the registers of `y` differ, and
flash differs only where one of the calls may have changed it. -/
structure Reaches (X : BlockUnit → Prop) (y : HostWrites) (s t : State) (cs : List Event) : Prop where
  cfg : t.cfg = s.cfg
  moves : t.moves = s.moves
  readBus : t.readBus = s.readBus
  host : y.kept s.host t.host
  nvm : ¬ X .nvm → t.gen = s.gen ∧ t.boot = s.boot ∧ t.flash = s.flash
  pf : ¬ X .pf → t.pf = s.pf
  mb : ¬ X .mb → t.mb = s.mb ∧ t.wait = s.wait
  crc : ¬ X .crc → t.crcReg = s.crcReg
  events : t.events = s.events ++ cs
  flash : (∀ e ∈ cs, e.writesFlash = false) → t.flash = s.flash

section
variable {X : BlockUnit → Prop} {y : HostWrites} {s t u : State} {cs ds : List Event}

theorem Reaches.refl (s : State) : Reaches X y s s [] :=
  ⟨rfl, rfl, rfl, y.kept_refl _, fun _ => ⟨rfl, rfl, rfl⟩, fun _ => rfl, fun _ => ⟨rfl, rfl⟩, fun _ => rfl,
    (List.append_nil _).symm, fun _ => rfl⟩

theorem Reaches.trans (h1 : Reaches X y s t cs) (h2 : Reaches X y t u ds) : Reaches X y s u (cs ++ ds) where
  cfg := h2.cfg.trans h1.cfg
  moves := h2.moves.trans h1.moves
  readBus := h2.readBus.trans h1.readBus
  host := HostWrites.kept_trans h1.host h2.host
  nvm hx := by
    obtain ⟨hg1, hb1, hf1⟩ := h1.nvm hx
    obtain ⟨hg2, hb2, hf2⟩ := h2.nvm hx
    exact ⟨hg2.trans hg1, hb2.trans hb1, hf2.trans hf1⟩
  pf hx := (h2.pf hx).trans (h1.pf hx)
  mb hx := ⟨(h2.mb hx).1.trans (h1.mb hx).1, (h2.mb hx).2.trans (h1.mb hx).2⟩
  crc hx := (h2.crc hx).trans (h1.crc hx)
  events := by rw [h2.events, h1.events, List.append_assoc]
  flash hq := by
    obtain ⟨hcs, hds⟩ := List.forall_mem_append.1 hq
    exact (h2.flash hds).trans (h1.flash hcs)

/-- STATUS may be set by any command. -/
theorem Reaches.setStatus (h : Reaches X y s t cs) (c : StatusCode) : Reaches X y s (t.setStatus c) cs :=
  { h with host := HostWrites.kept_trans h.host (y.kept_status _ _) }

theorem Reaches.withEnv (h : Reaches X y s t cs) (env : Env) : Reaches X y s { t with env := env } cs := { h with }

/-- One recorded call. -/
theorem Reaches.record (s : State) (e : Event) : Reaches X y s (s.record e) [e] :=
  { Reaches.refl s with events := rfl, flash := fun _ => rfl }

/-- A change of the FlashBlocks. -/
theorem Reaches.setBlock (h : Reaches X y s t cs) (hX : X .nvm) (b : BlockId) (f : FlashBlock) :
    Reaches X y s (t.setBlock b f) cs where
  cfg := by simpa using h.cfg
  moves := by simpa using h.moves
  readBus := by simpa using h.readBus
  host := by simpa using h.host
  nvm hx := absurd hX hx
  pf := by simpa using h.pf
  mb := by simpa using h.mb
  crc := by simpa using h.crc
  events := by simpa using h.events
  flash := by simpa using h.flash

/-- A change of flash by a call that may change it. -/
theorem Reaches.setFlash (h : Reaches X y s t cs) (hX : X .nvm) (hcs : ∃ e ∈ cs, e.writesFlash = true) (m : Memory) :
    Reaches X y s { t with flash := m } cs :=
  { h with
    nvm := fun hx => absurd hX hx
    flash := fun hq => by
      obtain ⟨e, he, hw⟩ := hcs
      rw [hq e he] at hw
      cases hw }

theorem Reaches.setMb (h : Reaches X y s t cs) (hX : X .mb) (m : MbUnit) : Reaches X y s { t with mb := m } cs :=
  { h with mb := fun hx => absurd hX hx }

theorem Reaches.setWait (h : Reaches X y s t cs) (hX : X .mb) (w : Wait) : Reaches X y s { t with wait := w } cs :=
  { h with mb := fun hx => absurd hX hx }

theorem Reaches.setPf (h : Reaches X y s t cs) (hX : X .pf) (p : PfUnit) : Reaches X y s { t with pf := p } cs :=
  { h with pf := fun hx => absurd hX hx }

theorem Reaches.setCrc (h : Reaches X y s t cs) (hX : X .crc) (c : Half) : Reaches X y s { t with crcReg := c } cs :=
  { h with crc := fun hx => absurd hX hx }

end

/-! ## A part of a command under a coming power cut -/

/-- What a run of `f` from `s`, which makes the calls `cs` and answers `res`, does when power is lost just before the
call after `n` further ones: with `n` calls or fewer it is as it was, and the cut is nearer by its calls; else it makes
its first `n` calls and loses power. -/
def Cuts {ρ : Type} (X : BlockUnit → Prop) (y : HostWrites) (f : State → ρ) (s : State) (cs : List Event)
    (res : Nat → ρ) (lost : State → ρ) : Prop :=
  ∀ n, (cs.length ≤ n → f (s.withCut n) = res (n - cs.length)) ∧
    (n < cs.length → ∃ v, f (s.withCut n) = lost (powerOff v) ∧ Reaches X y s v (cs.take n))

/-- A part of a command that starts in `s`, with power on: what it reaches, and what a cut does to it. -/
def Part {α : Type} (X : BlockUnit → Prop) (y : HostWrites) (f : State → Res α) (s : State) : Prop :=
  match f s with
  | .ok a t => t.env.noPowerLoss = true ∧
      ∃ cs, Reaches X y s t cs ∧ Cuts X y f s cs (fun n => .ok a (t.withCut n)) .ended
  | .ended t => ∃ cs, Reaches X y s t cs ∧ Cuts X y f s cs (fun n => .ended (t.withCut n)) .ended
  | .fault _ => True

section
variable {α β : Type} {X : BlockUnit → Prop} {y : HostWrites} {s : State}

theorem Part.of_ok {f : State → Res α} {a : α} {t : State} {cs : List Event} (hf : f s = .ok a t)
    (hp : t.env.noPowerLoss = true) (hr : Reaches X y s t cs)
    (hc : Cuts X y f s cs (fun n => .ok a (t.withCut n)) .ended) : Part X y f s := by
  rw [Part, hf]
  exact ⟨hp, cs, hr, hc⟩

theorem Part.of_ended {f : State → Res α} {t : State} {cs : List Event} (hf : f s = .ended t)
    (hr : Reaches X y s t cs) (hc : Cuts X y f s cs (fun n => .ended (t.withCut n)) .ended) : Part X y f s := by
  rw [Part, hf]
  exact ⟨cs, hr, hc⟩

theorem Part.of_fault {f : State → Res α} {e : Fault} (hf : f s = .fault e) : Part X y f s := by
  rw [Part, hf]
  trivial

/-- Two functions that agree on the state, with and without a cut, are the same part. -/
theorem Part.congr {f g : State → Res α} (h : Part X y f s) (hs : g s = f s)
    (hn : ∀ n, g (s.withCut n) = f (s.withCut n)) : Part X y g s := by
  unfold Part Cuts at *
  simpa only [hs, hn] using h

/-- A part without a call that goes on. -/
theorem Part.pure {f : State → Res α} {a : α} {t : State} (hp : s.env.noPowerLoss = true) (hf : f s = .ok a t)
    (hr : Reaches X y s t []) (hn : ∀ n, f (s.withCut n) = .ok a (t.withCut n))
    (ht : t.env.noPowerLoss = s.env.noPowerLoss := by rfl) : Part X y f s :=
  .of_ok hf (ht.trans hp) hr fun n => ⟨fun _ => hn n, fun h => absurd h (Nat.not_lt_zero n)⟩

/-- A part without a call that ends the command. -/
theorem Part.stop {f : State → Res α} {t : State} (hf : f s = .ended t)
    (hr : Reaches X y s t []) (hn : ∀ n, f (s.withCut n) = .ended (t.withCut n)) : Part X y f s :=
  .of_ended hf hr fun n => ⟨fun _ => hn n, fun h => absurd h (Nat.not_lt_zero n)⟩

/-- A part that makes one call. -/
theorem Part.one {f : State → Res α} {a : α} {t : State} {e : Event} (hf : f s = .ok a t)
    (hp : t.env.noPowerLoss = true) (hr : Reaches X y s t [e])
    (h0 : f (s.withCut 0) = .ended (powerOff (s.withCut 0)))
    (hn : ∀ n, f (s.withCut (n + 1)) = .ok a (t.withCut n)) : Part X y f s := by
  refine .of_ok hf hp hr fun n => ?_
  cases n with
  | zero => exact ⟨fun h => absurd h (by simp), fun _ => ⟨s.withCut 0, h0, (Reaches.refl s).withEnv _⟩⟩
  | succ n => exact ⟨fun _ => hn n, fun h => absurd h (by simp)⟩

/-- Where a cut comes in a sequence of two runs. -/
theorem Cuts.seq {ρ σ : Type} {f : State → ρ} {g : State → σ} {h : State → σ} {t : State} {cs ds : List Event}
    {res : Nat → σ} {lost : State → ρ} {lost' : State → σ} (hr : Reaches X y s t cs)
    (hgo : ∀ n, cs.length ≤ n → h (s.withCut n) = g (t.withCut (n - cs.length)))
    (hlost : ∀ n v, f (s.withCut n) = lost v → h (s.withCut n) = lost' v)
    (hf : ∀ n, n < cs.length → ∃ v, f (s.withCut n) = lost (powerOff v) ∧ Reaches X y s v (cs.take n))
    (hg : Cuts X y g t ds res lost') : Cuts X y h s (cs ++ ds) res lost' := by
  intro n
  rcases Nat.lt_or_ge n cs.length with hn | hn
  · refine ⟨fun hle => absurd hle (by rw [List.length_append]; omega), fun _ => ?_⟩
    obtain ⟨v, hv, hreach⟩ := hf n hn
    exact ⟨v, hlost n _ hv, by rwa [List.take_append_of_le_length hn.le]⟩
  · obtain ⟨hfit, hcut⟩ := hg (n - cs.length)
    rw [hgo n hn, List.length_append]
    refine ⟨fun hle => ?_, fun hlt => ?_⟩
    · rw [hfit (by omega), Nat.sub_sub]
    · obtain ⟨v, hv, hreach⟩ := hcut (by omega)
      refine ⟨v, hv, ?_⟩
      rw [List.take_append, List.take_of_length_le hn]
      exact hr.trans hreach

/-- One part after the other. -/
theorem Part.bind {f : State → Res α} {g : α → State → Res β} (hf : Part X y f s)
    (hg : ∀ a t, f s = .ok a t → t.env.noPowerLoss = true → Part X y (g a) t) :
    Part X y (fun s => (f s).bind g) s := by
  cases hfs : f s with
  | fault e => exact .of_fault (e := e) (by simp [hfs])
  | ended t =>
    rw [Part, hfs] at hf
    obtain ⟨cs, hr, hc⟩ := hf
    refine .of_ended (by simp [hfs]) hr fun n => ⟨fun hn => ?_, fun hn => ?_⟩
    · simp [(hc n).1 hn]
    · obtain ⟨v, hv, hreach⟩ := (hc n).2 hn
      exact ⟨v, by simp [hv], hreach⟩
  | ok a t =>
    have hga := hg a t hfs
    rw [Part, hfs] at hf
    obtain ⟨hp, cs, hr, hc⟩ := hf
    have hgo : ∀ n, cs.length ≤ n → (f (s.withCut n)).bind g = g a (t.withCut (n - cs.length)) :=
      fun n hn => by rw [(hc n).1 hn, Res.bind_ok]
    have hlost : ∀ n v, f (s.withCut n) = .ended v → (f (s.withCut n)).bind g = .ended v :=
      fun n v hv => by rw [hv, Res.bind_ended]
    have hpart := hga hp
    cases hgt : g a t with
    | fault e => exact .of_fault (e := e) (by simp [hfs, hgt])
    | ended u =>
      rw [Part, hgt] at hpart
      obtain ⟨ds, hr', hc'⟩ := hpart
      exact .of_ended (by simp [hfs, hgt]) (hr.trans hr')
        (Cuts.seq (h := fun s => (f s).bind g) hr hgo hlost (fun n hn => (hc n).2 hn) hc')
    | ok b u =>
      rw [Part, hgt] at hpart
      obtain ⟨hp', ds, hr', hc'⟩ := hpart
      exact .of_ok (by simp [hfs, hgt]) hp' (hr.trans hr')
        (Cuts.seq (h := fun s => (f s).bind g) hr hgo hlost (fun n hn => (hc n).2 hn) hc')

/-- A part after a change of the state that calls no port. -/
theorem Part.after {f : State → Res α} {g : State → State} (hr : Reaches X y s (g s) [])
    (hg : ∀ n, g (s.withCut n) = (g s).withCut n) (hp : s.env.noPowerLoss = true)
    (hf : (g s).env.noPowerLoss = true → Part X y f (g s))
    (ht : (g s).env.noPowerLoss = s.env.noPowerLoss := by rfl) : Part X y (fun s => f (g s)) s := by
  refine Part.bind (f := fun s => .ok () (g s)) (g := fun _ => f)
    (Part.pure hp rfl hr (fun n => by rw [hg]) ht) ?_
  rintro _ t ⟨⟩ hp'
  exact hf hp'

/-- A choice that no cut changes. -/
theorem Part.ite {f g : State → Res α} {c : State → Prop} [∀ s, Decidable (c s)]
    (hc : ∀ n, c (s.withCut n) ↔ c s) (hf : c s → Part X y f s) (hg : ¬ c s → Part X y g s) :
    Part X y (fun s => if c s then f s else g s) s := by
  by_cases h : c s
  · exact (hf h).congr (if_pos h) fun n => if_pos ((hc n).2 h)
  · exact (hg h).congr (if_neg h) fun n => if_neg (mt (hc n).1 h)

/-! ## Calls -/

theorem call_part (hp : s.env.noPowerLoss = true) (e : Event) : Part X y (call e) s :=
  .one (call_on (Env.noPowerLoss_cut hp)) hp (.record s e) (call_cut rfl) fun _ => call_counts rfl

theorem kick_part (hp : s.env.noPowerLoss = true) : Part X y kick s := call_part hp .kick

theorem readMs_part (hp : s.env.noPowerLoss = true) : Part X y readMs s :=
  .one (readMs_on (Env.noPowerLoss_cut hp)) hp (.record s _) (by rw [readMs, call_cut rfl]; rfl)
    fun _ => by rw [readMs, call_counts rfl]; rfl

theorem readTick_part (hp : s.env.noPowerLoss = true) : Part X y readTick s :=
  .one (readTick_on (Env.noPowerLoss_cut hp)) hp (.record s _) (by rw [readTick, call_cut rfl]; rfl)
    fun _ => by rw [readTick, call_counts rfl]; rfl

theorem driveEnable_part (hX : X .mb) (hp : s.env.noPowerLoss = true) (on : Bool) : Part X y (driveEnable on) s :=
  .one (driveEnable_on (Env.noPowerLoss_cut hp)) hp ((Reaches.record s _).setMb hX _)
    (by rw [driveEnable, call_cut rfl]; rfl) fun _ => by rw [driveEnable, call_counts rfl]; rfl

theorem rxBytePf_part (hp : s.env.noPowerLoss = true) : Part X y rxBytePf s :=
  .one (rxBytePf_on (Env.noPowerLoss_cut hp)) hp ((Reaches.record s _).withEnv _)
    (by rw [rxBytePf, call_cut rfl]; rfl) fun _ => by rw [rxBytePf, call_counts rfl]; rfl

theorem rxByteMb_part (hp : s.env.noPowerLoss = true) : Part X y rxByteMb s :=
  .one (rxByteMb_on (Env.noPowerLoss_cut hp)) hp ((Reaches.record s _).withEnv _)
    (by rw [rxByteMb, call_cut rfl]; rfl) fun _ => by rw [rxByteMb, call_counts rfl]; rfl

@[simp] theorem Env.verdictOf_cut (e : Env) (p : Port) (c : Option Nat) :
    { e with powerCut := c }.verdictOf p = e.verdictOf p := by cases p <;> rfl

@[simp] theorem Env.bytesOf_cut (e : Env) (p : Port) (n : Nat) (c : Option Nat) :
    { e with powerCut := c }.bytesOf p n = e.bytesOf p n := by cases p <;> rfl

theorem State.withCut_answered (s : State) (p : Port) (n k : Nat) :
    (s.withCut k).answered p n = (s.answered p n).withCut k := by cases p <;> rfl

/-- An answered call before which power is lost is not made. -/
theorem answeredCall_cut {p : Port} {n : Nat} {e : Verdict → Event} (h : s.env.powerCut = some 0) :
    answeredCall p n e s = .ended (powerOff s) := by
  rw [answeredCall, call_cut h, Res.bind_ended]

/-- An answered call with `k` further ones to come before the cut. -/
theorem answeredCall_counts {p : Port} {n k : Nat} {e : Verdict → Event} (h : s.env.powerCut = some (k + 1)) :
    answeredCall p n e s = .ok (s.env.verdictOf p)
      (((s.record (e (s.env.verdictOf p))).answered p n).withCut k) := by
  rw [answeredCall, call_counts h, Res.bind_ok, ← State.withCut_answered]
  simp [State.record, State.withCut]

/-- An answered call whose verdict goes on with a state `k v` that keeps the power on. -/
theorem answered_part {p : Port} {n : Nat} {e : Verdict → Event} {k : Verdict → State → State}
    (hp : s.env.noPowerLoss = true)
    (hk : ∀ v m u, k v (State.withCut u m) = (k v u).withCut m)
    (henv : ∀ v u, (k v u).env = u.env)
    (hr : ∀ v, Reaches X y s (k v ((s.record (e v)).answered p n)) [e v]) :
    Part X y (fun s => (answeredCall p n e s).bind fun v u => verdictResult v (k v u)) s := by
  have hon := answeredCall_on (p := p) (n := n) (e := e) (Env.noPowerLoss_cut hp)
  have hne := Env.verdictOf_ne_powerLoss hp p
  have hpow : ∀ v, ((k v ((s.record (e v)).answered p n)).env).noPowerLoss = true := fun v => by
    rw [henv]
    exact Env.noPowerLoss_answered hp p n
  have hcounts : ∀ m, answeredCall p n e (s.withCut (m + 1)) = .ok (s.env.verdictOf p)
      (((s.record (e (s.env.verdictOf p))).answered p n).withCut m) := fun m => by
    rw [answeredCall_counts (k := m) rfl, State.withCut_env, Env.verdictOf_cut]
    cases p <;> rfl
  have hcut : ∀ (β : Type) (g : Verdict → State → Res β),
      (answeredCall p n e (s.withCut 0)).bind g = .ended (powerOff (s.withCut 0)) := fun β g => by
    rw [answeredCall_cut rfl, Res.bind_ended]
  cases hv : s.env.verdictOf p with
  | powerLoss => exact absurd hv hne
  | ok =>
    rw [hv] at hon hcounts
    exact .one (by rw [hon]; rfl) (hpow .ok) (hr .ok) (hcut _ _) fun m => by rw [hcounts, Res.bind_ok, hk]; rfl
  | fail =>
    rw [hv] at hon hcounts
    exact .one (by rw [hon]; rfl) (hpow .fail) (hr .fail) (hcut _ _) fun m => by
      rw [hcounts, Res.bind_ok, hk]; rfl

theorem send_part {p : Port} {e : Verdict → Event} (hp : s.env.noPowerLoss = true) :
    Part X y (fun s => (answeredCall p 0 e s).bind verdictResult) s :=
  answered_part (k := fun _ u => u) hp (fun _ _ _ => rfl) (fun _ _ => rfl) fun v => (Reaches.record s (e v)).withEnv _

/-! ## Operands -/

theorem readArgAddr_part (hp : s.env.noPowerLoss = true) : Part X y readArgAddr s := by
  refine Part.ite (fun _ => Iff.rfl) (fun _ => ?_) fun _ => .of_fault rfl
  exact .pure hp rfl (.refl s) fun _ => rfl

theorem readArgLen_part (hp : s.env.noPowerLoss = true) : Part X y readArgLen s := by
  refine Part.ite (fun _ => Iff.rfl) (fun _ => ?_) fun _ => .of_fault rfl
  exact .pure hp rfl (.refl s) fun _ => rfl

theorem readData_part (hp : s.env.noPowerLoss = true) (n : Nat) : Part X y (readData n) s := by
  refine Part.ite (fun _ => Iff.rfl) (fun _ => ?_) fun _ => .of_fault rfl
  exact .pure hp rfl (.refl s) fun _ => rfl

theorem raise_part (c : StatusCode) : Part X y (raise (α := α) c) s :=
  .stop rfl ((Reaches.refl s).setStatus c) fun _ => rfl

theorem readPacket_part (hp : s.env.noPowerLoss = true) : Part X y readPacket s := by
  refine (readArgLen_part hp).bind fun n t _ hpt => ?_
  exact Part.ite (fun _ => Iff.rfl) (fun _ => readData_part hpt n) fun _ => raise_part _

end

end Sys2Proof.Machine
end

