-- ==== Sys2Proof/Proofs/PoweredNvm.lean ====
section
/-! PROOFS. The parts of the NVM commands while power stays on, and under a coming cut (spec/40_nvm_block.md R74 to R91;
log 12). -/

namespace Sys2Proof.Machine

open Sys2Proof

@[simp] theorem State.withCut_block (s : State) (n : Nat) (b : BlockId) : (s.withCut n).block b = s.block b := by
  cases b <;> rfl

theorem State.withCut_setBlock (s : State) (n : Nat) (b : BlockId) (f : FlashBlock) :
    (s.withCut n).setBlock b f = (s.setBlock b f).withCut n := by cases b <;> rfl

theorem State.withCut_setBufByte (s : State) (n : Nat) (b : BlockId) (i : Nat) (v : Byte) :
    (s.withCut n).setBufByte b i v = (s.setBufByte b i v).withCut n := by cases b <;> rfl

theorem State.withCut_setValid (s : State) (n : Nat) (b : BlockId) (v : Bool) :
    (s.withCut n).setValid b v = (s.setValid b v).withCut n := by cases b <;> rfl

section
variable {X : BlockUnit → Prop} {y : HostWrites} {s : State}

/-! ## Flash ports -/

theorem flashRead_part (hp : s.env.noPowerLoss = true) (a n : Nat) : Part X y (flashRead a n) s := by
  refine Part.ite (fun _ => Iff.rfl) (fun _ => ?_) fun _ => .of_fault rfl
  exact (call_part hp _).bind fun _ t _ hpt => .pure hpt rfl (.refl t) fun _ => rfl

variable (hX : X .nvm)
include hX

theorem programBlock_part (hp : s.env.noPowerLoss = true) (a : Nat) (l : List Byte) :
    Part X y (programBlock a l) s := by
  refine Part.ite (fun _ => Iff.rfl) (fun _ => ?_) fun _ => .of_fault rfl
  refine (answered_part (p := .program) (n := l.length) (e := .programBlock a l)
    (k := fun v u => u.setFlash a (if v = .ok then l else s.env.bytesOf .program l.length)) hp
    (fun _ _ _ => rfl) (fun _ _ => rfl) fun v => ?_).congr rfl fun _ => rfl
  exact ((Reaches.record s _).withEnv _).setFlash hX ⟨_, List.mem_singleton_self _, rfl⟩ _

/-- The ProgramBlock of a flush: the address and the data are those of the block. -/
theorem programOpen_part (hp : s.env.noPowerLoss = true) (b : BlockId) :
    Part X y (fun s => programBlock (s.block b).base.toNat (s.block b).buf s) s :=
  (programBlock_part hX hp (s.block b).base.toNat (s.block b).buf).congr rfl fun n => by
    rw [State.withCut_block]

theorem eraseSector_part (hp : s.env.noPowerLoss = true) (e : Sector) : Part X y (eraseSector e) s := by
  refine (answered_part (p := .erase) (n := e.size) (e := .eraseSector e.sectorId e.bankId)
    (k := fun v u => if v = .ok then u.eraseFlash e.start e.size
      else u.setFlash e.start (s.env.bytesOf .erase e.size)) hp
    (fun v m u => ?_) (fun v u => ?_) fun v => ?_).congr rfl fun _ => rfl
  · cases v <;> rfl
  · cases v <;> rfl
  · have hrec := ((Reaches.record (X := X) (y := y) s (.eraseSector e.sectorId e.bankId v)).withEnv
      (s.env.answered .erase e.size)).setFlash hX ⟨_, List.mem_singleton_self _, rfl⟩
    split_ifs
    · exact hrec _
    · exact hrec _

theorem decrypt_part (hp : s.env.noPowerLoss = true) (b : BlockId) : Part X y (decrypt b) s := by
  refine (answered_part (p := .decrypt) (n := s.cfg.wbs) (e := .decrypt s.cfg.wbs)
    (k := fun _ u => u.setBuf b (s.env.bytesOf .decrypt s.cfg.wbs)) hp
    (fun v m u => ?_) (fun v u => ?_) fun v => ?_).congr rfl fun _ => rfl
  · cases b <;> rfl
  · cases b <;> rfl
  · exact ((Reaches.record s _).withEnv _).setBlock hX b _

/-! ## The block operations -/

theorem openBlock_part (hp : s.env.noPowerLoss = true) (b : BlockId) (base : Nat) :
    Part X y (openBlock b base) s := by
  refine Part.ite (fun n => by rw [State.withCut_block]) (fun _ => .pure hp rfl (.refl s) fun _ => rfl) fun _ => ?_
  refine ((flashRead_part hp base s.cfg.wbs).bind (g := fun bytes s => .ok () (s.setBlock b
    { valid := true, base := BitVec.ofNat 32 base, buf := bytes })) fun l t _ hpt => ?_).congr rfl fun _ => rfl
  exact .pure hpt rfl ((Reaches.refl t).setBlock hX b _) (fun n => by rw [State.withCut_setBlock])
    (by rw [State.setBlock_env])

theorem flushBlock_part (hp : s.env.noPowerLoss = true) (b : BlockId) : Part X y (flushBlock b) s := by
  refine Part.ite (fun _ => Iff.rfl) (fun _ => ?_) fun _ => programOpen_part hX hp b
  refine (decrypt_part hX hp b).bind fun ok t _ hpt => ?_
  exact Part.ite (fun _ => Iff.rfl) (fun _ => programOpen_part hX hpt b)
    fun _ => .pure hpt rfl (.refl t) fun _ => rfl

/-- The end of a switch to the generic block. -/
theorem openAfterFlush_part (hp : s.env.noPowerLoss = true) (ok : Bool) (nb : Nat) :
    Part X y (fun s => if ok then (openBlock .gen nb s).bind fun _ s => .ok (some BlockId.gen) s
      else .ok none s) s :=
  Part.ite (fun _ => Iff.rfl)
    (fun _ => (openBlock_part hX hp .gen nb).bind fun _ t _ hpt => .pure hpt rfl (.refl t) fun _ => rfl)
    fun _ => .pure hp rfl (.refl s) fun _ => rfl

theorem switchBlock_part (hp : s.env.noPowerLoss = true) (b : BlockId) (nb : Nat) :
    Part X y (switchBlock b nb) s := by
  cases b with
  | boot =>
    refine Part.bind (f := fun s => if s.gen.valid && decide (s.gen.base.toNat ≠ nb) then flushBlock .gen s
      else .ok true s) ?_ fun ok t _ hpt => openAfterFlush_part hX hpt ok nb
    exact Part.ite (fun _ => Iff.rfl) (fun _ => flushBlock_part hX hp .gen)
      fun _ => .pure hp rfl (.refl s) fun _ => rfl
  | gen =>
    refine Part.ite (fun _ => Iff.rfl) (fun _ => ?_) fun _ =>
      (flushBlock_part hX hp .gen).bind fun ok t _ hpt => openAfterFlush_part hX hpt ok nb
    refine ((openBlock_part hX hp .boot s.cfg.bootBase).bind (g := fun _ s => .ok (some BlockId.boot) s)
      fun _ t _ hpt => ?_).congr rfl fun _ => rfl
    exact .pure hpt rfl (.refl t) fun _ => rfl

theorem copyBytes_part (ds : List Byte) (hp : s.env.noPowerLoss = true) (b : BlockId) (cb off : Nat) :
    Part X y (copyBytes b cb off ds) s := by
  induction ds generalizing s b cb off with
  | nil => exact .pure hp rfl (.refl s) fun _ => rfl
  | cons d ds ih =>
    have hset : ∀ {t : State} (b : BlockId) (cb off i : Nat), t.env.noPowerLoss = true →
        Part X y (fun s => copyBytes b cb off ds (s.setBufByte b i d)) t := fun b cb off i hpt =>
      Part.after ((Reaches.refl _).setBlock hX b _) (fun n => by rw [State.withCut_setBufByte]) hpt
        (fun hpt' => ih hpt' b cb off) (by rw [State.setBufByte_env])
    refine Part.ite (fun _ => Iff.rfl) (fun _ => ?_) fun _ => hset b cb (off + 1) off hp
    refine ((switchBlock_part hX hp b (cb + s.cfg.wbs)).bind (g := fun r t => match r with
      | none => raise .hwError t
      | some b' => copyBytes b' (cb + t.cfg.wbs) 1 ds (t.setBufByte b' 0 d)) fun r t _ hpt => ?_).congr rfl
      fun _ => rfl
    cases r with
    | none => exact raise_part _
    | some b' => exact (hset b' (cb + t.cfg.wbs) 1 0 hpt).congr rfl fun _ => rfl

theorem enterBlock_part (hp : s.env.noPowerLoss = true) (b : BlockId) (cb : Nat) :
    Part X y (enterBlock b cb) s := by
  refine Part.ite (fun n => by rw [State.withCut_block]) (fun _ => ?_) fun _ =>
    (openBlock_part hX hp b cb).bind fun _ t _ hpt => .pure hpt rfl (.refl t) fun _ => rfl
  exact Part.ite (fun n => by rw [State.withCut_block]) (fun _ => .pure hp rfl (.refl s) fun _ => rfl)
    fun _ => switchBlock_part hX hp b cb

theorem addToBlock_part (hp : s.env.noPowerLoss = true) (b : BlockId) (a : Nat) (l : List Byte) :
    Part X y (addToBlock b a l) s := by
  refine ((enterBlock_part hX hp b (blockBase s.cfg a)).bind (g := fun r t => match r with
    | none => raise .hwError t
    | some b' => copyBytes b' (blockBase t.cfg a) (a - blockBase t.cfg a) l t) fun r t _ hpt => ?_).congr rfl
    fun _ => rfl
  cases r with
  | none => exact raise_part _
  | some b' => exact (copyBytes_part hX l hpt b' (blockBase t.cfg a) (a - blockBase t.cfg a)).congr rfl fun _ => rfl

theorem routeWrite_part (hp : s.env.noPowerLoss = true) (a : Nat) (l : List Byte) : Part X y (routeWrite a l) s :=
  Part.ite (fun _ => Iff.rfl) (fun _ => addToBlock_part hX hp .boot a l) fun _ => addToBlock_part hX hp .gen a l

theorem writeBody_part (a n : Nat) {data : State → Res (List Byte)} (hdata : Part X y data s) :
    Part X y (writeBody a n data) s :=
  Part.ite (fun _ => Iff.rfl) (fun _ => hdata.bind fun l _ _ hpt => routeWrite_part hX hpt a l)
    fun _ => raise_part _

theorem eraseLoop_part (es : List Sector) (hp : s.env.noPowerLoss = true) (a n : Nat) :
    Part X y (eraseLoop a n es) s := by
  induction es generalizing s with
  | nil => exact .pure hp rfl (.refl s) fun _ => rfl
  | cons e es ih =>
    refine Part.ite (fun _ => Iff.rfl) (fun _ => ?_) fun _ => ih hp
    exact (eraseSector_part hX hp e).bind fun ok t _ hpt =>
      Part.ite (fun _ => Iff.rfl) (fun _ => ih hpt) fun _ => raise_part _

theorem commitBlock_part (hp : s.env.noPowerLoss = true) (b : BlockId) : Part X y (commitBlock b) s := by
  refine Part.ite (fun n => by rw [State.withCut_block]) (fun _ => ?_) fun _ => .pure hp rfl (.refl s) fun _ => rfl
  refine (flushBlock_part hX hp b).bind fun ok t _ hpt => ?_
  refine Part.ite (fun _ => Iff.rfl) (fun _ => ?_) fun _ => raise_part _
  exact .pure hpt rfl ((Reaches.refl t).setBlock hX b _) (fun n => by rw [State.withCut_setValid])
    (by rw [State.setValid_env])

omit hX in
theorem verifySum_part (k n sum : Nat) (hp : s.env.noPowerLoss = true) : Part X y (verifySum k n sum) s := by
  induction n generalizing s k sum with
  | zero => exact .pure hp rfl (.refl s) fun _ => rfl
  | succ n ih =>
    refine ((flashRead_part hp (s.cfg.bootBase + k * s.cfg.csBytes) s.cfg.csBytes).bind
      (g := fun bytes s => verifySum (k + 1) n ((sum + wordOf s.cfg bytes 0) % 2 ^ s.cfg.csWidth) s)
      fun l t _ hpt => ?_).congr rfl fun _ => rfl
    exact (ih (k + 1) ((sum + wordOf t.cfg l 0) % 2 ^ t.cfg.csWidth) hpt).congr rfl fun _ => rfl

end

/-! ## The commands -/

/-- A whole command, or a further turn of one, that starts in `s` with power on. -/
def CommandPart (X : BlockUnit → Prop) (y : HostWrites) (f : State → Host.Outcome State Fault Refusal)
    (s : State) : Prop :=
  ∀ t, f s = .next t → ∃ cs, Reaches X y s t cs ∧ Cuts X y f s cs (fun n => .next (t.withCut n)) .next

section
variable {X : BlockUnit → Prop} {y : HostWrites} {s : State}

theorem Part.finish {f : State → Res Unit} (hf : Part X y f s) : CommandPart X y (fun s => (f s).finish) s := by
  intro u hu
  rcases Res.finish_eq_next.1 hu with ⟨t, ht, rfl⟩ | ht
  · rw [Part, ht] at hf
    obtain ⟨-, cs, hr, hc⟩ := hf
    refine ⟨cs, hr.setStatus .ok, fun n => ⟨fun hn => ?_, fun hn => ?_⟩⟩
    · simp only [(hc n).1 hn]; rfl
    · obtain ⟨v, hv, hreach⟩ := (hc n).2 hn
      exact ⟨v, by simp only [hv]; rfl, hreach⟩
  · rw [Part, ht] at hf
    obtain ⟨cs, hr, hc⟩ := hf
    refine ⟨cs, hr, fun n => ⟨fun hn => ?_, fun hn => ?_⟩⟩
    · simp only [(hc n).1 hn]; rfl
    · obtain ⟨v, hv, hreach⟩ := (hc n).2 hn
      exact ⟨v, by simp only [hv]; rfl, hreach⟩

/-- A command that calls no port. -/
theorem CommandPart.silent {f : State → Host.Outcome State Fault Refusal} {t : State} (hf : f s = .next t)
    (hr : Reaches X y s t []) (hn : ∀ n, f (s.withCut n) = .next (t.withCut n)) : CommandPart X y f s := by
  intro u hu
  rw [hf] at hu
  cases hu
  exact ⟨[], hr, fun n => ⟨fun _ => hn n, fun h => absurd h (Nat.not_lt_zero n)⟩⟩

variable (hX : X .nvm)
include hX

theorem execNvmInit_part : CommandPart X y execNvmInit s :=
  .silent rfl ((((Reaches.refl s).setBlock hX .gen _).setBlock hX .boot _).setStatus _) fun _ => rfl

theorem execNvmWrite_part (hp : s.env.noPowerLoss = true) : CommandPart X y execNvmWrite s := by
  refine Part.finish ((readArgLen_part hp).bind fun n t _ hpt => ?_)
  refine Part.ite (fun _ => Iff.rfl) (fun _ => ?_) fun _ => raise_part _
  exact (readArgAddr_part hpt).bind fun a u _ hpu => writeBody_part hX a n (readData_part hpu n)

theorem execNvmErase_part (hp : s.env.noPowerLoss = true) : CommandPart X y execNvmErase s := by
  refine Part.finish ((readArgAddr_part hp).bind fun a t _ hpt => (readArgLen_part hpt).bind fun n u _ hpu => ?_)
  refine Part.ite (fun _ => Iff.rfl) (fun _ => ?_) fun _ => raise_part _
  exact (eraseLoop_part hX u.cfg.sectorTable hpu a n).congr rfl fun _ => rfl

theorem execNvmWriteChecksum_part (hp : s.env.noPowerLoss = true) : CommandPart X y execNvmWriteChecksum s := by
  refine Part.finish (Part.ite (fun _ => Iff.rfl) (fun _ => ?_) fun _ => .pure hp rfl (.refl s) fun _ => rfl)
  refine (writeBody_part hX (s.cfg.bootBase + s.cfg.csOffset) s.cfg.csBytes
    (data := fun s' => .ok (serialize s.cfg (checksum s.cfg s.boot.buf)) s') ?_).congr rfl fun _ => rfl
  exact .pure hp rfl (.refl s) fun _ => rfl

theorem execNvmDone_part (hp : s.env.noPowerLoss = true) : CommandPart X y execNvmDone s :=
  Part.finish ((commitBlock_part hX hp .gen).bind fun _ _ _ hpt => commitBlock_part hX hpt .boot)

omit hX in
theorem execNvmVerifyChecksum_part (hp : s.env.noPowerLoss = true) :
    CommandPart X .result execNvmVerifyChecksum s := by
  refine Part.finish ?_
  refine ((verifySum_part 0 s.cfg.csWordCount 0 hp).bind (g := fun sum s =>
    (flashRead (s.cfg.bootBase + s.cfg.csOffset) s.cfg.csBytes s).bind fun bytes s => .ok () (s.setResult
      (if (sum + wordOf s.cfg bytes 0) % 2 ^ s.cfg.csWidth = 0 then 1 else 0))) fun sum t _ hpt => ?_).congr rfl
    fun _ => rfl
  refine ((flashRead_part hpt (t.cfg.bootBase + t.cfg.csOffset) t.cfg.csBytes).bind fun l u _ hpu => ?_).congr rfl
    fun _ => rfl
  exact .pure hpu rfl { Reaches.refl (y := .result) u with host := rfl } fun _ => rfl

omit hX in
theorem execNvmGetUserProgramBase_part : CommandPart X .result execNvmGetUserProgramBase s :=
  .silent rfl { Reaches.refl (y := .result) s with host := rfl } fun _ => rfl

end

end Sys2Proof.Machine
end

