-- ==== Sys2Proof/Proofs/PoweredLines.lean ====
section
/-! PROOFS. The parts of the PF, CRC and MB commands and of the reset sequence while power stays on, and under a coming
cut (spec/41_packet_framer.md, spec/42_crc16.md, spec/43_modbus_frame.md, spec/70_reset_and_hazards.md R138; log 12). -/

namespace Sys2Proof.Machine

open Sys2Proof

section
variable {X : BlockUnit → Prop} {y : HostWrites} {s : State}

/-! ## The send loops -/

theorem pfSend_part (bs : List Byte) (hp : s.env.noPowerLoss = true) : Part X y (pfSend bs) s := by
  induction bs generalizing s with
  | nil => exact .pure hp rfl (.refl s) fun _ => rfl
  | cons b bs ih =>
    exact (send_part (e := .txPf b) hp).bind fun ok t _ hpt =>
      Part.ite (fun _ => Iff.rfl) (fun _ => ih hpt) fun _ => raise_part _

theorem mbSend_part (bs : List Byte) (hp : s.env.noPowerLoss = true) : Part X y (mbSend bs) s := by
  induction bs generalizing s with
  | nil => exact .pure hp rfl (.refl s) fun _ => rfl
  | cons b bs ih =>
    cases bs with
    | nil => exact send_part (e := .txMbLast b) hp
    | cons b' bs =>
      exact (send_part (e := .txMb b) hp).bind fun ok t _ hpt =>
        Part.ite (fun _ => Iff.rfl) (fun _ => ih hpt) fun _ => .pure hpt rfl (.refl t) fun _ => rfl

/-! ## The busy waits -/

/-- The environment's move before a sample. -/
theorem applySample_part {α : Type} {f : State → Res α} (w : WaitSample) (ws : List WaitSample)
    (hp : s.env.noPowerLoss = true)
    (hf : (applySample w ws s).env.noPowerLoss = true → Part X y f (applySample w ws s)) :
    Part X y (fun s => f (applySample w ws s)) s :=
  Part.after ((Reaches.refl s).withEnv _) (fun _ => rfl) hp hf

theorem delayIteration_part (hp : s.env.noPowerLoss = true) (d : Nat) (t0 : Word) :
    Part X y (delayIteration d t0) s :=
  (kick_part hp).bind fun _ _ _ hpt => (readTick_part hpt).bind fun _ u _ hpu => .pure hpu rfl (.refl u) fun _ => rfl

theorem delayWait_part (ws : List WaitSample) (hp : s.env.noPowerLoss = true) (d : Nat) (t0 : Word) :
    Part X y (delayWait d t0 ws) s := by
  induction ws generalizing s with
  | nil => exact delayIteration_part hp d t0
  | cons w ws ih =>
    refine Part.bind (f := fun s => delayIteration d t0 (applySample w ws s))
      (applySample_part w ws hp fun hpt => delayIteration_part hpt d t0) fun done t _ hpt => ?_
    exact Part.ite (fun _ => Iff.rfl) (fun _ => .pure hpt rfl (.refl t) fun _ => rfl) fun _ => ih hpt

theorem idleIteration_part (hp : s.env.noPowerLoss = true) (t0 : Word) : Part X y (idleIteration t0) s := by
  refine (kick_part hp).bind fun _ t _ hpt => (rxByteMb_part hpt).bind fun r u _ hpu =>
    (readTick_part hpu).bind fun now v _ hpv => ?_
  refine Part.ite (fun _ => Iff.rfl) (fun _ => .pure hpv rfl (.refl v) fun _ => rfl) fun _ => ?_
  exact Part.ite (fun _ => Iff.rfl) (fun _ => .pure hpv rfl (.refl v) fun _ => rfl)
    fun _ => .pure hpv rfl (.refl v) fun _ => rfl

theorem readTick_moveTick_part (hp : s.env.noPowerLoss = true) : Part X y (fun s => readTick (moveTick s)) s := by
  cases hs : s.env.waitSamples with
  | nil => exact (readTick_part hp).congr (by simp only [moveTick, hs]) fun n => by simp [moveTick, hs]
  | cons w ws =>
    exact (applySample_part w ws hp fun hpt => readTick_part hpt).congr (by simp only [moveTick, hs])
      fun n => by simp [moveTick, hs]

variable (hX : X .mb)
include hX

theorem idleDone_part (hp : s.env.noPowerLoss = true) (now : Word) : Part X y (idleDone now) s :=
  .pure hp rfl (((Reaches.refl s).setMb hX { s.mb with lastTick := now }).setWait hX .idle) fun _ => rfl

theorem idleWait_part (ws : List WaitSample) (hp : s.env.noPowerLoss = true) (t0 : Word) :
    Part X y (idleWait ws t0) s := by
  induction ws generalizing s t0 with
  | nil =>
    refine (idleIteration_part hp t0).bind fun r t _ hpt => ?_
    exact Part.ite (fun _ => Iff.rfl) (fun _ => idleDone_part hX hpt r.1)
      fun _ => .stop rfl ((Reaches.refl t).setWait hX _) fun _ => rfl
  | cons w ws ih =>
    refine Part.bind (f := fun s => idleIteration t0 (applySample w ws s))
      (applySample_part w ws hp fun hpt => idleIteration_part hpt t0) fun r t _ hpt => ?_
    exact Part.ite (fun _ => Iff.rfl) (fun _ => idleDone_part hX hpt r.1) fun _ => ih hpt r.1

/-- The wait of a command in progress, over the samples in the state. -/
theorem idleWait_samples_part (hp : s.env.noPowerLoss = true) (t0 : Word) :
    Part X y (fun s => idleWait s.env.waitSamples t0 s) s :=
  (idleWait_part hX s.env.waitSamples hp t0).congr rfl fun _ => rfl

theorem mbInitBody_part (hp : s.env.noPowerLoss = true) : Part X y mbInitBody s :=
  Part.bind (f := fun s => readTick (mbInitPrelude s))
    (Part.after ((Reaches.refl s).setMb hX _) (fun _ => rfl) hp fun hpt => readTick_part hpt)
    fun t0 _ _ hpt => idleWait_samples_part hX hpt t0

theorem mbRelease_part (hp : s.env.noPowerLoss = true) (ok : Bool) : Part X y (mbRelease ok) s := by
  refine (driveEnable_part hX hp false).bind fun _ t _ hpt => ?_
  refine Part.ite (fun _ => Iff.rfl) (fun _ => ?_) fun _ => ?_
  · exact .pure hpt rfl ((Reaches.refl t).setWait hX _) fun _ => rfl
  · exact .stop rfl (((Reaches.refl t).setWait hX .idle).setStatus .hwError) fun _ => rfl

theorem mbPostWait_part (hp : s.env.noPowerLoss = true) (t0 : Word) (ok : Bool) :
    Part X y (mbPostWait t0 ok) s := by
  refine ((delayWait_part s.env.waitSamples hp s.cfg.mbPostDelayTicks t0).bind (g := fun done s =>
    if done then mbRelease ok s else .ended { s with wait := .mbPost t0 ok }) fun done t _ hpt => ?_).congr rfl
    fun _ => rfl
  exact Part.ite (fun _ => Iff.rfl) (fun _ => mbRelease_part hX hpt ok)
    fun _ => .stop rfl ((Reaches.refl t).setWait hX _) fun _ => rfl

theorem mbSendFrame_part (hp : s.env.noPowerLoss = true) (f : List Byte) : Part X y (mbSendFrame f) s :=
  (mbSend_part f hp).bind fun ok _ _ hpt => Part.bind (f := fun s => readTick (moveTick s))
    (readTick_moveTick_part hpt) fun t0 _ _ hpu => mbPostWait_part hX hpu t0 ok

theorem mbPreWait_part (hp : s.env.noPowerLoss = true) (t0 : Word) (f : List Byte) :
    Part X y (mbPreWait t0 f) s := by
  refine ((delayWait_part s.env.waitSamples hp s.cfg.mbPreDelayTicks t0).bind (g := fun done s =>
    if done then mbSendFrame f s else .ended { s with wait := .mbPre t0 f }) fun done t _ hpt => ?_).congr rfl
    fun _ => rfl
  exact Part.ite (fun _ => Iff.rfl) (fun _ => mbSendFrame_part hX hpt f)
    fun _ => .stop rfl ((Reaches.refl t).setWait hX _) fun _ => rfl

theorem execMbInit_part (hp : s.env.noPowerLoss = true) : CommandPart X y execMbInit s :=
  Part.finish (mbInitBody_part hX hp)

theorem execMbTransmit_part (hp : s.env.noPowerLoss = true) : CommandPart X y execMbTransmit s := by
  refine Part.finish ((readPacket_part hp).bind fun l _ _ hpt => (driveEnable_part hX hpt true).bind fun _ _ _ hpu =>
    (readTick_part hpu).bind fun t0 v _ hpv => ?_)
  exact (mbPreWait_part hX hpv t0 (frame v.cfg l)).congr rfl fun _ => rfl

omit hX in
theorem execMbGetT35_part : CommandPart X .result execMbGetT35 s :=
  .silent rfl { Reaches.refl (y := .result) s with host := rfl } fun _ => rfl

end

/-! ## The polls -/

section
variable {X : BlockUnit → Prop} {s t : State} {cs : List Event}

theorem Reaches.setResult (h : Reaches X .packet s t cs) (v : Word) : Reaches X .packet s (t.setResult v) cs :=
  { h with host := HostWrites.kept_trans h.host rfl }

theorem Reaches.deliver (h : Reaches X .packet s t cs) (n : BitVec 8) (p : List Byte) :
    Reaches X .packet s (t.deliver n p) cs :=
  { h with host := HostWrites.kept_trans h.host rfl }

theorem pfTimeout_reaches (hX : X .pf) (h : Reaches X .packet s t cs) (now : Word) :
    Reaches X .packet s (pfTimeout now t) cs := by
  rw [pfTimeout]
  split_ifs
  · exact h.setPf hX _
  · exact h

theorem pfTake_reaches (hX : X .pf) (h : Reaches X .packet s t cs) (r : Option Byte) (now : Word) :
    Reaches X .packet s (pfTake r now t) cs := by
  cases r with
  | none => exact h
  | some b =>
    simp only [pfTake, pfIdle, pfRecv]
    split_ifs
    · exact h.setPf hX _
    · exact h
    · exact (h.setPf hX _).deliver _ _
    · exact h.setPf hX _

theorem pfTimeout_withCut (now : Word) (s : State) (n : Nat) :
    pfTimeout now (s.withCut n) = (pfTimeout now s).withCut n := by
  simp only [pfTimeout, apply_ite (State.withCut · n)]
  rfl

theorem pfTake_withCut (r : Option Byte) (now : Word) (s : State) (n : Nat) :
    pfTake r now (s.withCut n) = (pfTake r now s).withCut n := by
  cases r with
  | none => rfl
  | some b =>
    simp only [pfTake, pfIdle, pfRecv, apply_ite (State.withCut · n)]
    rfl

theorem pfTake_env (r : Option Byte) (now : Word) (s : State) : (pfTake r now s).env = s.env := by
  obtain ⟨p, h, heq⟩ := pfTake_frame r now s
  rw [heq]

theorem pfTimeout_env (now : Word) (s : State) : (pfTimeout now s).env = s.env := by
  obtain ⟨p, heq⟩ := pfTimeout_frame now s
  rw [heq]

theorem mbBoundary_reaches (hX : X .mb) (h : Reaches X .packet s t cs) (now : Word) :
    Reaches X .packet s (mbBoundary now t) cs := by
  have hvalid : Reaches X .packet s (mbValidate t) cs := by
    rw [mbValidate]
    split_ifs
    · exact h.deliver _ _
    · exact h
  rw [mbBoundary]
  split_ifs
  · exact h.setMb hX _
  · exact hvalid.setMb hX _
  · exact h.setMb hX _
  · exact h
  · exact h

theorem mbTake_reaches (hX : X .mb) (h : Reaches X .packet s t cs) (r : Option Byte) (now : Word) :
    Reaches X .packet s (mbTake r now t) cs := by
  cases r with
  | none => exact h
  | some b =>
    obtain ⟨m, hm⟩ := mbByte_frame b now t
    rw [mbTake, hm]
    exact h.setMb hX _

theorem mbValidate_withCut (s : State) (n : Nat) : mbValidate (s.withCut n) = (mbValidate s).withCut n := by
  simp only [mbValidate, apply_ite (State.withCut · n)]
  rfl

theorem mbBoundary_withCut (now : Word) (s : State) (n : Nat) :
    mbBoundary now (s.withCut n) = (mbBoundary now s).withCut n := by
  simp only [mbBoundary, mbValidate_withCut, apply_ite (State.withCut · n)]
  rfl

theorem mbTake_withCut (r : Option Byte) (now : Word) (s : State) (n : Nat) :
    mbTake r now (s.withCut n) = (mbTake r now s).withCut n := by
  cases r with
  | none => rfl
  | some b =>
    simp only [mbTake, mbByte, apply_ite (State.withCut · n)]
    rfl

theorem mbBoundary_env (now : Word) (s : State) : (mbBoundary now s).env = s.env := by
  obtain ⟨m, h, heq⟩ := mbBoundary_frame now s
  rw [heq]

theorem mbTake_env (r : Option Byte) (now : Word) (s : State) : (mbTake r now s).env = s.env := by
  cases r with
  | none => rfl
  | some b =>
    obtain ⟨m, hm⟩ := mbByte_frame b now s
    rw [mbTake, hm]

theorem execPfPoll_part (hX : X .pf) (hp : s.env.noPowerLoss = true) : CommandPart X .packet execPfPoll s := by
  refine Part.finish ((readMs_part hp).bind fun now t _ hpt => ?_)
  refine Part.bind (f := fun s => rxBytePf (pfTimeout now (s.setResult 0)))
    (Part.after (pfTimeout_reaches hX ((Reaches.refl t).setResult 0) now)
      (fun n => pfTimeout_withCut now (t.setResult 0) n) hpt (fun hpu => rxBytePf_part hpu) (by rw [pfTimeout_env]; rfl))
    fun r u _ hpu => ?_
  exact .pure hpu rfl (pfTake_reaches hX (.refl u) r now) (fun n => by rw [pfTake_withCut]) (by rw [pfTake_env])

theorem execMbPoll_part (hX : X .mb) (hp : s.env.noPowerLoss = true) : CommandPart X .packet execMbPoll s := by
  refine Part.finish ((readTick_part hp).bind fun now t _ hpt => ?_)
  refine Part.bind (f := fun s => rxByteMb (mbBoundary now (s.setResult 0)))
    (Part.after (mbBoundary_reaches hX ((Reaches.refl t).setResult 0) now)
      (fun n => mbBoundary_withCut now (t.setResult 0) n) hpt (fun hpu => rxByteMb_part hpu)
      (by rw [mbBoundary_env]; rfl)) fun r u _ hpu => ?_
  exact .pure hpu rfl (mbTake_reaches hX (.refl u) r now) (fun n => by rw [mbTake_withCut]) (by rw [mbTake_env])

end

/-! ## The other PF and CRC commands, and the reset sequence -/

section
variable {X : BlockUnit → Prop} {y : HostWrites} {s : State}

theorem execPfInit_part (hX : X .pf) : CommandPart X y execPfInit s :=
  .silent rfl (((Reaches.refl s).setPf hX _).setStatus _) fun _ => rfl

theorem execPfTransmit_part (hp : s.env.noPowerLoss = true) : CommandPart X y execPfTransmit s :=
  Part.finish ((readPacket_part hp).bind fun l _ _ hpt => pfSend_part (BitVec.ofNat 8 l.length :: l) hpt)

theorem execCrcInit_part (hX : X .crc) : CommandPart X y execCrcInit s :=
  .silent rfl (((Reaches.refl s).setCrc hX _).setStatus _) fun _ => rfl

theorem execCrcByte_part (hX : X .crc) (b : Byte) : CommandPart X y (execCrcByte b) s :=
  .silent rfl (((Reaches.refl s).setCrc hX _).setStatus _) fun _ => rfl

theorem execCrcRead_part : CommandPart X .result execCrcRead s :=
  .silent rfl { Reaches.refl (y := .result) s with host := rfl } fun _ => rfl

theorem execCrcBlock_part (hX : X .crc) (hp : s.env.noPowerLoss = true) : CommandPart X y execCrcBlock s := by
  refine Part.finish ((readArgLen_part hp).bind fun n t _ hpt => ?_)
  refine Part.ite (fun _ => Iff.rfl) (fun _ => ?_) fun _ => raise_part _
  exact (readData_part hpt n).bind fun l u _ hpu => .pure hpu rfl ((Reaches.refl u).setCrc hX _) fun _ => rfl

theorem resetSequence_part (hX : ∀ x, X x) (hp : s.env.noPowerLoss = true) : Part X y resetSequence s := by
  have hnvm : Reaches X y s (nvmInitBody s) [] :=
    (((Reaches.refl s).setBlock (hX .nvm) .gen _).setBlock (hX .nvm) .boot _).setStatus _
  have hall : Reaches X y s (crcInitBody (pfInitBody (nvmInitBody s))) [] :=
    (((hnvm.setPf (hX .pf) _).setStatus _).setCrc (hX .crc) _).setStatus _
  exact Part.after (f := mbInitBody) (g := fun s => crcInitBody (pfInitBody (nvmInitBody s))) hall (fun _ => rfl) hp
    fun hpt => mbInitBody_part (hX .mb) hpt

/-- A further turn of what is in progress: the reset sequence reaches every unit, a wait the MB unit alone. -/
theorem resumeWait_part (hmb : X .mb) (hX : s.wait = .reset → ∀ x, X x) (hp : s.env.noPowerLoss = true) :
    CommandPart X y resumeWait s := by
  have hcongr : ∀ {f : State → Host.Outcome State Fault Refusal}, CommandPart X y f s → resumeWait s = f s →
      (∀ n, resumeWait (s.withCut n) = f (s.withCut n)) → CommandPart X y resumeWait s := by
    intro f hf hs hn
    unfold CommandPart Cuts at *
    simpa only [hs, hn] using hf
  cases hw : s.wait with
  | idle =>
    exact .silent (by rw [resumeWait, hw]) (.refl s) fun n => by rw [resumeWait, State.withCut_wait, hw]
  | reset =>
    exact hcongr (Part.finish (resetSequence_part (hX hw) hp)) (by rw [resumeWait, hw])
      fun n => by rw [resumeWait, State.withCut_wait, hw]
  | mbInit t0 =>
    exact hcongr (Part.finish (idleWait_samples_part hmb hp t0)) (by rw [resumeWait, hw])
      fun n => by rw [resumeWait, State.withCut_wait, hw]
  | mbPre t0 f =>
    exact hcongr (Part.finish (mbPreWait_part hmb hp t0 f)) (by rw [resumeWait, hw])
      fun n => by rw [resumeWait, State.withCut_wait, hw]
  | mbPost t0 ok =>
    exact hcongr (Part.finish (mbPostWait_part hmb hp t0 ok)) (by rw [resumeWait, hw])
      fun n => by rw [resumeWait, State.withCut_wait, hw]

end

/-! ## Every command -/

/-- The unit of a command (R61). -/
def commandUnit : Instr → BlockUnit
  | .nvmInit | .nvmWrite | .nvmErase | .nvmWriteChecksum | .nvmVerifyChecksum | .nvmDone
  | .nvmGetUserProgramBase => .nvm
  | .pfInit | .pfTransmit | .pfPoll => .pf
  | .crcInit | .crcByte _ | .crcRead | .crcBlock => .crc
  | .mbInit | .mbTransmit | .mbPoll | .mbGetT35 => .mb

/-- The registers of the command interface that a command writes (R22, R23). -/
def commandWrites : Instr → HostWrites
  | .nvmVerifyChecksum | .nvmGetUserProgramBase | .crcRead | .mbGetT35 => .result
  | .pfPoll | .mbPoll => .packet
  | .nvmInit | .nvmWrite | .nvmErase | .nvmWriteChecksum | .nvmDone | .pfInit | .pfTransmit | .crcInit | .crcByte _
  | .crcBlock | .mbInit | .mbTransmit => .status

/-- With power on a command reaches its own unit and its own registers alone, and a cut stops it at a call. -/
theorem exec_part {s : State} (hp : s.env.noPowerLoss = true) (i : Instr) :
    CommandPart (· = commandUnit i) (commandWrites i) (exec i) s := by
  cases i with
  | nvmInit => exact execNvmInit_part rfl
  | nvmWrite => exact execNvmWrite_part rfl hp
  | nvmErase => exact execNvmErase_part rfl hp
  | nvmWriteChecksum => exact execNvmWriteChecksum_part rfl hp
  | nvmVerifyChecksum => exact execNvmVerifyChecksum_part hp
  | nvmDone => exact execNvmDone_part rfl hp
  | nvmGetUserProgramBase => exact execNvmGetUserProgramBase_part
  | pfInit => exact execPfInit_part rfl
  | pfTransmit => exact execPfTransmit_part hp
  | pfPoll => exact execPfPoll_part rfl hp
  | crcInit => exact execCrcInit_part rfl
  | crcByte b => exact execCrcByte_part (X := (· = .crc)) rfl b
  | crcRead => exact execCrcRead_part
  | crcBlock => exact execCrcBlock_part rfl hp
  | mbInit => exact execMbInit_part rfl hp
  | mbTransmit => exact execMbTransmit_part rfl hp
  | mbPoll => exact execMbPoll_part rfl hp
  | mbGetT35 => exact execMbGetT35_part

end Sys2Proof.Machine
end

