-- ==== Sys2Proof/Proofs/PoweredClaims.lean ====
section
/-! PROOFS. What the commands leave alone while power stays on, and what a power loss leaves (spec/10_state.md R20 to
R24, R35; spec/20_memory.md R46; spec/30_encoding.md R64; spec/60_exceptions.md R135; spec/70_reset_and_hazards.md
R136, R139). -/

namespace Sys2Proof.Machine

open Sys2Proof

/-! ## The polls, whole -/

/-- A PF poll once it has made its two calls and cleared RESULT (R95). -/
def State.pollingPf (s : State) : State :=
  { s with
    host := { s.host with result := 0 }
    env := { s.env with rxPf := s.env.rxPf.tail }
    events := s.events ++ [.nowMs s.env.nowMs, .rxPf s.env.rxPf.head?] }

/-- An MB poll once it has made its two calls and cleared RESULT (R111). -/
def State.pollingMb (s : State) : State :=
  { s with
    host := { s.host with result := 0 }
    env := { s.env with rxMb := s.env.rxMb.tail }
    events := s.events ++ [.nowTick s.env.nowTick, .rxMb s.env.rxMb.head?] }

/-- The timeout rule reads and writes the framer alone, so the receive call may come before it. -/
theorem pfTimeout_comm (now : Word) (u : State) (e : Env) (l : List Event) :
    { pfTimeout now u with env := e, events := l } = pfTimeout now { u with env := e, events := l } := by
  simp only [pfTimeout]
  split_ifs <;> rfl

/-- MB_Boundary reads and writes the Modbus unit and the packet registers alone. -/
theorem mbBoundary_comm (now : Word) (u : State) (e : Env) (l : List Event) :
    { mbBoundary now u with env := e, events := l } = mbBoundary now { u with env := e, events := l } := by
  simp only [mbBoundary, mbValidate]
  split_ifs <;> rfl

theorem pfTimeout_events (now : Word) (s : State) : (pfTimeout now s).events = s.events := by
  obtain ⟨p, hp⟩ := pfTimeout_frame now s
  rw [hp]

theorem mbBoundary_events (now : Word) (s : State) : (mbBoundary now s).events = s.events := by
  obtain ⟨m, h, hm⟩ := mbBoundary_frame now s
  rw [hm]

/-- R95: with power on, a PF poll applies the timeout and takes what the line gave. -/
theorem exec_pfPoll_on {s : State} (hpow : s.env.powerCut = none) : exec .pfPoll s =
    .next ((pfTake s.env.rxPf.head? s.env.nowMs (pfTimeout s.env.nowMs s.pollingPf)).setStatus .ok) := by
  change execPfPoll s = _
  rw [execPfPoll, readMs_on hpow, Res.bind_ok, rxBytePf_on (by rw [pfTimeout_env]; exact hpow)]
  rw [Res.bind_ok, Res.finish_ok, pfTimeout_env, pfTimeout_events, pfTimeout_comm]
  simp only [State.record, State.setResult, State.pollingPf, List.append_assoc, List.cons_append, List.nil_append]

/-- R111: with power on, an MB poll applies the boundary and takes what the line gave. -/
theorem exec_mbPoll_on {s : State} (hpow : s.env.powerCut = none) : exec .mbPoll s =
    .next ((mbTake s.env.rxMb.head? s.env.nowTick (mbBoundary s.env.nowTick s.pollingMb)).setStatus .ok) := by
  change execMbPoll s = _
  rw [execMbPoll, readTick_on hpow, Res.bind_ok, rxByteMb_on (by rw [mbBoundary_env]; exact hpow)]
  rw [Res.bind_ok, Res.finish_ok, mbBoundary_env, mbBoundary_events, mbBoundary_comm]
  simp only [State.record, State.setResult, State.pollingMb, List.append_assoc, List.cons_append, List.nil_append]

/-- R98: the framer writes the command interface only where it delivers, and then RESULT is 1. -/
theorem pfTake_host (r : Option Byte) (now : Word) (s : State) :
    (pfTake r now s).host = s.host ∨ (pfTake r now s).host.result = 1 := by
  cases r with
  | none => exact .inl rfl
  | some b =>
    simp only [pfTake, pfIdle, pfRecv]
    split_ifs
    · exact .inl rfl
    · exact .inl rfl
    · exact .inr rfl
    · exact .inl rfl

/-- R113: MB_Boundary writes the command interface only where it delivers, and then RESULT is 1. -/
theorem mbBoundary_host (now : Word) (s : State) :
    (mbBoundary now s).host = s.host ∨ (mbBoundary now s).host.result = 1 := by
  have hvalid : (mbValidate s).host = s.host ∨ (mbValidate s).host.result = 1 := by
    rw [mbValidate]
    split_ifs
    · exact .inr rfl
    · exact .inl rfl
  rw [mbBoundary]
  split_ifs
  · exact .inl rfl
  · exact hvalid
  · exact .inl rfl
  · exact .inl rfl
  · exact .inl rfl

theorem mbTake_host (r : Option Byte) (now : Word) (s : State) : (mbTake r now s).host = s.host := by
  cases r with
  | none => rfl
  | some b =>
    obtain ⟨m, hm⟩ := mbByte_frame b now s
    rw [mbTake, hm]

/-! ## What the commands leave alone -/

/-- Whatever is run, with power on it reaches `t` with calls `cs`, and writes what it may. -/
theorem run_part {f : State → Host.Outcome State Fault Refusal} (hf : f = resumeWait ∨ ∃ i, f = exec i) {s : State}
    (hp : s.env.noPowerLoss = true) : CommandPart (fun _ => True) .packet f s := by
  have hweak : ∀ {X y}, CommandPart X y f s → CommandPart (fun _ => True) .packet f s := by
    intro X y h t ht
    have hreach : ∀ {v cs}, Reaches X y s v cs → Reaches (fun _ => True) .packet s v cs := fun hr =>
      { hr with
        host := by
          have := hr.host
          cases y <;> simp only [HostWrites.kept] at this ⊢ <;> rw [this]
        nvm := fun hx => absurd trivial hx
        pf := fun hx => absurd trivial hx
        mb := fun hx => absurd trivial hx
        crc := fun hx => absurd trivial hx }
    obtain ⟨cs, hr, hc⟩ := h t ht
    refine ⟨cs, hreach hr, fun n => ⟨(hc n).1, fun hn => ?_⟩⟩
    obtain ⟨v, hv, hr'⟩ := (hc n).2 hn
    exact ⟨v, hv, hreach hr'⟩
  obtain rfl | ⟨i, rfl⟩ := hf
  · exact hweak (resumeWait_part (X := fun _ => True) (y := .status) trivial (fun _ _ => trivial) hp)
  · exact hweak (exec_part hp i)

/-- Settles O15: the registers of R64 are none that any command writes. -/
theorem noCommandWritesAnOperandRegister : Obligations.NoCommandWritesAnOperandRegister := by
  intro f hf s t hp ht
  obtain ⟨cs, hr, -⟩ := run_part hf hp t ht
  have hhost : HostWrites.packet.kept s.host t.host := hr.host
  simp only [HostWrites.kept] at hhost
  rw [hhost]
  exact ⟨rfl, rfl, rfl, rfl, rfl, rfl, rfl, hr.cfg, hr.moves, hr.readBus⟩

/-- A run that writes STATUS alone of the command interface. -/
theorem CommandPart.status_only {X : BlockUnit → Prop} {f : State → Host.Outcome State Fault Refusal} {s t : State}
    (h : CommandPart X .status f s) (ht : f s = .next t) : t.host = { s.host with status := t.host.status } := by
  obtain ⟨cs, hr, -⟩ := h t ht
  exact hr.host

/-- A further turn writes STATUS alone of the command interface. -/
theorem resumeWait_status_only {s t : State} (hp : s.env.noPowerLoss = true) (ht : resumeWait s = .next t) :
    t.host = { s.host with status := t.host.status } :=
  (resumeWait_part (X := fun _ => True) trivial (fun _ _ => trivial) hp).status_only ht

/-- R22: a command outside R22's list writes STATUS alone of the command interface. -/
theorem exec_status_only {i : Instr} {s t : State} (hw : commandWrites i = .status) (hp : s.env.noPowerLoss = true)
    (ht : exec i s = .next t) : t.host = { s.host with status := t.host.status } :=
  CommandPart.status_only (hw ▸ exec_part hp i) ht

/-- Settles O16: R22's list is the list of the commands that write more than STATUS. -/
theorem otherCommandsLeaveResult : Obligations.OtherCommandsLeaveResult := by
  intro f hf s t hp ht
  have hhost : t.host = { s.host with status := t.host.status } := by
    obtain rfl | ⟨i, rfl, h1, h2, h3, h4, h5, h6⟩ := hf
    · exact resumeWait_status_only hp ht
    · exact exec_status_only (by cases i <;> simp_all [commandWrites]) hp ht
  rw [hhost]

/-- R23: a PF poll that does not deliver leaves the packet registers. -/
theorem exec_pfPoll_packet {s t : State} (hp : s.env.noPowerLoss = true) (ht : exec .pfPoll s = .next t)
    (hr : t.host.result ≠ 1) : t.host.pktLen = s.host.pktLen ∧ t.host.pktData = s.host.pktData := by
  rw [exec_pfPoll_on (Env.noPowerLoss_cut hp)] at ht
  cases ht
  obtain ⟨p, htime⟩ := pfTimeout_frame s.env.nowMs s.pollingPf
  rw [htime] at hr ⊢
  obtain hsame | hone := pfTake_host s.env.rxPf.head? s.env.nowMs { s.pollingPf with pf := p }
  · simp only [State.setStatus, hsame]
    exact ⟨rfl, rfl⟩
  · exact absurd hone hr

/-- R23: an MB poll that does not deliver leaves the packet registers. -/
theorem exec_mbPoll_packet {s t : State} (hp : s.env.noPowerLoss = true) (ht : exec .mbPoll s = .next t)
    (hr : t.host.result ≠ 1) : t.host.pktLen = s.host.pktLen ∧ t.host.pktData = s.host.pktData := by
  rw [exec_mbPoll_on (Env.noPowerLoss_cut hp)] at ht
  cases ht
  simp only [State.setStatus, mbTake_host] at hr ⊢
  obtain hsame | hone := mbBoundary_host s.env.nowTick s.pollingMb
  · simp only [hsame]
    exact ⟨rfl, rfl⟩
  · exact absurd hone hr

/-- R22, R23: a command outside the polls leaves the packet registers. -/
theorem exec_packet {i : Instr} {s t : State} (h1 : i ≠ .pfPoll) (h2 : i ≠ .mbPoll) (hp : s.env.noPowerLoss = true)
    (ht : exec i s = .next t) : t.host.pktLen = s.host.pktLen ∧ t.host.pktData = s.host.pktData := by
  obtain ⟨cs, hr, -⟩ := exec_part hp i t ht
  have hhost := hr.host
  have hw : commandWrites i = .status ∨ commandWrites i = .result := by cases i <;> simp_all [commandWrites]
  obtain hw | hw := hw <;> rw [hw, HostWrites.kept] at hhost <;> rw [hhost] <;> exact ⟨rfl, rfl⟩

/-- Settles O17: outside the polls no command writes the packet registers, and a poll writes them only where RESULT
is 1. -/
theorem packetRegistersChangeOnlyOnDelivery : Obligations.PacketRegistersChangeOnlyOnDelivery := by
  intro f hf s t hp ht hcase
  have hresume : f = resumeWait → t.host.pktLen = s.host.pktLen ∧ t.host.pktData = s.host.pktData := by
    rintro rfl
    rw [resumeWait_status_only hp ht]
    exact ⟨rfl, rfl⟩
  obtain hres | ⟨i, rfl, h1, h2⟩ | hr := hcase
  · exact hresume hres
  · exact exec_packet h1 h2 hp ht
  · obtain hres | ⟨i, rfl⟩ := hf
    · exact hresume hres
    · by_cases h1 : i = .pfPoll
      · exact exec_pfPoll_packet hp (h1 ▸ ht) hr
      · by_cases h2 : i = .mbPoll
        · exact exec_mbPoll_packet hp (h2 ▸ ht) hr
        · exact exec_packet h1 h2 hp ht

/-! ## The units -/

/-- R136: a command reaches its next state through its own unit alone. -/
theorem exec_reaches {i : Instr} {s t : State} (hp : s.env.noPowerLoss = true) (ht : exec i s = .next t) :
    ∃ cs, Reaches (· = commandUnit i) (commandWrites i) s t cs := by
  obtain ⟨cs, hr, -⟩ := exec_part hp i t ht
  exact ⟨cs, hr⟩

/-- R102 to R106: a CRC command calls no port. -/
theorem exec_crc_silent {i : Instr} {s t : State} (hu : commandUnit i = .crc) (ht : exec i s = .next t) :
    t.env = s.env ∧ t.events = s.events := by
  cases i <;> simp only [commandUnit, reduceCtorEq] at hu
  case crcBlock =>
    change execCrcBlock s = _ at ht
    rw [execCrcBlock] at ht
    by_cases hlen : s.host.argLenWritten = true
    · rw [readArgLen_written hlen, Res.bind_ok] at ht
      split_ifs at ht
      · obtain ⟨-, hdata⟩ | ⟨-, hdata⟩ := readData_spec s.host.argLen.toNat s <;> rw [hdata] at ht <;> cases ht
        exact ⟨rfl, rfl⟩
      · cases ht
        exact ⟨rfl, rfl⟩
    · rw [readArgLen_unwritten (by simpa using hlen)] at ht
      cases ht
  all_goals
    cases ht
    exact ⟨rfl, rfl⟩

theorem exec_nvm_leaves {i : Instr} {s t : State} (hu : commandUnit i = .nvm) (hp : s.env.noPowerLoss = true)
    (ht : exec i s = .next t) : t.pf = s.pf ∧ t.crcReg = s.crcReg ∧ t.mb = s.mb ∧ t.wait = s.wait := by
  obtain ⟨cs, hr⟩ := exec_reaches hp ht
  simp only [hu] at hr
  exact ⟨hr.pf nofun, hr.crc nofun, hr.mb nofun⟩

theorem exec_pf_leaves {i : Instr} {s t : State} (hu : commandUnit i = .pf) (hp : s.env.noPowerLoss = true)
    (ht : exec i s = .next t) :
    t.gen = s.gen ∧ t.boot = s.boot ∧ t.flash = s.flash ∧ t.crcReg = s.crcReg ∧ t.mb = s.mb ∧ t.wait = s.wait := by
  obtain ⟨cs, hr⟩ := exec_reaches hp ht
  simp only [hu] at hr
  obtain ⟨hgen, hboot, hflash⟩ := hr.nvm nofun
  exact ⟨hgen, hboot, hflash, hr.crc nofun, hr.mb nofun⟩

theorem exec_mb_leaves {i : Instr} {s t : State} (hu : commandUnit i = .mb) (hp : s.env.noPowerLoss = true)
    (ht : exec i s = .next t) :
    t.gen = s.gen ∧ t.boot = s.boot ∧ t.flash = s.flash ∧ t.crcReg = s.crcReg ∧ t.pf = s.pf := by
  obtain ⟨cs, hr⟩ := exec_reaches hp ht
  simp only [hu] at hr
  obtain ⟨hgen, hboot, hflash⟩ := hr.nvm nofun
  exact ⟨hgen, hboot, hflash, hr.crc nofun, hr.pf nofun⟩

theorem exec_crc_leaves {i : Instr} {s t : State} (hu : commandUnit i = .crc) (hp : s.env.noPowerLoss = true)
    (ht : exec i s = .next t) : t.gen = s.gen ∧ t.boot = s.boot ∧ t.flash = s.flash ∧ t.pf = s.pf ∧ t.mb = s.mb ∧
      t.env = s.env ∧ t.events = s.events ∧ t.wait = s.wait := by
  obtain ⟨cs, hr⟩ := exec_reaches hp ht
  simp only [hu] at hr
  obtain ⟨hgen, hboot, hflash⟩ := hr.nvm nofun
  obtain ⟨hmb, hwait⟩ := hr.mb nofun
  obtain ⟨henv, hevents⟩ := exec_crc_silent hu ht
  exact ⟨hgen, hboot, hflash, hr.pf nofun, hmb, henv, hevents, hwait⟩

/-- Settles O18: each command writes its own unit alone; a further turn is one of the Modbus unit, or the reset
sequence. -/
theorem unitsAreIndependent : Obligations.UnitsAreIndependent := by
  intro s t hp
  refine ⟨?_, ?_, ?_, ?_, ?_⟩
  · rintro (h | h | h | h | h | h | h) <;> exact exec_nvm_leaves rfl hp h
  · rintro (h | h | h) <;> exact exec_pf_leaves rfl hp h
  · rintro (h | h | h | h) <;> exact exec_mb_leaves rfl hp h
  · rintro (h | ⟨b, h⟩ | h | h) <;> exact exec_crc_leaves rfl hp h
  · intro h hwait
    obtain ⟨cs, hr, -⟩ := resumeWait_part (X := (· = .mb)) (y := .status) rfl (fun h => absurd h hwait) hp t h
    obtain ⟨hgen, hboot, hflash⟩ := hr.nvm nofun
    exact ⟨hgen, hboot, hflash, hr.crc nofun, hr.pf nofun⟩

/-! ## Power loss -/

/-- R135, R138: the turn after a power loss between moves runs the reset sequence. -/
theorem resumeWait_powerOff (s : State) : ∃ q tick ws evs last w, w ≠ .reset ∧ resumeWait (powerOff s) =
    .next { powerOff s with
      env := { (powerOff s).env with rxMb := q, nowTick := tick, waitSamples := ws }
      events := (powerOff s).events ++ evs
      mb := { (powerOff s).mb with lastTick := last }
      wait := w } := by
  obtain ⟨q, tick, ws, evs, last, h | h⟩ := mbInitBody_spec (s := crcInitBody (pfInitBody (nvmInitBody (powerOff s)))) rfl
  · refine ⟨q, tick, ws, evs, last, .idle, nofun, ?_⟩
    change (resetSequence (powerOff s)).finish = _
    rw [resetSequence, h]
    rfl
  · refine ⟨q, tick, ws, evs, (powerOff s).mb.lastTick, .mbInit last, nofun, ?_⟩
    change (resetSequence (powerOff s)).finish = _
    rw [resetSequence, h]
    rfl

/-- Settles O11: a loss between moves is `powerOff` itself; a coming cut is followed through the parts of the command
(`run_part`). -/
theorem powerLossKeepsFlashAndLosesRegisters : Obligations.PowerLossKeepsFlashAndLosesRegisters := by
  constructor
  · intro s ms hmoves
    obtain ⟨q, tick, ws, evs, last, w, hw, hresume⟩ := resumeWait_powerOff { s with moves := ms }
    have hstep : step s = .next (powerOff { s with moves := ms }) := by
      rw [step, nextMove, hmoves]
      rfl
    exact ⟨_, _, hstep, rfl, rfl, rfl, rfl, rfl, rfl, rfl, rfl, hresume, rfl, rfl, rfl, rfl, rfl, rfl, rfl, rfl, rfl,
      rfl, rfl, rfl, rfl, hw⟩
  · intro f hf s t n hp ht
    obtain ⟨cs, hr, hc⟩ := run_part hf hp t ht
    obtain ⟨hfit, hcut⟩ := hc n
    refine ⟨cs, hr.events, hfit, fun hn => ?_⟩
    obtain ⟨v, hv, hreach⟩ := hcut hn
    have hcfg := hreach.cfg
    refine ⟨powerOff v, hv, ?_, hreach.flash, congrArg HostRegs.reset hcfg, rfl, rfl, rfl, hcfg, hreach.moves, rfl⟩
    exact congrArg (· ++ [.powerLoss]) hreach.events

end Sys2Proof.Machine
end

