-- ==== Sys2Proof/Proofs/Polls.lean ====
section
/-! PROOFS. The polls of the two lines: PF_POLL without a byte and with a length byte (spec/41_packet_framer.md R95 to
R97, R99), and MB_POLL before and after T3.5 of silence (spec/43_modbus_frame.md R111 to R115). -/

namespace Sys2Proof.Machine

open Sys2Proof

/-! ## PF_POLL -/

theorem pfTimeout_eq (now : Word) (s : State) : pfTimeout now s = { s with
    pf := if s.pf.state = .receiving ∧ s.cfg.pfTimeoutMs ≤ elapsed now s.pf.lastMs
      then { s.pf with state := .idle, count := 0 } else s.pf } := by
  rw [pfTimeout]
  split_ifs <;> rfl

/-- A poll that finds no byte leaves the environment as it is. -/
theorem State.pollingPf_silent {s : State} (h : s.env.rxPf = []) : s.pollingPf = { s with
    host := { s.host with result := 0 }
    events := s.events ++ [.nowMs s.env.nowMs, .rxPf none] } := by
  have henv : { s.env with rxPf := s.env.rxPf.tail } = s.env := by
    rw [h, List.tail_nil, ← h]
  rw [State.pollingPf, henv, h, List.head?_nil]

/-- Settles O39: the timeout rule is all that a poll without a byte does. -/
theorem pfPollWithoutByteAppliesTheTimeout : Obligations.PfPollWithoutByteAppliesTheTimeout := by
  intro s hpow hrx
  rw [exec_pfPoll_on hpow, State.pollingPf_silent hrx, pfTimeout_eq, hrx]
  rfl

/-- R96: IDLE with nothing accumulated is where the timeout rule leaves the framer, in IDLE or after the timeout. -/
theorem pfTimeout_idle {now : Word} {s : State} (hidle : s.pf.state = .idle → s.pf.count = 0)
    (h : s.pf.state = .idle ∨ (s.pf.state = .receiving ∧ s.cfg.pfTimeoutMs ≤ elapsed now s.pf.lastMs)) :
    pfTimeout now s = { s with pf := { s.pf with state := .idle, count := 0 } } := by
  obtain hstate | hlate := h
  · have hpf : { s.pf with state := .idle, count := 0 } = s.pf := by rw [← hstate, ← hidle hstate]
    rw [hpf, pfTimeout, if_neg (by simp [hstate])]
  · rw [pfTimeout, if_pos hlate]

/-- Settles O40: after the timeout rule the framer is in IDLE, where a byte is a length byte. -/
theorem pfPollTakesALengthByte : Obligations.PfPollTakesALengthByte := by
  intro s b bs hinv hpow hrx hstate
  obtain ⟨-, -, -, -, ⟨-, -, hidle⟩, -⟩ := hinv
  have htake : ∀ u : State, u.pf.state = .idle → pfTake (some b) s.env.nowMs u = pfIdle b s.env.nowMs u :=
    fun u hu => if_pos hu
  rw [exec_pfPoll_on hpow, pfTimeout_idle (s := s.pollingPf) hidle hstate, hrx, List.head?_cons, htake _ rfl, pfIdle,
    State.pollingPf, hrx]
  split_ifs <;> rfl

/-! ## MB_POLL before the boundary -/

theorem mbByte_eq (b : Byte) (now : Word) (s : State) : mbByte b now s = { s with
    mb := if s.mb.sync = true then { s.mb with lastTick := now }
      else if s.mb.count = s.cfg.mbBufSize then { s.mb with lastTick := now, count := 0, sync := true }
      else { s.mb with lastTick := now, buf := s.mb.buf.set s.mb.count b, count := s.mb.count + 1 } } := by
  simp only [mbByte]
  split_ifs <;> rfl

/-- A poll that finds no byte leaves the environment as it is. -/
theorem State.pollingMb_silent {s : State} (h : s.env.rxMb = []) : s.pollingMb = { s with
    host := { s.host with result := 0 }
    events := s.events ++ [.nowTick s.env.nowTick, .rxMb none] } := by
  have henv : { s.env with rxMb := s.env.rxMb.tail } = s.env := by
    rw [h, List.tail_nil, ← h]
  rw [State.pollingMb, henv, h, List.head?_nil]

/-- R112: before T3.5 of silence the boundary rule changes nothing. -/
theorem mbBoundary_early {now : Word} {s : State} (h : elapsed now s.mb.lastTick < s.mb.t35.toNat) :
    mbBoundary now s = s := if_neg (Nat.not_le.2 h)

/-- Settles O51: without the boundary a poll is MB_Byte on the byte it takes, if there is one. -/
theorem mbPollTakesAByteBeforeTheBoundary : Obligations.MbPollTakesAByteBeforeTheBoundary := by
  intro s hpow hearly
  rw [exec_mbPoll_on hpow, mbBoundary_early (s := s.pollingMb) hearly]
  constructor
  · intro hrx
    rw [State.pollingMb_silent hrx, hrx]
    rfl
  · intro b bs hrx
    rw [hrx, List.head?_cons, mbTake, mbByte_eq, State.pollingMb, hrx]
    rfl

/-! ## MB_POLL after the boundary -/

/-- The command interface once the boundary has closed the old frame: what MB_Validate leaves of four bytes or more
(R112, R113). -/
def State.closedHost (s : State) : HostRegs :=
  if s.mb.sync = false ∧ 4 ≤ s.mb.count then (mbValidate s.pollingMb).host else s.pollingMb.host

/-- The Modbus unit once the boundary has closed the old frame and a byte that came has started the next (R112, R114). -/
def State.reopenedMb (s : State) : MbUnit :=
  match s.env.rxMb with
  | [] => { s.mb with count := 0, sync := false }
  | b :: _ => { s.mb with count := 1, sync := false, buf := s.mb.buf.set 0 b, lastTick := s.env.nowTick }

theorem mbValidate_frame (s : State) : mbValidate s = { s with host := (mbValidate s).host } := by
  rw [mbValidate]
  split_ifs <;> rfl

/-- R113: what MB_Validate leaves of the command interface comes from the configuration, the buffered frame and the
command interface. -/
theorem mbValidate_host_congr {s u : State} (hcfg : u.cfg = s.cfg) (hmb : u.mb = s.mb) (hhost : u.host = s.host) :
    (mbValidate u).host = (mbValidate s).host := by
  simp only [mbValidate, hcfg, hmb]
  split_ifs
  · simp only [State.deliver, hhost]
  · exact hhost

/-- R112: after T3.5 of silence the boundary rule leaves an empty buffer, and resynchronisation is over. -/
theorem mbBoundary_late {now : Word} {s : State} (hlate : s.mb.t35.toNat ≤ elapsed now s.mb.lastTick)
    (hsync : s.mb.sync = true → s.mb.count = 0) : mbBoundary now s = { s with
      mb := { s.mb with count := 0, sync := false }
      host := if s.mb.sync = false ∧ 4 ≤ s.mb.count then (mbValidate s).host else s.host } := by
  rw [mbBoundary, if_pos hlate]
  cases hs : s.mb.sync with
  | true =>
    have hmb : { s.mb with sync := false } = { s.mb with count := 0, sync := false } := by rw [← hsync hs]
    rw [if_pos rfl, if_neg (fun h => by cases h.1), hmb]
  | false =>
    have hmb : { s.mb with count := 0, sync := false } = { s.mb with count := 0 } := by rw [← hs]
    rw [hmb, if_neg (by simp)]
    simp only [true_and]
    split_ifs with h4 h1
    · rw [setMbCount, mbValidate_frame]
    · rfl
    · have h0 : { s.mb with count := 0 } = s.mb := by rw [← show s.mb.count = 0 by omega]
      rw [h0]

/-- R114: a byte after the boundary starts a new frame. -/
theorem mbByte_first {b : Byte} {now : Word} {s : State} (hs : s.mb.sync = false) (h0 : s.mb.count = 0) :
    mbByte b now s = { s with mb := { s.mb with lastTick := now, buf := s.mb.buf.set 0 b, count := 1 } } := by
  have hroom : (0 : Nat) ≠ s.cfg.mbBufSize := Nat.ne_of_lt (Nat.zero_lt_succ _)
  rw [mbByte_eq, if_neg (by simp [hs]), h0, if_neg hroom]

/-- R111, R112, R114: a poll after T3.5 of silence closes the old frame, and a byte it takes starts the next one. -/
theorem exec_mbPoll_late {s : State} (hinv : s.Inv) (hpow : s.env.powerCut = none)
    (hlate : s.mb.t35.toNat ≤ elapsed s.env.nowTick s.mb.lastTick) : exec .mbPoll s = .next { s with
      host := { s.closedHost with status := 0 }
      mb := s.reopenedMb
      env := { s.env with rxMb := s.env.rxMb.tail }
      events := s.events ++ [.nowTick s.env.nowTick, .rxMb s.env.rxMb.head?] } := by
  obtain ⟨-, -, -, -, -, ⟨-, -, hsync, -⟩, -⟩ := hinv
  rw [exec_mbPoll_on hpow, mbBoundary_late (s := s.pollingMb) hlate hsync]
  cases hrx : s.env.rxMb with
  | nil =>
    rw [State.reopenedMb, hrx, State.closedHost, State.pollingMb, hrx]
    rfl
  | cons b bs =>
    rw [List.head?_cons, mbTake, mbByte_first rfl rfl, State.reopenedMb, hrx, State.closedHost, State.pollingMb, hrx]
    rfl

/-- R112: outside resynchronisation the new frame starts from the same unit. -/
theorem State.reopenedMb_synced {s : State} (h : s.mb.sync = false) : s.reopenedMb = match s.env.rxMb with
    | [] => { s.mb with count := 0 }
    | b :: _ => { s.mb with count := 1, buf := s.mb.buf.set 0 b, lastTick := s.env.nowTick } := by
  rw [State.reopenedMb, ← h]

/-! ## The frame checks -/

theorem toNat_append_byte (x y : Byte) : (x ++ y).toNat = y.toNat + 256 * x.toNat := by
  rw [BitVec.toNat_append, ← Nat.shiftLeft_add_eq_or_of_lt y.isLt, Nat.shiftLeft_eq]
  omega

/-- R113: a frame that passes the checks passes each of them. -/
theorem frameValid_checks {c : Config} {f : List Byte} (h : frameValid c f = true) :
    crc16 (f.take (f.length - 2)) = f.getD (f.length - 1) 0 ++ f.getD (f.length - 2) 0 ∧ f.getD 0 0 = c.nodeId ∧
      f.getD 1 0 = c.functionCode ∧ (f.getD 2 0).toNat + 5 = f.length ∧
      (f.getD 2 0 = 0 → c.mbAcceptEmpty = true) := by
  simp only [frameValid, Bool.and_eq_true, Bool.or_eq_true, decide_eq_true_eq] at h
  obtain ⟨⟨⟨⟨hcrc, hnode⟩, hfun⟩, hlen⟩, hempty⟩ := h
  refine ⟨BitVec.eq_of_toNat_eq (by rw [toNat_append_byte, hcrc]), hnode, hfun, by omega, fun h0 => ?_⟩
  rw [h0] at hempty
  simpa using hempty

/-- Settles O53: the poll closes the old frame, and MB_Validate leaves the packet registers where a check fails. -/
theorem mbPollDropsAnInvalidFrame : Obligations.MbPollDropsAnInvalidFrame := by
  intro s f hinv hpow hsync hcount hf hfail hlate
  have hinvalid : frameValid s.cfg f ≠ true := fun hvalid => by
    obtain ⟨hcrc, hnode, hfun, hlen, hempty⟩ := frameValid_checks hvalid
    obtain h | h | h | h | ⟨h0, h⟩ := hfail
    · exact h hcrc
    · exact h hnode
    · exact h hfun
    · exact h hlen
    · exact absurd (hempty h0) (by simp [h])
  have hhost : s.closedHost = { s.host with result := 0 } := by
    have hdrop : mbValidate s.pollingMb = s.pollingMb := if_neg (hf ▸ hinvalid)
    rw [State.closedHost, hdrop, ite_self]
    rfl
  rw [exec_mbPoll_late hinv hpow hlate, hhost, State.reopenedMb_synced hsync] <;> rfl

/-- R108, R113: the frame of a payload passes the checks. -/
theorem frameValid_frame {c : Config} {p : List Byte} (hlen : p.length ≤ 255)
    (hp : 1 ≤ p.length ∨ c.mbAcceptEmpty = true) : frameValid c (frame c p) = true := by
  have hn : (frame c p).length = p.length + 5 := by simp [frame, frameBody]
  have hbody : (frameBody c p).length = p.length + 3 := by simp [frameBody]
  have htake : (frame c p).take (p.length + 3) = frameBody c p := by rw [frame, ← hbody, List.take_left]
  have hlo : (frame c p).getD (p.length + 3) 0 = crcLo (crc16 (frameBody c p)) := by
    rw [frame, ← hbody, List.getD_append_right _ _ _ _ le_rfl]
    simp
  have hhi : (frame c p).getD (p.length + 4) 0 = crcHi (crc16 (frameBody c p)) := by
    rw [frame, List.getD_append_right _ _ _ _ (by omega), hbody, show p.length + 4 - (p.length + 3) = 1 by omega]
    rfl
  have hlen8 : (BitVec.ofNat 8 p.length).toNat = p.length := by
    rw [BitVec.toNat_ofNat]
    omega
  have hcrc : (crc16 (frameBody c p)).toNat =
      (crcLo (crc16 (frameBody c p))).toNat + 256 * (crcHi (crc16 (frameBody c p))).toNat := by
    have := (crc16 (frameBody c p)).isLt
    simp only [crcLo, crcHi, BitVec.toNat_setWidth, BitVec.toNat_ushiftRight, Nat.shiftRight_eq_div_pow]
    omega
  simp only [frameValid, hn, Bool.and_eq_true, Bool.or_eq_true, decide_eq_true_eq]
  have hget2 : (frame c p).getD 2 0 = BitVec.ofNat 8 p.length := rfl
  refine ⟨⟨⟨⟨?_, rfl⟩, rfl⟩, ?_⟩, ?_⟩
  · rw [show p.length + 5 - 2 = p.length + 3 by omega, show p.length + 5 - 1 = p.length + 4 by omega, htake, hlo, hhi]
    exact hcrc
  · rw [hget2, hlen8]
    omega
  · rw [hget2, hlen8]
    exact hp

/-- R108, R113: MB_Validate delivers the payload of a frame. -/
theorem mbValidate_delivers {s : State} {p : List Byte} (hlen : p.length ≤ 255)
    (hp : 1 ≤ p.length ∨ s.cfg.mbAcceptEmpty = true) (hbuf : s.mb.buf.take s.mb.count = frame s.cfg p) :
    mbValidate s = s.deliver (BitVec.ofNat 8 p.length) p := by
  have hlen8 : (BitVec.ofNat 8 p.length).toNat = p.length := by
    rw [BitVec.toNat_ofNat]
    omega
  have hpayload : ((frame s.cfg p).drop 3).take p.length = p := by
    rw [show (frame s.cfg p).drop 3 = p ++ _ from rfl, List.take_left]
  rw [mbValidate, hbuf]
  simp only [if_pos (frameValid_frame hlen hp)]
  rw [show (frame s.cfg p).getD 2 0 = BitVec.ofNat 8 p.length from rfl, hlen8, hpayload]

/-- Settles O52: the poll closes the old frame, and the frame of a payload passes the checks of R113. -/
theorem mbPollDeliversAValidFrame : Obligations.MbPollDeliversAValidFrame := by
  intro s p hinv hpow hp hmax hsync hcount hbuf hlate
  have hhost : s.closedHost = (s.pollingMb.deliver (BitVec.ofNat 8 p.length) p).host := by
    have hlen : p.length ≤ 255 := hmax.trans s.cfg.lengths.2.1
    rw [State.closedHost, if_pos ⟨hsync, by omega⟩, mbValidate_delivers (s := s.pollingMb) hlen hp hbuf]
  rw [exec_mbPoll_late hinv hpow hlate, hhost, State.reopenedMb_synced hsync] <;> rfl

/-- Settles O54: a poll without a byte only closes the old frame, and nothing of fewer than four bytes is validated. -/
theorem mbPollEndsResyncAndDropsFragments : Obligations.MbPollEndsResyncAndDropsFragments := by
  intro s hpow hrx hlate
  have hpoll : ∀ m, mbBoundary s.env.nowTick s.pollingMb = { s.pollingMb with mb := m } →
      exec .mbPoll s = .next { s with
        host := { s.host with result := 0, status := 0 }
        mb := m
        events := s.events ++ [.nowTick s.env.nowTick, .rxMb none] } := fun m hm => by
    rw [exec_mbPoll_on hpow, hm, State.pollingMb_silent hrx, hrx]
    rfl
  have hboundary : s.pollingMb.mb.t35.toNat ≤ elapsed s.env.nowTick s.pollingMb.mb.lastTick := hlate
  constructor
  · intro hsync
    have hsync' : s.pollingMb.mb.sync = true := hsync
    exact hpoll _ (by rw [mbBoundary, if_pos hboundary, if_pos hsync']; rfl)
  · intro hsync hcount
    have hsync' : s.pollingMb.mb.sync = false := hsync
    have hcount' : s.pollingMb.mb.count ≤ 3 := hcount
    have hnot := mbBoundary_late hboundary (fun h => by simp [hsync'] at h)
    refine hpoll _ ?_
    rw [hnot, if_neg (fun h => absurd h.2 (by omega)), ← hsync']
    rfl

/-- Settles O55: what a poll leaves of the command interface comes from the old frame alone. -/
theorem mbPollStartsANewFrameAfterSilence : Obligations.MbPollStartsANewFrameAfterSilence := by
  intro s b bs hinv hpow hrx hlate
  have hsilent := exec_mbPoll_late (s := { s with env := { s.env with rxMb := [] } }) hinv hpow hlate
  have hhost : State.closedHost { s with env := { s.env with rxMb := [] } } = s.closedHost := by
    exact congrArg (ite _ · _) (mbValidate_host_congr rfl rfl rfl)
  rw [hhost] at hsilent
  have hmb : s.reopenedMb =
      { s.mb with buf := s.mb.buf.set 0 b, count := 1, sync := false, lastTick := s.env.nowTick } := by
    rw [State.reopenedMb, hrx]
  refine ⟨_, exec_mbPoll_late hinv hpow hlate, hmb, ?_, ?_, ⟨_, hsilent, rfl⟩, rfl, rfl, rfl, rfl, rfl, rfl, rfl⟩
  · rw [hrx]
    rfl
  · rw [hrx]
    rfl

end Sys2Proof.Machine
end

