-- ==== Sys2Proof/Proofs/Sends.lean ====
section
/-! PROOFS. The answers of a sequence of port calls, and PF_TRANSMIT (spec/41_packet_framer.md R93, R94). -/

namespace Sys2Proof.Machine

open Sys2Proof

/-! ## A sequence of answered calls -/

@[simp] theorem Env.afterCalls_powerCut (e : Env) (p : Port) (ns : List Nat) :
    (e.afterCalls p ns).powerCut = e.powerCut := by
  induction ns generalizing e with
  | nil => rfl
  | cons n ns ih => exact (ih (e.answered p n)).trans (by simp)

theorem Env.afterCalls_append (e : Env) (p : Port) (ns ms : List Nat) :
    e.afterCalls p (ns ++ ms) = (e.afterCalls p ns).afterCalls p ms := by
  induction ns generalizing e with
  | nil => rfl
  | cons n ns ih => exact ih (e.answered p n)

theorem Env.verdictsOf_append (e : Env) (p : Port) (ns ms : List Nat) :
    e.verdictsOf p (ns ++ ms) = e.verdictsOf p ns ++ (e.afterCalls p ns).verdictsOf p ms := by
  induction ns generalizing e with
  | nil => rfl
  | cons n ns ih => exact congrArg (e.verdictOf p :: ·) (ih (e.answered p n))

@[simp] theorem Env.verdictsOf_length (e : Env) (p : Port) (ns : List Nat) : (e.verdictsOf p ns).length = ns.length := by
  induction ns generalizing e with
  | nil => rfl
  | cons n ns ih => exact congrArg (· + 1) (ih (e.answered p n))

/-- Where the first `k` calls of a port are accepted and the next is not. -/
theorem Env.verdictsOf_firstRefused {e : Env} {p : Port} {k : Nat}
    (h : e.verdictsOf p (List.replicate (k + 1) 0) = List.replicate k .ok ++ [.fail]) :
    e.verdictsOf p (List.replicate k 0) = List.replicate k .ok ∧
      (e.afterCalls p (List.replicate k 0)).verdictOf p = .fail := by
  rw [List.replicate_succ', Env.verdictsOf_append] at h
  obtain ⟨hpre, hlast⟩ := List.append_inj h (by simp)
  exact ⟨hpre, List.singleton_inj.1 hlast⟩

/-- The state after the calls `l` of a port that draws no bytes. -/
def State.sent (s : State) (p : Port) (l : List Event) : State :=
  { s with env := s.env.afterCalls p (List.replicate l.length 0), events := s.events ++ l }

theorem State.sent_nil (s : State) (p : Port) : s.sent p [] = s := by
  simp only [State.sent, List.append_nil]
  rfl

theorem State.sent_append (s : State) (p : Port) (l l' : List Event) :
    s.sent p (l ++ l') = (s.sent p l).sent p l' := by
  simp only [State.sent, List.length_append, List.replicate_add, Env.afterCalls_append, List.append_assoc]

/-! ## The send loop of the packet framer -/

theorem txBytePf_sent {b : Byte} {s : State} (hp : s.env.powerCut = none) :
    txBytePf b s = verdictResult (s.env.verdictOf .txPf) (s.sent .txPf [.txPf b (s.env.verdictOf .txPf)]) :=
  txBytePf_on hp

/-- R93: the loop goes on past bytes that are accepted. -/
theorem pfSend_accepted (bs rest : List Byte) {s : State} (hp : s.env.powerCut = none)
    (h : s.env.verdictsOf .txPf (List.replicate bs.length 0) = List.replicate bs.length .ok) :
    pfSend (bs ++ rest) s = pfSend rest (s.sent .txPf (bs.map fun b => .txPf b .ok)) := by
  induction bs generalizing s with
  | nil => rw [List.map_nil, State.sent_nil, List.nil_append]
  | cons b bs ih =>
    obtain ⟨hb, hbs⟩ := List.cons_eq_cons.1 h
    rw [List.cons_append, pfSend, txBytePf_sent hp, hb]
    exact (ih ((Env.afterCalls_powerCut ..).trans hp) hbs).trans
      (congrArg (pfSend rest) (State.sent_append s .txPf [.txPf b .ok] _).symm)

/-- R93, R129: the first byte that is not accepted ends the command. -/
theorem pfSend_refused {b : Byte} {bs : List Byte} {s : State} (hp : s.env.powerCut = none)
    (h : s.env.verdictOf .txPf = .fail) :
    pfSend (b :: bs) s = .ended ((s.sent .txPf [.txPf b .fail]).setStatus .hwError) := by
  rw [pfSend, txBytePf_sent hp, h]
  rfl

/-- R93: with written operands in range, PF_TRANSMIT sends the length byte and the payload. -/
theorem exec_pfTransmit_inRange {s : State} {n : Nat} (hinv : s.Inv) (h : s.hasPacket n) (h1 : 1 ≤ n)
    (h2 : n ≤ s.cfg.maxData) :
    exec .pfTransmit s = (pfSend (BitVec.ofNat 8 n :: s.host.dbuf.take n) s).finish ∧
      (s.host.dbuf.take n).length = n := by
  obtain ⟨-, ⟨hdbuf, -⟩, -⟩ := hinv
  have hlen : (s.host.dbuf.take n).length = n :=
    List.length_take_of_le (by have := s.cfg.lengths.2.2.1; omega)
  refine ⟨?_, hlen⟩
  change execPfTransmit s = _
  rw [execPfTransmit, readPacket_ok h h1 h2, Res.bind_ok, hlen]

/-- Settles O37: every byte is accepted. -/
theorem pfTransmitSendsLengthThenPayload : Obligations.PfTransmitSendsLengthThenPayload := by
  intro s n hinv hp hpacket h1 h2 hverdicts
  obtain ⟨hexec, hlen⟩ := exec_pfTransmit_inRange hinv hpacket h1 h2
  have hn : (BitVec.ofNat 8 n :: s.host.dbuf.take n).length = n + 1 := by rw [List.length_cons, hlen]
  have hsend := pfSend_accepted _ [] hp (hn ▸ hverdicts)
  rw [List.append_nil] at hsend
  rw [hexec, hsend, pfSend, Res.finish_ok, State.sent, List.length_map, hn]
  rfl

/-- Settles O38: the bytes before the first refused one are accepted, and it ends the command. -/
theorem pfTransmitStopsAtTheFirstRefusedByte : Obligations.PfTransmitStopsAtTheFirstRefusedByte := by
  intro s n k hinv hp hpacket h1 h2 hk hverdicts
  obtain ⟨hexec, hlen⟩ := exec_pfTransmit_inRange hinv hpacket h1 h2
  obtain ⟨hpre, hfail⟩ := Env.verdictsOf_firstRefused hverdicts
  set f := BitVec.ofNat 8 n :: s.host.dbuf.take n with hf
  have hkf : k < f.length := by rw [hf, List.length_cons, hlen]; omega
  have htake : (f.take k).length = k := List.length_take_of_le hkf.le
  have hsplit : f = f.take k ++ f.getD k 0 :: f.drop (k + 1) := by
    rw [List.getD_eq_getElem _ _ hkf, List.getElem_cons_drop, List.take_append_drop]
  have hsend := pfSend_accepted (f.take k) (f.getD k 0 :: f.drop (k + 1)) hp (by rw [htake]; exact hpre)
  have hrefused : (s.sent .txPf ((f.take k).map fun b => .txPf b .ok)).env.verdictOf .txPf = .fail := by
    rw [State.sent, List.length_map, htake]
    exact hfail
  rw [← hsplit, pfSend_refused ((Env.afterCalls_powerCut ..).trans hp) hrefused, ← State.sent_append] at hsend
  rw [hexec, hsend, Res.finish_ended, State.sent, List.length_append, List.length_map, htake, ← List.append_assoc]
  rfl

end Sys2Proof.Machine
end

