-- ==== Sys2Proof/Proofs/Transmit.lean ====
section
/-! PROOFS. MB_TRANSMIT, fresh and resumed (spec/43_modbus_frame.md R116, R117; log 11). -/

namespace Sys2Proof.Machine

open Sys2Proof

/-! ## What the waits change of the environment -/

/-- The environment once busy-wait samples have moved its line, its counter and its script. -/
def Env.waited (e : Env) (q : List Byte) (tick : Word) (ws : List WaitSample) : Env :=
  { e with rxMb := q, nowTick := tick, waitSamples := ws }

@[simp] theorem Env.verdictOf_waited (e : Env) (q : List Byte) (tick : Word) (ws : List WaitSample) (p : Port) :
    (e.waited q tick ws).verdictOf p = e.verdictOf p := by cases p <;> rfl

theorem Env.answered_waited (e : Env) (q : List Byte) (tick : Word) (ws : List WaitSample) (p : Port) (n : Nat) :
    (e.waited q tick ws).answered p n = (e.answered p n).waited q tick ws := by cases p <;> rfl

/-- The answers of the ports do not depend on what the waits change. -/
theorem Env.verdictsOf_waited (e : Env) (q : List Byte) (tick : Word) (ws : List WaitSample) (p : Port)
    (ns : List Nat) : (e.waited q tick ws).verdictsOf p ns = e.verdictsOf p ns := by
  induction ns generalizing e with
  | nil => rfl
  | cons n ns ih => rw [Env.verdictsOf, Env.verdictOf_waited, Env.answered_waited, ih, Env.verdictsOf]

theorem Env.afterCalls_waited (e : Env) (q : List Byte) (tick : Word) (ws : List WaitSample) (p : Port)
    (ns : List Nat) : (e.waited q tick ws).afterCalls p ns = (e.afterCalls p ns).waited q tick ws := by
  induction ns generalizing e with
  | nil => rfl
  | cons n ns ih => rw [Env.afterCalls, Env.answered_waited, ih, Env.afterCalls]

/-- The calls of a port leave the line, the counter and the script. -/
theorem Env.afterCalls_frame (e : Env) (p : Port) (ns : List Nat) :
    e.afterCalls p ns = (e.afterCalls p ns).waited e.rxMb e.nowTick e.waitSamples :=
  Env.afterCalls_waited e e.rxMb e.nowTick e.waitSamples p ns

/-! ## The delays -/

/-- The state after a delay that ran the samples `pre` and ended at `w`, with `rest` still to come. -/
def State.delayed (s : State) (pre : List WaitSample) (w : WaitSample) (rest : List WaitSample) : State :=
  { s with
    env := s.env.waited (s.env.rxMb ++ (pre ++ [w]).flatMap WaitSample.arrivals) w.tick rest
    events := s.events ++ delayEvents (pre ++ [w]) }

/-- R116: a delay ends at the first sample that reaches it. -/
theorem delayWait_ends {d : Nat} {t0 : Word} {pre rest : List WaitSample} {w : WaitSample} {s : State}
    (hp : s.env.powerCut = none) (hpre : ∀ x ∈ pre, elapsed x.tick t0 < d) (hw : d ≤ elapsed w.tick t0) :
    delayWait d t0 (pre ++ w :: rest) s = .ok true (s.delayed pre w rest) := by
  induction pre generalizing s with
  | nil =>
    have hend : delayIteration d t0 (applySample w rest s) = .ok (decide (d ≤ elapsed w.tick t0)) _ :=
      delayIteration_on hp
    rw [List.nil_append, delayWait, hend, decide_eq_true hw]
    simp [State.delayed, delayEvents, applySample, Env.waited]
  | cons x pre ih =>
    obtain ⟨hx, hpre⟩ := List.forall_mem_cons.1 hpre
    have hgo : delayIteration d t0 (applySample x (pre ++ w :: rest) s) = .ok (decide (d ≤ elapsed x.tick t0)) _ :=
      delayIteration_on hp
    rw [List.cons_append, delayWait, hgo, decide_eq_false (Nat.not_le.2 hx), Res.bind_ok, if_neg Bool.false_ne_true]
    refine (ih (by exact hp) hpre).trans ?_
    simp [State.delayed, delayEvents, applySample, Env.waited]

/-- R116: without a sample a delay looks at the counter once. -/
theorem delayWait_still {d : Nat} {t0 : Word} {s : State} (hp : s.env.powerCut = none) :
    delayWait d t0 [] s = .ok (decide (d ≤ elapsed s.env.nowTick t0))
      { s with events := s.events ++ [.kick, .nowTick s.env.nowTick] } := delayIteration_on hp

/-- The state once MB_TRANSMIT has released the driver and completed. -/
def State.released (s : State) (ok : Bool) : State :=
  { s with
    mb := { s.mb with de := false }
    wait := .idle
    events := s.events ++ [.driverEnable false]
    host := { s.host with status := statusValue (if ok then .ok else .hwError) } }

/-- R116: the post-delay ends at the first sample that reaches it, and the driver is released. -/
theorem mbPostWait_ends {t0 : Word} {ok : Bool} {post rest : List WaitSample} {v : WaitSample} {s : State}
    (hp : s.env.powerCut = none) (hws : s.env.waitSamples = post ++ v :: rest)
    (hpost : ∀ x ∈ post, elapsed x.tick t0 < s.cfg.mbPostDelayTicks)
    (hv : s.cfg.mbPostDelayTicks ≤ elapsed v.tick t0) :
    (mbPostWait t0 ok s).finish = .next ((s.delayed post v rest).released ok) := by
  rw [mbPostWait, hws, delayWait_ends hp hpost hv, Res.bind_ok, if_pos rfl]
  exact mbRelease_on hp

/-- R116: the post-delay on a counter that does not move ends at once, or stays in progress. -/
theorem mbPostWait_still {t0 : Word} {ok : Bool} {s : State} (hp : s.env.powerCut = none)
    (hws : s.env.waitSamples = []) : (mbPostWait t0 ok s).finish = .next
      (if s.cfg.mbPostDelayTicks ≤ elapsed s.env.nowTick t0 then
        State.released { s with events := s.events ++ [.kick, .nowTick s.env.nowTick] } ok
      else { s with wait := .mbPost t0 ok, events := s.events ++ [.kick, .nowTick s.env.nowTick] }) := by
  rw [mbPostWait, hws, delayWait_still hp, Res.bind_ok]
  split_ifs with h hend hend
  · exact mbRelease_on hp
  · exact absurd (of_decide_eq_true h) hend
  · exact absurd (decide_eq_true hend) h
  · rfl

/-! ## The send loop -/

theorem txByteMb_sent {b : Byte} {s : State} (hp : s.env.powerCut = none) :
    txByteMb b s = verdictResult (s.env.verdictOf .txMb) (s.sent .txMb [.txMb b (s.env.verdictOf .txMb)]) :=
  txByteMb_on hp

/-- R116: the last byte has its own call. -/
theorem mbSend_last {b : Byte} {s : State} (hp : s.env.powerCut = none) :
    mbSend [b] s = verdictResult (s.env.verdictOf .txMb) (s.sent .txMb [.txMbLast b (s.env.verdictOf .txMb)]) :=
  txByteMbLast_on hp

theorem mbSend_cons {b : Byte} {bs : List Byte} (h : bs ≠ []) (s : State) :
    mbSend (b :: bs) s = (txByteMb b s).bind fun ok s => if ok then mbSend bs s else .ok false s := by
  cases bs with
  | nil => exact absurd rfl h
  | cons b' bs => rfl

/-- R116: the loop goes on past bytes that are accepted, as long as one remains. -/
theorem mbSend_accepted (bs : List Byte) {rest : List Byte} {s : State} (hrest : rest ≠ [])
    (hp : s.env.powerCut = none)
    (h : s.env.verdictsOf .txMb (List.replicate bs.length 0) = List.replicate bs.length .ok) :
    mbSend (bs ++ rest) s = mbSend rest (s.sent .txMb (bs.map fun b => .txMb b .ok)) := by
  induction bs generalizing s with
  | nil => rw [List.map_nil, State.sent_nil, List.nil_append]
  | cons b bs ih =>
    obtain ⟨hb, hbs⟩ := List.cons_eq_cons.1 h
    rw [List.cons_append, mbSend_cons (by simp [hrest]), txByteMb_sent hp, hb]
    exact (ih ((Env.afterCalls_powerCut ..).trans hp) hbs).trans
      (congrArg (mbSend rest) (State.sent_append s .txMb [.txMb b .ok] _).symm)

/-- The calls of a frame `f` whose bytes are all accepted. -/
def acceptedCalls (f : List Byte) : List Event :=
  ((f.take (f.length - 1)).map fun b => .txMb b .ok) ++ [.txMbLast (f.getD (f.length - 1) 0) .ok]

/-- The calls of a frame `f` whose byte `k` is the first that is not accepted. -/
def refusedCalls (f : List Byte) (k : Nat) : List Event :=
  ((f.take k).map fun b => .txMb b .ok) ++
    [if k + 1 = f.length then .txMbLast (f.getD k 0) .fail else .txMb (f.getD k 0) .fail]

theorem take_getD_drop {f : List Byte} {k : Nat} (hk : k < f.length) :
    f.take k ++ f.getD k 0 :: f.drop (k + 1) = f := by
  rw [List.getD_eq_getElem _ _ hk, List.getElem_cons_drop, List.take_append_drop]

/-- R116: the loop comes to byte `k` when those before it are accepted. -/
theorem mbSend_upTo {f : List Byte} {k : Nat} {s : State} (hk : k < f.length) (hp : s.env.powerCut = none)
    (h : s.env.verdictsOf .txMb (List.replicate k 0) = List.replicate k .ok) :
    mbSend f s = mbSend (f.getD k 0 :: f.drop (k + 1)) (s.sent .txMb ((f.take k).map fun b => .txMb b .ok)) ∧
      (s.sent .txMb ((f.take k).map fun b => .txMb b .ok)).env = s.env.afterCalls .txMb (List.replicate k 0) := by
  have htake : (f.take k).length = k := List.length_take_of_le hk.le
  have hsend := mbSend_accepted (f.take k) (rest := f.getD k 0 :: f.drop (k + 1)) (by simp) hp (by rwa [htake])
  rw [take_getD_drop hk] at hsend
  exact ⟨hsend, by rw [State.sent, List.length_map, htake]⟩

/-- R116: every byte of the frame is accepted. -/
theorem mbSend_all {f : List Byte} {s : State} (hf : 1 ≤ f.length) (hp : s.env.powerCut = none)
    (h : s.env.verdictsOf .txMb (List.replicate f.length 0) = List.replicate f.length .ok) :
    mbSend f s = .ok true (s.sent .txMb (acceptedCalls f)) := by
  obtain ⟨k, hk⟩ := Nat.exists_eq_add_of_le' hf
  rw [hk, List.replicate_succ', Env.verdictsOf_append, List.replicate_succ'] at h
  obtain ⟨hpre, hlast⟩ := List.append_inj h (by simp)
  obtain ⟨hsend, henv⟩ := mbSend_upTo (f := f) (by omega) hp hpre
  have hdrop : f.drop (k + 1) = [] := List.drop_eq_nil_of_le hk.le
  have hok : (s.sent .txMb ((f.take k).map fun b => .txMb b .ok)).env.verdictOf .txMb = .ok := by
    rw [henv]
    exact List.singleton_inj.1 hlast
  rw [hsend, hdrop, mbSend_last (by rw [henv, Env.afterCalls_powerCut, hp]), hok, ← State.sent_append, acceptedCalls,
    hk]
  rfl

/-- R116, R129: byte `k` of the frame is the first that is not accepted. -/
theorem mbSend_firstRefused {f : List Byte} {k : Nat} {s : State} (hk : k < f.length) (hp : s.env.powerCut = none)
    (h : s.env.verdictsOf .txMb (List.replicate (k + 1) 0) = List.replicate k .ok ++ [.fail]) :
    mbSend f s = .ok false (s.sent .txMb (refusedCalls f k)) := by
  obtain ⟨hpre, hfail⟩ := Env.verdictsOf_firstRefused h
  obtain ⟨hsend, henv⟩ := mbSend_upTo hk hp hpre
  rw [← henv] at hfail
  have hp' : (s.sent .txMb ((f.take k).map fun b => .txMb b .ok)).env.powerCut = none := by
    rw [henv, Env.afterCalls_powerCut, hp]
  rw [hsend, refusedCalls, State.sent_append]
  split_ifs with hlast
  · rw [List.drop_eq_nil_of_le hlast.ge, mbSend_last hp', hfail]
    rfl
  · have hmore : f.drop (k + 1) ≠ [] := mt List.drop_eq_nil_iff.1 (by omega)
    rw [mbSend_cons hmore, txByteMb_sent hp', hfail]
    rfl

/-! ## From the pre-delay to the release -/

/-- How the sending of `f` from `s` comes out, whatever the waits have moved: `ok`, with the calls `l`. -/
def State.sends (s : State) (f : List Byte) (ok : Bool) (l : List Event) : Prop :=
  ∀ q tick ws evs, mbSend f { s with env := s.env.waited q tick ws, events := evs } =
    .ok ok (State.sent { s with env := s.env.waited q tick ws, events := evs } .txMb l)

theorem State.sends_all {s : State} {f : List Byte} (hf : 1 ≤ f.length) (hp : s.env.powerCut = none)
    (h : s.env.verdictsOf .txMb (List.replicate f.length 0) = List.replicate f.length .ok) :
    s.sends f true (acceptedCalls f) :=
  fun q tick ws _ => mbSend_all hf hp ((Env.verdictsOf_waited s.env q tick ws ..).trans h)

theorem State.sends_firstRefused {s : State} {f : List Byte} {k : Nat} (hk : k < f.length)
    (hp : s.env.powerCut = none)
    (h : s.env.verdictsOf .txMb (List.replicate (k + 1) 0) = List.replicate k .ok ++ [.fail]) :
    s.sends f false (refusedCalls f k) :=
  fun q tick ws _ => mbSend_firstRefused hk hp ((Env.verdictsOf_waited s.env q tick ws ..).trans h)

/-- R116: MB_TRANSMIT from its pre-delay to its end, over scripted samples. -/
theorem mbPreWait_ends {s : State} {t0 : Word} {f : List Byte} {ok : Bool} {l : List Event}
    {pre post rest : List WaitSample} {w u v : WaitSample} (hsend : s.sends f ok l) (hp : s.env.powerCut = none)
    (hws : s.env.waitSamples = pre ++ w :: u :: (post ++ v :: rest))
    (hpre : ∀ x ∈ pre, elapsed x.tick t0 < s.cfg.mbPreDelayTicks) (hw : s.cfg.mbPreDelayTicks ≤ elapsed w.tick t0)
    (hpost : ∀ x ∈ post, elapsed x.tick u.tick < s.cfg.mbPostDelayTicks)
    (hv : s.cfg.mbPostDelayTicks ≤ elapsed v.tick u.tick) :
    (mbPreWait t0 f s).finish = .next { s with
      host := { s.host with status := statusValue (if ok then .ok else .hwError) }
      mb := { s.mb with de := false }
      wait := .idle
      env := { s.env.afterCalls .txMb (List.replicate l.length 0) with
        nowTick := v.tick
        waitSamples := rest
        rxMb := s.env.rxMb ++ (pre ++ w :: u :: (post ++ [v])).flatMap WaitSample.arrivals }
      events := s.events ++ delayEvents (pre ++ [w]) ++ l ++ [.nowTick u.tick] ++ delayEvents (post ++ [v]) ++
        [.driverEnable false] } := by
  rw [mbPreWait, hws, delayWait_ends hp hpre hw, Res.bind_ok, if_pos rfl, mbSendFrame, State.delayed, hsend,
    Res.bind_ok, State.sent, Env.afterCalls_waited]
  set s1 : State := { s with
    env := (s.env.afterCalls .txMb (List.replicate l.length 0)).waited
      (s.env.rxMb ++ (pre ++ [w]).flatMap WaitSample.arrivals) w.tick (u :: (post ++ v :: rest))
    events := s.events ++ delayEvents (pre ++ [w]) ++ l } with hs1
  have hcut : (s.env.afterCalls .txMb (List.replicate l.length 0)).powerCut = none :=
    (Env.afterCalls_powerCut ..).trans hp
  have hmove : moveTick s1 = applySample u (post ++ v :: rest) s1 := rfl
  have htick : (applySample u (post ++ v :: rest) s1).env.nowTick = u.tick := rfl
  rw [hmove, readTick_on (by exact hcut), Res.bind_ok, htick]
  refine (mbPostWait_ends (s := (applySample u (post ++ v :: rest) s1).record (.nowTick u.tick)) hcut rfl hpost
    hv).trans ?_
  simp [hs1, State.released, State.delayed, State.record, applySample, Env.waited]

/-- R116: MB_TRANSMIT from a pre-delay that ends at once, on a counter that does not move. -/
theorem mbPreWait_still {s : State} {t0 : Word} {f : List Byte} {ok : Bool} {l : List Event}
    (hsend : s.sends f ok l) (hp : s.env.powerCut = none) (hws : s.env.waitSamples = [])
    (hpre : s.cfg.mbPreDelayTicks = 0) :
    (mbPreWait t0 f s).finish =
      let sent := s.events ++ [.kick, .nowTick s.env.nowTick] ++ l ++
        [.nowTick s.env.nowTick, .kick, .nowTick s.env.nowTick]
      .next (if s.cfg.mbPostDelayTicks = 0 then { s with
          host := { s.host with status := statusValue (if ok then .ok else .hwError) }
          mb := { s.mb with de := false }
          wait := .idle
          env := s.env.afterCalls .txMb (List.replicate l.length 0)
          events := sent ++ [.driverEnable false] }
        else { s with
          wait := .mbPost s.env.nowTick ok
          env := s.env.afterCalls .txMb (List.replicate l.length 0)
          events := sent }) := by
  have hsent := hsend s.env.rxMb s.env.nowTick s.env.waitSamples (s.events ++ [.kick, .nowTick s.env.nowTick])
  have hself : s.env.waited s.env.rxMb s.env.nowTick s.env.waitSamples = s.env := rfl
  rw [hself] at hsent
  rw [mbPreWait, hws, delayWait_still hp, hpre, Res.bind_ok, if_pos (by simp), mbSendFrame, hsent, Res.bind_ok]
  set s1 : State := State.sent { s with events := s.events ++ [.kick, .nowTick s.env.nowTick] } .txMb l with hs1
  have henv : s1.env = s.env.afterCalls .txMb (List.replicate l.length 0) := rfl
  have hcut : s1.env.powerCut = none := (Env.afterCalls_powerCut ..).trans hp
  have htick : s1.env.nowTick = s.env.nowTick := by rw [henv, Env.afterCalls_frame]; rfl
  have hempty : s1.env.waitSamples = [] := by rw [henv, Env.afterCalls_frame]; exact hws
  have hmove : moveTick s1 = s1 := by rw [moveTick, hempty]
  have hzero : elapsed s.env.nowTick s.env.nowTick = 0 := by simp [elapsed]
  rw [hmove, readTick_on hcut, Res.bind_ok, mbPostWait_still (by exact hcut) (by exact hempty)]
  simp only [State.record, htick, hzero, Nat.le_zero_eq]
  have hcfg : s1.cfg = s.cfg := rfl
  by_cases hpost : s.cfg.mbPostDelayTicks = 0
  · rw [if_pos hpost, if_pos (hcfg ▸ hpost)]
    simp [hs1, State.released, State.sent]
  · rw [if_neg hpost, if_neg (hcfg ▸ hpost)]
    simp [hs1, State.sent]

/-- R116: a pre-delay that the counter has not reached stays in progress. -/
theorem mbPreWait_waits {s : State} {t0 : Word} {f : List Byte} (hp : s.env.powerCut = none)
    (hws : s.env.waitSamples = []) (hshort : elapsed s.env.nowTick t0 < s.cfg.mbPreDelayTicks) :
    mbPreWait t0 f s = .ended { s with
      wait := .mbPre t0 f, events := s.events ++ [.kick, .nowTick s.env.nowTick] } := by
  rw [mbPreWait, hws, delayWait_still hp, decide_eq_false (Nat.not_le.2 hshort)]
  rfl

/-- MB_TRANSMIT as it comes to its pre-delay: the driver is on. -/
def State.driving (s : State) : State :=
  { s with
    mb := { s.mb with de := true }
    events := s.events ++ [.driverEnable true, .nowTick s.env.nowTick] }

/-- R116: MB_TRANSMIT with written operands in range comes to its pre-delay with the driver on. -/
theorem exec_mbTransmit_inRange {s : State} {n : Nat} (hinv : s.Inv) (h : s.hasPacket n) (h1 : 1 ≤ n)
    (h2 : n ≤ s.cfg.maxData) (hp : s.env.powerCut = none) :
    exec .mbTransmit s = (mbPreWait s.env.nowTick (frame s.cfg (s.host.dbuf.take n)) s.driving).finish ∧
      (s.host.dbuf.take n).length = n := by
  obtain ⟨-, ⟨hdbuf, -⟩, -⟩ := hinv
  have hlen : (s.host.dbuf.take n).length = n :=
    List.length_take_of_le (by have := s.cfg.lengths.2.2.1; omega)
  refine ⟨?_, hlen⟩
  change execMbTransmit s = _
  rw [execMbTransmit, readPacket_ok h h1 h2, Res.bind_ok, driveEnable_on hp, Res.bind_ok, readTick_on (by exact hp),
    Res.bind_ok]
  simp [State.record, State.driving]

theorem frame_length (c : Config) (p : List Byte) : (frame c p).length = p.length + 5 := by simp [frame, frameBody]

@[simp] theorem acceptedCalls_length {f : List Byte} (h : 1 ≤ f.length) : (acceptedCalls f).length = f.length := by
  simp only [acceptedCalls, List.length_append, List.length_map, List.length_take, List.length_singleton]
  omega

@[simp] theorem refusedCalls_length {f : List Byte} {k : Nat} (h : k < f.length) :
    (refusedCalls f k).length = k + 1 := by
  simp only [refusedCalls, List.length_append, List.length_map, List.length_take, List.length_singleton]
  omega

theorem acceptedCalls_concat (body : List Byte) (last : Byte) :
    acceptedCalls (body ++ [last]) = (body.map fun b => .txMb b .ok) ++ [.txMbLast last .ok] := by
  simp [acceptedCalls]

/-- R108: the frame, its last byte apart. -/
theorem frame_eq_concat (c : Config) (p : List Byte) :
    frame c p = (frameBody c p ++ [crcLo (crc16 (frameBody c p))]) ++ [crcHi (crc16 (frameBody c p))] := by
  simp [frame]

/-! ## The obligations -/

/-- Settles O56: every byte is accepted; fresh, the frame is that of the payload. -/
theorem mbTransmitSendsTheFrameUnderDriverEnable : Obligations.MbTransmitSendsTheFrameUnderDriverEnable := by
  intro s pre post rest w u v hp hws hpost hv
  constructor
  · rintro n p body hinv hpacket h1 h2 rfl rfl hpre hw hverdicts
    obtain ⟨hexec, hlen⟩ := exec_mbTransmit_inRange hinv hpacket h1 h2 hp
    have hbody : frameBody s.cfg (s.host.dbuf.take n) =
        [s.cfg.nodeId, s.cfg.functionCode, BitVec.ofNat 8 n] ++ s.host.dbuf.take n := by rw [frameBody, hlen]; rfl
    have hframe : (frame s.cfg (s.host.dbuf.take n)).length = n + 5 := by rw [frame_length, hlen]
    have hpos : 1 ≤ (frame s.cfg (s.host.dbuf.take n)).length := by omega
    rw [← hframe] at hverdicts
    rw [hexec, mbPreWait_ends (s := s.driving) (State.sends_all hpos hp hverdicts) hp hws hpre hw hpost hv,
      acceptedCalls_length hpos,
      hframe, frame_eq_concat, acceptedCalls_concat, hbody]
    simp only [State.driving, List.append_assoc, if_true]
    rfl
  · intro t0 body last hwait hpre hw hverdicts
    have hlen : (body ++ [last]).length = body.length + 1 := List.length_append
    have hpos : 1 ≤ (body ++ [last]).length := by omega
    rw [← hlen] at hverdicts
    rw [resumeWait, hwait]
    refine (mbPreWait_ends (State.sends_all hpos hp hverdicts) hp hws hpre hw hpost hv).trans ?_
    rw [acceptedCalls_length hpos, acceptedCalls_concat, hlen]
    simp only [List.append_assoc, if_true]
    rfl

/-- Settles O57: the loop stops at the refused byte, and the post-delay and the release come all the same. -/
theorem mbTransmitReleasesTheDriverOnFailure : Obligations.MbTransmitReleasesTheDriverOnFailure := by
  intro s post rest v hp
  constructor
  · rintro n k f pre w u hinv hpacket h1 h2 hk rfl hws hpre hw hpost hv hverdicts
    obtain ⟨hexec, hlen⟩ := exec_mbTransmit_inRange hinv hpacket h1 h2 hp
    have hframe : (frame s.cfg (s.host.dbuf.take n)).length = n + 5 := by rw [frame_length, hlen]
    have hkf : k < (frame s.cfg (s.host.dbuf.take n)).length := by omega
    rw [hexec, mbPreWait_ends (s := s.driving) (State.sends_firstRefused hkf hp hverdicts) hp hws hpre hw hpost
      hv, refusedCalls_length hkf, refusedCalls, hframe]
    simp only [State.driving, List.append_assoc, Nat.reduceEqDiff, Bool.false_eq_true, if_false]
    rfl
  · intro t0 ok hwait hws hpost hv
    rw [resumeWait, hwait]
    refine (mbPostWait_ends hp hws hpost hv).trans ?_
    cases ok <;> rfl

/-- Settles O58: with no sample each delay looks at the counter once. -/
theorem mbTransmitWithoutCounterMoves : Obligations.MbTransmitWithoutCounterMoves := by
  intro s hp hws
  refine ⟨?_, ?_⟩
  · rintro n f hinv hpacket h1 h2 rfl
    obtain ⟨hexec, hlen⟩ := exec_mbTransmit_inRange hinv hpacket h1 h2 hp
    have hframe : (frame s.cfg (s.host.dbuf.take n)).length = n + 5 := by rw [frame_length, hlen]
    have hpos : 1 ≤ (frame s.cfg (s.host.dbuf.take n)).length := by omega
    refine ⟨fun hpre => ?_, fun hpre hverdicts => ?_, fun k hk hpre hverdicts => ?_⟩
    · have hshort : elapsed s.env.nowTick s.env.nowTick < s.cfg.mbPreDelayTicks := by simpa [elapsed] using hpre
      rw [hexec, mbPreWait_waits (s := s.driving) hp hws hshort, State.driving, Res.finish_ended]
      simp only [List.append_assoc]
      rfl
    · rw [← hframe] at hverdicts
      rw [hexec, mbPreWait_still (s := s.driving) (State.sends_all hpos hp hverdicts) hp hws hpre,
        acceptedCalls_length hpos, acceptedCalls, hframe]
      simp only [State.driving, List.append_assoc, if_true]
      rfl
    · have hkf : k < (frame s.cfg (s.host.dbuf.take n)).length := by omega
      rw [hexec, mbPreWait_still (s := s.driving) (State.sends_firstRefused hkf hp hverdicts) hp hws hpre,
        refusedCalls_length hkf, refusedCalls, hframe]
      simp only [State.driving, List.append_assoc, Nat.reduceEqDiff, Bool.false_eq_true, if_false]
      rfl
  · rintro t0 (⟨⟨f, hwait⟩, hshort⟩ | ⟨⟨ok, hwait⟩, hshort⟩)
    · rw [resumeWait, hwait]
      refine (congrArg Res.finish (mbPreWait_waits hp hws hshort)).trans ?_
      rw [Res.finish_ended, ← hwait]
    · rw [resumeWait, hwait]
      exact (mbPostWait_still hp hws).trans (congrArg Host.Outcome.next (if_neg (Nat.not_le.2 hshort)))

end Sys2Proof.Machine
end

