-- ==== Sys2Proof/Proofs/IdleLine.lean ====
section
/-! PROOFS. The idle-line wait of MB_INIT, fresh and resumed, and the reset sequence (spec/43_modbus_frame.md R110,
spec/70_reset_and_hazards.md R138, R139; log 11). -/

namespace Sys2Proof.Machine

open Sys2Proof

/-! ## One iteration of the wait -/

/-- The state after an iteration of the idle-line wait that saw `r` at `tick`, and left the line `q` and the script
`ws`. -/
def State.iterated (s : State) (r : Option Byte) (q : List Byte) (tick : Word) (ws : List WaitSample) : State :=
  { s with env := s.env.waited q tick ws, events := s.events ++ [.kick, .rxMb r, .nowTick tick] }

/-- MB_INIT as its wait ends. -/
def State.idled (s : State) (tick : Word) : State := { s with mb := { s.mb with lastTick := tick }, wait := .idle }

section
variable {s : State} {t0 : Word} {w : WaitSample} {ws : List WaitSample} {b : Byte} {bs : List Byte}

/-- R110: a byte in an iteration is discarded and restarts the silence at its tick. -/
theorem idleWait_byte (hp : s.env.powerCut = none) (hrx : s.env.rxMb ++ w.arrivals = b :: bs) :
    idleWait (w :: ws) t0 s = idleWait ws w.tick (s.iterated (some b) bs w.tick ws) := by
  rw [idleWait, idleIteration_byte (s := applySample w ws s) hp hrx]
  rfl

/-- An iteration on a silent line. -/
theorem idleIteration_sample (hp : s.env.powerCut = none) (hrx : s.env.rxMb ++ w.arrivals = []) :
    idleIteration t0 (applySample w ws s) = .ok
      (if s.mb.t35.toNat ≤ elapsed w.tick t0 then (w.tick, true) else (t0, false))
      (s.iterated none [] w.tick ws) := by
  refine (idleIteration_silent (s := applySample w ws s) hp hrx).trans ?_
  rw [applySample, hrx]
  rfl

/-- R110: before T3.5 of silence the wait goes on. -/
theorem idleWait_short (hp : s.env.powerCut = none) (hrx : s.env.rxMb ++ w.arrivals = [])
    (hshort : elapsed w.tick t0 < s.mb.t35.toNat) :
    idleWait (w :: ws) t0 s = idleWait ws t0 (s.iterated none [] w.tick ws) := by
  rw [idleWait, idleIteration_sample hp hrx, if_neg (Nat.not_le.2 hshort)]
  rfl

/-- R110: at T3.5 of silence the wait ends. -/
theorem idleWait_end (hp : s.env.powerCut = none) (hrx : s.env.rxMb ++ w.arrivals = [])
    (hlong : s.mb.t35.toNat ≤ elapsed w.tick t0) :
    idleWait (w :: ws) t0 s = .ok () ((s.iterated none [] w.tick ws).idled w.tick) := by
  rw [idleWait, idleIteration_sample hp hrx, if_pos hlong]
  rfl

/-- Log 11: without a sample a byte that waits is discarded, and the wait stays in progress. -/
theorem idleWait_still_byte (hp : s.env.powerCut = none) (hrx : s.env.rxMb = b :: bs) :
    idleWait [] t0 s = .ended { s with
      env := { s.env with rxMb := bs }
      wait := .mbInit s.env.nowTick
      events := s.events ++ [.kick, .rxMb (some b), .nowTick s.env.nowTick] } := by
  rw [idleWait, idleIteration_byte hp hrx]
  rfl

/-- Log 11: without a sample a silence short of T3.5 stays in progress. -/
theorem idleWait_still_short (hp : s.env.powerCut = none) (hrx : s.env.rxMb = [])
    (hshort : elapsed s.env.nowTick t0 < s.mb.t35.toNat) :
    idleWait [] t0 s = .ended { s with
      wait := .mbInit t0, events := s.events ++ [.kick, .rxMb none, .nowTick s.env.nowTick] } := by
  rw [idleWait, idleIteration_silent hp hrx, if_neg (Nat.not_le.2 hshort)]
  rfl

end

/-! ## Runs of iterations -/

/-- R110: on a silent line the wait ends at the first sample T3.5 or more after the silence's start. -/
theorem idleWait_silent_ends {t0 : Word} {pre post : List WaitSample} {w : WaitSample} {s : State}
    (hp : s.env.powerCut = none) (hrx : s.env.rxMb = []) (harr : ∀ u ∈ pre, u.arrivals = []) (hw : w.arrivals = [])
    (hshort : ∀ u ∈ pre, elapsed u.tick t0 < s.mb.t35.toNat) (hlong : s.mb.t35.toNat ≤ elapsed w.tick t0) :
    idleWait (pre ++ w :: post) t0 s = .ok () (State.idled { s with
      env := s.env.waited [] w.tick post, events := s.events ++ silentEvents (pre ++ [w]) } w.tick) := by
  induction pre generalizing s with
  | nil => exact idleWait_end hp (by rw [hrx, hw]; rfl) hlong
  | cons u pre ih =>
    obtain ⟨hu, harr⟩ := List.forall_mem_cons.1 harr
    obtain ⟨hus, hshort⟩ := List.forall_mem_cons.1 hshort
    rw [List.cons_append, idleWait_short hp (by rw [hrx, hu]; rfl) hus,
      ih (s := s.iterated none [] u.tick (pre ++ w :: post)) hp rfl harr hshort hlong]
    simp [State.iterated, Env.waited, silentEvents]

/-- The calls of the iterations that discard the bytes `bs` at the samples `ws`. -/
def discardEvents (bs : List Byte) (ws : List WaitSample) : List Event :=
  (List.zipWith (fun c u => [.kick, .rxMb (some c), .nowTick u.tick]) bs ws).flatten

/-- R110: bytes that wait on the line are discarded one each iteration, and the silence is measured from the last. -/
theorem idleWait_discards {bs : List Byte} {b : Byte} {ws rest : List WaitSample} {w : WaitSample} {t0 : Word}
    {s : State} (hp : s.env.powerCut = none) (hrx : s.env.rxMb = bs ++ [b]) (hlen : ws.length = bs.length)
    (harr : ∀ u ∈ ws, u.arrivals = []) (hw : w.arrivals = []) :
    idleWait (ws ++ w :: rest) t0 s = idleWait rest w.tick { s with
      env := s.env.waited [] w.tick rest, events := s.events ++ discardEvents (bs ++ [b]) (ws ++ [w]) } := by
  induction bs generalizing ws t0 s with
  | nil =>
    obtain rfl := List.length_eq_zero_iff.1 hlen
    exact idleWait_byte hp (by rw [hrx, hw]; rfl)
  | cons c bs ih =>
    obtain ⟨u, ws, rfl⟩ := List.exists_cons_of_length_eq_add_one hlen
    obtain ⟨hu, harr⟩ := List.forall_mem_cons.1 harr
    rw [List.cons_append, idleWait_byte (b := c) (bs := bs ++ [b]) hp (by rw [hrx, hu]; simp),
      ih (s := s.iterated (some c) (bs ++ [b]) u.tick (ws ++ w :: rest)) hp rfl (Nat.succ.inj hlen) harr]
    simp [State.iterated, Env.waited, discardEvents]

/-! ## MB_INIT -/

/-- T3.5 fits a counter word (R109). -/
theorem t35Ticks_toNat (c : Config) : (BitVec.ofNat 32 (t35Ticks c.baud)).toNat = t35Ticks c.baud := by
  have hbaud := c.lengths.2.2.2.1
  have hle : t35Ticks c.baud < 2 ^ 32 := by
    rcases Nat.lt_or_ge 19200 c.baud with h | h
    · rw [t35Ticks_above h]
      norm_num
    · have hdiv : (3850000 + c.baud - 1) / c.baud ≤ 3850000 := Nat.div_le_of_le_mul (by omega)
      rw [t35Ticks_upTo h]
      omega
  rw [BitVec.toNat_ofNat, Nat.mod_eq_of_lt hle]

/-- MB_INIT as it comes to its wait. -/
def State.initialising (s : State) : State :=
  { s with
    mb := { s.mb with t35 := BitVec.ofNat 32 (t35Ticks s.cfg.baud), count := 0, sync := false, de := false }
    events := s.events ++ [.nowTick s.env.nowTick] }

theorem exec_mbInit_on {s : State} (hp : s.env.powerCut = none) :
    exec .mbInit s = (idleWait s.env.waitSamples s.env.nowTick s.initialising).finish := by
  change (mbInitBody s).finish = _
  rw [mbInitBody, readTick_on (by exact hp), Res.bind_ok]
  rfl

/-- R110: MB_INIT on a silent line. -/
theorem exec_mbInit_silent {s : State} {pre post : List WaitSample} {w : WaitSample} (hp : s.env.powerCut = none)
    (hrx : s.env.rxMb = []) (hws : s.env.waitSamples = pre ++ w :: post) (harr : ∀ u ∈ pre, u.arrivals = [])
    (hw : w.arrivals = []) (hshort : ∀ u ∈ pre, elapsed u.tick s.env.nowTick < t35Ticks s.cfg.baud)
    (hlong : t35Ticks s.cfg.baud ≤ elapsed w.tick s.env.nowTick) :
    exec .mbInit s = .next { s with
      mb := { s.mb with
        t35 := BitVec.ofNat 32 (t35Ticks s.cfg.baud), count := 0, sync := false, de := false, lastTick := w.tick }
      host := { s.host with status := 0 }
      env := { s.env with nowTick := w.tick, waitSamples := post }
      wait := .idle
      events := s.events ++ [.nowTick s.env.nowTick] ++ silentEvents (pre ++ [w]) } := by
  have ht35 : s.initialising.mb.t35.toNat = t35Ticks s.cfg.baud := t35Ticks_toNat s.cfg
  rw [exec_mbInit_on hp, hws, idleWait_silent_ends (s := s.initialising) hp hrx harr hw (by rwa [ht35]) (by rwa [ht35]),
    Res.finish_ok, ← hrx]
  rfl

/-- Settles O49: fresh, the silence starts at the command's own sample; resumed, at the tick it holds. -/
theorem mbInitEndsAfterT35OfSilence : Obligations.MbInitEndsAfterT35OfSilence := by
  intro s pre post w hp hrx hws harr hw
  refine ⟨exec_mbInit_silent hp hrx hws harr hw, fun t0 hwait hshort hlong => ?_⟩
  rw [resumeWait, hwait]
  refine (congrArg (fun ws => (idleWait ws t0 s).finish) hws).trans ?_
  rw [idleWait_silent_ends hp hrx harr hw hshort hlong, Res.finish_ok, ← hrx]
  rfl

/-- Settles O50: each clause is a run of iterations, each with a byte or without. -/
theorem mbInitKeepsWaitingWhileBytesArrive : Obligations.MbInitKeepsWaitingWhileBytesArrive := by
  intro s b w v hp
  have ht35 : s.initialising.mb.t35.toNat = t35Ticks s.cfg.baud := t35Ticks_toNat s.cfg
  refine ⟨fun hrx hv hws => ⟨fun hlong => ?_, fun hshort => ?_⟩, ?_, ?_, ?_, ?_⟩
  · rw [exec_mbInit_on hp, hws, idleWait_byte (s := s.initialising) hp hrx,
      idleWait_end (by exact hp) (by exact hv) (by exact ht35.trans_le hlong)]
    simp [State.initialising, State.iterated, State.idled, Env.waited, silentEvents, State.setStatus, statusValue]
  · rw [exec_mbInit_on hp, hws, idleWait_byte (s := s.initialising) hp hrx,
      idleWait_short (by exact hp) (by exact hv) (by exact hshort.trans_eq ht35.symm),
      idleWait_still_short (by exact hp) rfl (by exact hshort.trans_eq ht35.symm)]
    simp [State.initialising, State.iterated, Env.waited, silentEvents]
  · intro bs ws rest hrx hws hlen harr hw hv hlong
    rw [exec_mbInit_on hp, hws, idleWait_discards (s := s.initialising) hp hrx hlen harr hw,
      idleWait_end (by exact hp) (by exact hv) (by exact ht35.trans_le hlong)]
    simp [State.initialising, State.iterated, State.idled, Env.waited, silentEvents, discardEvents, State.setStatus,
      statusValue]
  · intro bs hrx hws
    rw [exec_mbInit_on hp, hws, idleWait_still_byte (s := s.initialising) hp hrx]
    simp [State.initialising]
  · intro hrx hv hws hshort
    rw [exec_mbInit_on hp, hws,
      idleWait_short (s := s.initialising) hp (by rw [hv, List.append_nil]; exact hrx) (hshort.trans_eq ht35.symm),
      idleWait_still_short (by exact hp) rfl (by exact hshort.trans_eq ht35.symm)]
    simp [State.initialising, State.iterated, Env.waited, silentEvents, hrx]
  · intro t0 bs hwait hrx hws
    rw [resumeWait, hwait]
    refine (congrArg (fun ws => (idleWait ws t0 s).finish) hws).trans ?_
    rw [idleWait_still_byte hp hrx]
    rfl

/-! ## The reset sequence -/

/-- R138: the reset sequence is the four init commands in order. -/
theorem resumeWait_reset {s : State} (h : s.wait = .reset) :
    resumeWait s = exec .mbInit (crcInitBody (pfInitBody (nvmInitBody s))) := by
  rw [resumeWait, h]
  rfl

/-- Settles O10: the first three init commands write their own unit and STATUS, and MB_INIT ends at the one sample. -/
theorem initCommandsReachTheResetValues : Obligations.InitCommandsReachTheResetValues := by
  intro s tick hp hrx hws hlong
  have hinit := exec_mbInit_silent (s := crcInitBody (pfInitBody (nvmInitBody s))) (pre := []) (post := []) hp hrx hws
    (List.forall_mem_nil _) rfl (List.forall_mem_nil _) hlong
  exact ⟨⟨_, _, _, _, rfl, rfl, rfl, hinit, rfl, rfl, rfl, rfl, rfl, rfl, rfl, rfl, rfl, rfl, rfl, rfl, rfl, rfl⟩,
    fun hwait => ⟨_, (resumeWait_reset hwait).trans hinit, rfl, rfl, rfl, rfl, rfl, rfl, rfl, rfl, rfl, rfl, rfl, rfl, rfl, rfl⟩⟩

end Sys2Proof.Machine
end

