-- ==== Sys2Proof/Proofs/Flush.lean ====
section
/-! PROOFS. A flush of an open block, whole (spec/40_nvm_block.md R75, spec/20_memory.md R44, R47). -/

namespace Sys2Proof.Machine

open Sys2Proof

/-! ## ProgramBlock, by its verdict -/

/-- The state once a ProgramBlock has been called and answered. -/
def State.programmed (s : State) (a : Nat) (data : List Byte) (v : Verdict) : State :=
  (s.record (.programBlock a data v)).answered .program data.length

section
variable {s : State} {a : Nat} {data : List Byte}

theorem programBlock_ok (hp : s.env.powerCut = none) (hc : rangeCovered s.cfg a data.length = true)
    (hv : s.env.verdictOf .program = .ok) :
    programBlock a data s = .ok true ((s.programmed a data .ok).setFlash a data) := by
  rw [programBlock, if_pos hc, answeredCall_on hp, hv]
  rfl

/-- R44: on `false` the range holds bytes of the environment's. -/
theorem programBlock_fail (hp : s.env.powerCut = none) (hc : rangeCovered s.cfg a data.length = true)
    (hv : s.env.verdictOf .program = .fail) : programBlock a data s =
      .ok false ((s.programmed a data .fail).setFlash a (s.env.bytesOf .program data.length)) := by
  rw [programBlock, if_pos hc, answeredCall_on hp, hv]
  rfl

/-- R46: so it does when power is lost during the call. -/
theorem programBlock_lost (hp : s.env.powerCut = none) (hc : rangeCovered s.cfg a data.length = true)
    (hv : s.env.verdictOf .program = .powerLoss) : programBlock a data s =
      .ended (powerOff ((s.programmed a data .powerLoss).setFlash a (s.env.bytesOf .program data.length))) := by
  rw [programBlock, if_pos hc, answeredCall_on hp, hv]
  rfl

end

/-! ## A flush -/

/-- A block that may be flushed: its buffer is a write block, and so is the range it programs. -/
structure State.Flushable (s : State) (b : BlockId) : Prop where
  length : (s.block b).buf.length = s.cfg.wbs
  covered : rangeCovered s.cfg (s.block b).base.toNat s.cfg.wbs = true

/-- R27: every open block may be flushed. -/
theorem State.Inv.flushable {s : State} (hinv : s.Inv) {b : BlockId} (hv : (s.block b).valid = true) :
    s.Flushable b := by
  have hmid : Mid (fun _ => True) Driven s s := .refl hinv
  obtain ⟨hal, hcov, -⟩ := hmid.openAt ⟨hv, rfl⟩
  exact ⟨hmid.buf_length b, s.cfg.block_covered hal hcov⟩

/-- The state as a flush comes to its ProgramBlock: Decrypt has left its bytes, if CRYPTO_ENABLED. -/
def State.flushing (s : State) (b : BlockId) : State :=
  { s.setBuf b (s.flushImage b) with env := s.flushEnv, events := s.events ++ s.flushEvents }

theorem State.setBuf_self (s : State) (b : BlockId) : s.setBuf b (s.block b).buf = s := by cases b <;> rfl

@[simp] theorem State.flushEnv_powerCut (s : State) : s.flushEnv.powerCut = s.env.powerCut := by
  rw [State.flushEnv]
  split_ifs
  · exact Env.answered_powerCut ..
  · rfl

section
variable {s : State} {b : BlockId}

theorem State.Flushable.image_length (h : s.Flushable b) : (s.flushImage b).length = s.cfg.wbs := by
  rw [State.flushImage]
  split_ifs
  · exact Env.bytesOf_length ..
  · exact h.length

theorem State.flushing_block (s : State) (b : BlockId) :
    (s.flushing b).block b = { s.block b with buf := s.flushImage b } := by cases b <;> rfl

@[simp] theorem State.flushing_cfg (s : State) (b : BlockId) : (s.flushing b).cfg = s.cfg := by cases b <;> rfl

/-- R75: a flush whose Decrypt does not fail is one ProgramBlock of its image. -/
theorem flushBlock_programs (hp : s.env.powerCut = none)
    (hd : s.cfg.cryptoEnabled = true → s.env.verdictOf .decrypt = .ok) :
    flushBlock b s = programBlock (s.block b).base.toNat (s.flushImage b) (s.flushing b) := by
  cases hc : s.cfg.cryptoEnabled with
  | false =>
    have himage : s.flushImage b = (s.block b).buf := by rw [State.flushImage, hc]; rfl
    have hself : s.flushing b = s := by
      rw [State.flushing, himage, State.setBuf_self, State.flushEnv, State.flushEvents, hc, if_neg Bool.false_ne_true,
        if_neg Bool.false_ne_true, List.append_nil]
    rw [flushBlock_plain hc, himage, hself]
  | true =>
    have hdecrypt := decrypt_on b hp
    rw [hd hc] at hdecrypt
    have hstate : decrypt b s = .ok true (s.flushing b) := by
      refine hdecrypt.trans ?_
      rw [State.flushing, State.flushImage, State.flushEnv, State.flushEvents, hc]
      cases b <;> rfl
    rw [flushBlock_crypto hc, hstate, Res.bind_ok, if_pos rfl, State.flushing_block]

/-- R75: a flush whose Decrypt fails programs nothing. -/
theorem flushBlock_refused (hp : s.env.powerCut = none) (hc : s.cfg.cryptoEnabled = true)
    (hv : s.env.verdictOf .decrypt = .fail) :
    flushBlock b s = .ok false { s.setBuf b (s.flushImage b) with
      env := s.flushEnv, events := s.events ++ [.decrypt s.cfg.wbs .fail] } := by
  have hdecrypt := decrypt_on b hp
  rw [hv] at hdecrypt
  rw [flushBlock_crypto hc, hdecrypt, State.flushImage, State.flushEnv, hc]
  cases b <;> rfl

/-- The state after a flush whose ProgramBlock answered `v` and left the bytes `l`. -/
def State.flushed (s : State) (b : BlockId) (v : Verdict) (l : List Byte) : State :=
  ((s.flushing b).programmed (s.block b).base.toNat (s.flushImage b) v).setFlash (s.block b).base.toNat l

theorem State.Flushable.programs (h : s.Flushable b) :
    rangeCovered (s.flushing b).cfg (s.block b).base.toNat (s.flushImage b).length = true := by
  rw [h.image_length, State.flushing_cfg]
  exact h.covered

theorem State.flushing_powerCut (hp : s.env.powerCut = none) : (s.flushing b).env.powerCut = none :=
  (State.flushEnv_powerCut s).trans hp

/-- R75: a flush that succeeds. -/
theorem flushBlock_ok (h : s.Flushable b) (hp : s.env.powerCut = none)
    (hd : s.cfg.cryptoEnabled = true → s.env.verdictOf .decrypt = .ok) (hv : s.flushEnv.verdictOf .program = .ok) :
    flushBlock b s = .ok true (s.flushed b .ok (s.flushImage b)) := by
  rw [flushBlock_programs hp hd, programBlock_ok (State.flushing_powerCut hp) h.programs hv]
  rfl

/-- The bytes a ProgramBlock leaves that does not succeed (R44, R46). -/
def State.flushJunk (s : State) : List Byte := s.flushEnv.bytesOf .program s.cfg.wbs

@[simp] theorem State.flushJunk_length (s : State) : s.flushJunk.length = s.cfg.wbs := Env.bytesOf_length ..

/-- R75: a flush whose ProgramBlock answers false. -/
theorem flushBlock_fail (h : s.Flushable b) (hp : s.env.powerCut = none)
    (hd : s.cfg.cryptoEnabled = true → s.env.verdictOf .decrypt = .ok) (hv : s.flushEnv.verdictOf .program = .fail) :
    flushBlock b s = .ok false (s.flushed b .fail s.flushJunk) := by
  rw [flushBlock_programs hp hd, programBlock_fail (State.flushing_powerCut hp) h.programs hv, h.image_length]
  rfl

/-- R46: a flush during whose ProgramBlock power is lost. -/
theorem flushBlock_lost (h : s.Flushable b) (hp : s.env.powerCut = none)
    (hd : s.cfg.cryptoEnabled = true → s.env.verdictOf .decrypt = .ok)
    (hv : s.flushEnv.verdictOf .program = .powerLoss) :
    flushBlock b s = .ended (powerOff (s.flushed b .powerLoss s.flushJunk)) := by
  rw [flushBlock_programs hp hd, programBlock_lost (State.flushing_powerCut hp) h.programs hv, h.image_length]
  rfl

/-- While power stays on, a flush meets one of three sequences of verdicts. -/
theorem State.flush_verdicts (hp : s.env.noPowerLoss = true) :
    (s.cfg.cryptoEnabled = true ∧ s.env.verdictOf .decrypt = .fail) ∨
      ((s.cfg.cryptoEnabled = true → s.env.verdictOf .decrypt = .ok) ∧
        (s.flushEnv.verdictOf .program = .fail ∨ s.flushEnv.verdictOf .program = .ok)) := by
  have hon : s.flushEnv.noPowerLoss = true := by
    rw [State.flushEnv]
    split_ifs
    · exact Env.noPowerLoss_answered hp ..
    · exact hp
  have hprogram : s.flushEnv.verdictOf .program = .fail ∨ s.flushEnv.verdictOf .program = .ok := by
    have := Env.verdictOf_ne_powerLoss hon .program
    cases hv : s.flushEnv.verdictOf .program <;> simp_all
  cases hc : s.cfg.cryptoEnabled with
  | false => exact .inr ⟨nofun, hprogram⟩
  | true =>
    cases hv : s.env.verdictOf .decrypt with
    | ok => exact .inr ⟨fun _ => rfl, hprogram⟩
    | fail => exact .inl ⟨rfl, rfl⟩
    | powerLoss => exact absurd hv (Env.verdictOf_ne_powerLoss hp .decrypt)

/-! ## What a flush leaves -/

theorem State.flushed_eq (h : s.Flushable b) (v : Verdict) (l : List Byte) : s.flushed b v l =
    { s.setBuf b (s.flushImage b) with
      flash := (s.setFlash (s.block b).base.toNat l).flash
      env := s.flushEnv.answered .program s.cfg.wbs
      events := s.events ++ s.flushEvents ++ [.programBlock (s.block b).base.toNat (s.flushImage b) v] } := by
  rw [← h.image_length]
  cases b <;> rfl

@[simp] theorem State.flushed_cfg (s : State) (b : BlockId) (v : Verdict) (l : List Byte) :
    (s.flushed b v l).cfg = s.cfg := by cases b <;> rfl

theorem State.flushed_flash (s : State) (b : BlockId) (v : Verdict) (l : List Byte) :
    (s.flushed b v l).flash = (s.setFlash (s.block b).base.toNat l).flash := by cases b <;> rfl

/-- A flush leaves flash outside its block as it was. -/
theorem flushed_outside (s : State) (b : BlockId) {l : List Byte} (hl : l.length = s.cfg.wbs) {x : Nat}
    (hx : x < (s.block b).base.toNat ∨ (s.block b).base.toNat + s.cfg.wbs ≤ x) :
    (s.setFlash (s.block b).base.toNat l).flashByte x = s.flashByte x :=
  flashByte_setFlash_outside (by rwa [hl])

/-- After a flush the block reads what was programmed. -/
theorem flushed_inside (hflash : s.FlashOk) (h : s.Flushable b) {l : List Byte} (hl : l.length = s.cfg.wbs) {i : Nat}
    (hi : i < s.cfg.wbs) :
    (s.setFlash (s.block b).base.toNat l).flashByte ((s.block b).base.toNat + i) = l.getD i 0 :=
  flashByte_setFlash_inside hflash (by rw [hl]; exact rangeCovered_le h.covered) (by rwa [hl])

end

end Sys2Proof.Machine
end

