-- ==== Sys2Proof/Proofs/Done.lean ====
section
/-! PROOFS. NVM_DONE (spec/40_nvm_block.md R89, R90; spec/20_memory.md R43, R44, R46, R47). -/

namespace Sys2Proof.Machine

open Sys2Proof

/-! ## One block -/

section
variable {s : State} {b : BlockId}

theorem commitBlock_invalid (h : (s.block b).valid = false) : commitBlock b s = .ok () s := by
  rw [commitBlock, if_neg (by simp [h])]

/-- R89: an open block is flushed, and is INVALID once flushed. -/
theorem commitBlock_ok (hb : (s.block b).valid = true) (h : s.Flushable b) (hp : s.env.powerCut = none)
    (hd : s.cfg.cryptoEnabled = true → s.env.verdictOf .decrypt = .ok) (hv : s.flushEnv.verdictOf .program = .ok) :
    commitBlock b s = .ok () ((s.flushed b .ok (s.flushImage b)).setValid b false) := by
  rw [commitBlock, if_pos hb, flushBlock_ok h hp hd hv]
  rfl

/-- R129: a refused ProgramBlock ends the command. -/
theorem commitBlock_fail (hb : (s.block b).valid = true) (h : s.Flushable b) (hp : s.env.powerCut = none)
    (hd : s.cfg.cryptoEnabled = true → s.env.verdictOf .decrypt = .ok) (hv : s.flushEnv.verdictOf .program = .fail) :
    commitBlock b s = .ended ((s.flushed b .fail s.flushJunk).setStatus .hwError) := by
  rw [commitBlock, if_pos hb, flushBlock_fail h hp hd hv]
  rfl

/-- R129: so does a refused Decrypt. -/
theorem commitBlock_refused (hb : (s.block b).valid = true) (hp : s.env.powerCut = none)
    (hc : s.cfg.cryptoEnabled = true) (hv : s.env.verdictOf .decrypt = .fail) :
    commitBlock b s = .ended (State.setStatus { s.setBuf b (s.flushImage b) with
      env := s.flushEnv, events := s.events ++ [.decrypt s.cfg.wbs .fail] } .hwError) := by
  rw [commitBlock, if_pos hb, flushBlock_refused hp hc hv]
  rfl

end

/-! ## NVM_DONE of one block, and of two -/

section
variable {s w : State} {b c : BlockId}

/-- R89, R129: where the flush of the generic block ends the command, NVM_DONE ends. -/
theorem exec_nvmDone_genEnded (h : commitBlock .gen s = .ended w) : exec .nvmDone s = .next w := by
  change ((commitBlock .gen s).bind fun _ s => commitBlock .boot s).finish = _
  rw [h]
  rfl

/-- R89: once the generic block is flushed, NVM_DONE goes on with the boot block. -/
theorem exec_nvmDone_both (h : commitBlock .gen s = .ok () w) : exec .nvmDone s = (commitBlock .boot w).finish := by
  change ((commitBlock .gen s).bind fun _ s => commitBlock .boot s).finish = _
  rw [h]
  rfl

/-- R89: with one block open, NVM_DONE ends as its flush does. -/
theorem exec_nvmDone_alone_ended (h : commitBlock b s = .ended w) (hbc : b ≠ c) (hc : (s.block c).valid = false) :
    exec .nvmDone s = .next w := by
  cases b with
  | gen => exact exec_nvmDone_genEnded h
  | boot =>
    cases c with
    | gen => rw [exec_nvmDone_both (commitBlock_invalid hc), h, Res.finish_ended]
    | boot => exact absurd rfl hbc

/-- R89: with one block open, NVM_DONE succeeds as its flush does. -/
theorem exec_nvmDone_alone_ok (h : commitBlock b s = .ok () w) (hbc : b ≠ c) (hc : (s.block c).valid = false)
    (hcw : w.block c = s.block c) : exec .nvmDone s = .next (w.setStatus .ok) := by
  cases b with
  | gen =>
    cases c with
    | gen => exact absurd rfl hbc
    | boot => rw [exec_nvmDone_both h, commitBlock_invalid (by rw [hcw, hc]), Res.finish_ok]
  | boot =>
    cases c with
    | gen => rw [exec_nvmDone_both (commitBlock_invalid hc), h, Res.finish_ok]
    | boot => exact absurd rfl hbc

end

/-- Settles O32: neither block is open. -/
theorem doneWithNothingOpenDoesNothing : Obligations.DoneWithNothingOpenDoesNothing := by
  intro s hgen hboot
  have hnext := exec_nvmDone_both (commitBlock_invalid (b := .gen) hgen)
  rw [commitBlock_invalid (b := .boot) hboot] at hnext
  exact hnext

/-! ## Without the crypto hook -/

section
variable {s : State} (hc : s.cfg.cryptoEnabled = false)
include hc

theorem State.flushEnv_plain : s.flushEnv = s.env := by rw [State.flushEnv, hc]; rfl

theorem State.flushImage_plain (b : BlockId) : s.flushImage b = (s.block b).buf := by rw [State.flushImage, hc]; rfl

/-- Without the crypto hook a flush programs the buffer. -/
theorem State.flushed_plain {b : BlockId} (h : s.Flushable b) (v : Verdict) (l : List Byte) : s.flushed b v l =
    { s with
      flash := (s.setFlash (s.block b).base.toNat l).flash
      env := s.env.answered .program s.cfg.wbs
      events := s.events ++ [.programBlock (s.block b).base.toNat (s.block b).buf v] } := by
  rw [State.flushed_eq h, State.flushImage_plain hc, State.setBuf_self, State.flushEnv_plain hc, State.flushEvents, hc,
    if_neg Bool.false_ne_true, List.append_nil]

/-- A block open without the crypto hook, flushed. -/
theorem commitBlock_plain_ok {b : BlockId} (hb : (s.block b).valid = true) (h : s.Flushable b)
    (hp : s.env.powerCut = none) (hv : s.env.verdictOf .program = .ok) : commitBlock b s = .ok () (State.setValid { s with
      flash := (s.setFlash (s.block b).base.toNat (s.block b).buf).flash
      env := s.env.answered .program s.cfg.wbs
      events := s.events ++ [.programBlock (s.block b).base.toNat (s.block b).buf .ok] } b false) := by
  rw [commitBlock_ok hb h hp (by simp [hc]) (by rwa [State.flushEnv_plain hc]), State.flushed_plain hc h,
    State.flushImage_plain hc]

theorem commitBlock_plain_fail {b : BlockId} (hb : (s.block b).valid = true) (h : s.Flushable b)
    (hp : s.env.powerCut = none) (hv : s.env.verdictOf .program = .fail) : commitBlock b s = .ended (State.setStatus
      { s with
        flash := (s.setFlash (s.block b).base.toNat s.flushJunk).flash
        env := s.env.answered .program s.cfg.wbs
        events := s.events ++ [.programBlock (s.block b).base.toNat (s.block b).buf .fail] } .hwError) := by
  rw [commitBlock_fail hb h hp (by simp [hc]) (by rwa [State.flushEnv_plain hc]), State.flushed_plain hc h]

end

/-- Two write blocks with different bases are apart. -/
theorem aligned_apart {w a b : Nat} (ha : a % w = 0) (hb : b % w = 0) (hne : a ≠ b) : a + w ≤ b ∨ b + w ≤ a := by
  obtain ⟨k, rfl⟩ := Nat.dvd_of_mod_eq_zero ha
  obtain ⟨l, rfl⟩ := Nat.dvd_of_mod_eq_zero hb
  rcases Nat.lt_or_gt_of_ne (fun h : k = l => hne (h ▸ rfl)) with h | h
  · exact .inl (by rw [← Nat.mul_succ]; exact Nat.mul_le_mul_left w h)
  · exact .inr (by rw [← Nat.mul_succ]; exact Nat.mul_le_mul_left w h)

/-- R27 (c): the open generic block lies apart from the boot block. -/
theorem State.Inv.gen_apart {s : State} (hinv : s.Inv) (hg : s.gen.valid = true) :
    s.gen.base.toNat + s.cfg.wbs ≤ s.cfg.bootBase ∨ s.cfg.bootBase + s.cfg.wbs ≤ s.gen.base.toNat := by
  obtain ⟨-, -, ⟨-, hgen⟩, -⟩ := hinv
  obtain ⟨hal, hne, -⟩ := hgen hg
  exact aligned_apart hal s.cfg.bootBase_aligned hne

/-- R27 (b): the open boot block is at BOOT_BASE. -/
theorem State.Inv.boot_base {s : State} (hinv : s.Inv) (hb : s.boot.valid = true) :
    s.boot.base.toNat = s.cfg.bootBase := by
  obtain ⟨-, -, -, ⟨-, hboot⟩, -⟩ := hinv
  exact hboot hb

/-- The state after the generic block alone was programmed, without the crypto hook. -/
def State.genDone (s : State) : State :=
  State.setValid { s with
    flash := (s.setFlash s.gen.base.toNat s.gen.buf).flash
    env := s.env.answered .program s.cfg.wbs
    events := s.events ++ [.programBlock s.gen.base.toNat s.gen.buf .ok] } .gen false

section
variable {s : State}

theorem State.genDone_flash (hinv : s.Inv) (hg : s.gen.valid = true) : s.genDone.FlashOk := by
  have h := State.Inv.flushable hinv (b := .gen) hg
  exact Memory.wf_writeBytes hinv.1 (by rw [show s.gen.buf.length = s.cfg.wbs from h.length]; exact rangeCovered_le h.covered)

theorem State.genDone_flushable (hinv : s.Inv) (hb : s.boot.valid = true) : s.genDone.Flushable .boot :=
  have h := State.Inv.flushable hinv (b := .boot) hb
  ⟨h.length, h.covered⟩

/-- What flash reads in the generic block once both blocks are programmed, whatever the second call left of the boot
block. -/
theorem genDone_inside (hinv : s.Inv) (hg : s.gen.valid = true) (hb : s.boot.valid = true) {l : List Byte}
    (hl : l.length = s.cfg.wbs) {i : Nat} (hi : i < s.cfg.wbs) :
    (s.genDone.setFlash s.cfg.bootBase l).flashByte (s.gen.base.toNat + i) = s.gen.buf.getD i 0 := by
  have h := State.Inv.flushable hinv (b := .gen) hg
  have hbase := State.Inv.boot_base hinv hb
  have hapart := State.Inv.gen_apart hinv hg
  rw [← hbase]
  refine (flushed_outside s.genDone .boot hl ?_).trans (flushed_inside hinv.1 h h.length hi)
  rw [show (s.genDone.block .boot).base.toNat = s.cfg.bootBase from hbase]
  change _ < _ ∨ _ + s.cfg.wbs ≤ _
  omega

/-- What flash reads outside the two blocks. -/
theorem genDone_outside (hinv : s.Inv) (hg : s.gen.valid = true) (hb : s.boot.valid = true) {l : List Byte}
    (hl : l.length = s.cfg.wbs) {x : Nat} (hgen : x < s.gen.base.toNat ∨ s.gen.base.toNat + s.cfg.wbs ≤ x)
    (hboot : x < s.cfg.bootBase ∨ s.cfg.bootBase + s.cfg.wbs ≤ x) :
    (s.genDone.setFlash s.cfg.bootBase l).flashByte x = s.flashByte x := by
  have h := State.Inv.flushable hinv (b := .gen) hg
  rw [← State.Inv.boot_base hinv hb] at hboot ⊢
  exact (flushed_outside s.genDone .boot hl hboot).trans (flushed_outside s .gen h.length hgen)

end

/-- Settles O33: the flushes of the open blocks, each of which succeeds. -/
theorem doneProgramsGenericThenBoot : Obligations.DoneProgramsGenericThenBoot := by
  intro s hinv hp hc
  refine ⟨fun hg hb hverdicts => ?_, fun hg hb hv => ?_, fun hg hb hv => ?_⟩
  · have hgen := State.Inv.flushable hinv (b := .gen) hg
    have hboot := State.Inv.flushable hinv (b := .boot) hb
    have hbase := State.Inv.boot_base hinv hb
    obtain ⟨hv1, hv2⟩ := List.cons_eq_cons.1 hverdicts
    have hsecond := commitBlock_plain_ok (s := s.genDone) (b := .boot) hc hb (State.genDone_flushable hinv hb)
      ((Env.answered_powerCut ..).trans hp) (List.singleton_inj.1 hv2)
    refine ⟨_, (exec_nvmDone_both (commitBlock_plain_ok (b := .gen) hc hg hgen hp hv1)).trans (congrArg Res.finish hsecond), ?_,
      fun i hi => ?_, fun i hi => ?_, fun x hxg hxb => ?_⟩
    · rw [← hbase]
      simp only [State.genDone, State.setValid, State.setBlock, State.block, State.setStatus, List.append_assoc]
      rfl
    · exact (congrArg (fun a => (s.genDone.setFlash a s.boot.buf).flashByte _) hbase).trans
        (genDone_inside hinv hg hb hboot.length hi)
    · rw [← hbase]
      exact flushed_inside (State.genDone_flash hinv hg) (State.genDone_flushable hinv hb) hboot.length hi
    · exact (congrArg (fun a => (s.genDone.setFlash a s.boot.buf).flashByte _) hbase).trans
        (genDone_outside hinv hg hb hboot.length hxg hxb)
  · have hgen := State.Inv.flushable hinv (b := .gen) hg
    have hcommit := commitBlock_plain_ok (b := .gen) hc hg hgen hp hv
    exact ⟨_, exec_nvmDone_alone_ok (c := .boot) hcommit nofun hb rfl, rfl,
      fun i hi => flushed_inside hinv.1 hgen hgen.length hi, fun x hx => flushed_outside s .gen hgen.length hx⟩
  · have hboot := State.Inv.flushable hinv (b := .boot) hb
    rw [← State.Inv.boot_base hinv hb]
    have hcommit := commitBlock_plain_ok (b := .boot) hc hb hboot hp hv
    exact ⟨_, exec_nvmDone_alone_ok (c := .gen) hcommit nofun hg rfl, rfl,
      fun i hi => flushed_inside hinv.1 hboot hboot.length hi, fun x hx => flushed_outside s .boot hboot.length hx⟩

/-- Settles O34: the first flush that fails ends the command. -/
theorem doneStopsWhenTheGenericFlushFails : Obligations.DoneStopsWhenTheGenericFlushFails := by
  intro s hinv hp hc
  refine ⟨fun hg hv => ?_, fun hg hb hverdicts => ?_, fun hg hb hv => ?_⟩
  · have hgen := State.Inv.flushable hinv (b := .gen) hg
    exact ⟨_, exec_nvmDone_genEnded (commitBlock_plain_fail (b := .gen) hc hg hgen hp hv), rfl,
      fun x hx => flushed_outside s .gen (State.flushJunk_length s) hx⟩
  · have hgen := State.Inv.flushable hinv (b := .gen) hg
    have hbase := State.Inv.boot_base hinv hb
    obtain ⟨hv1, hv2⟩ := List.cons_eq_cons.1 hverdicts
    have hsecond := commitBlock_plain_fail (s := s.genDone) (b := .boot) hc hb (State.genDone_flushable hinv hb)
      ((Env.answered_powerCut ..).trans hp) (List.singleton_inj.1 hv2)
    refine ⟨_, (exec_nvmDone_both (commitBlock_plain_ok (b := .gen) hc hg hgen hp hv1)).trans (congrArg Res.finish hsecond), ?_,
      fun i hi => ?_, fun x hxg hxb => ?_⟩
    · rw [← hbase]
      simp only [State.genDone, State.setValid, State.setBlock, State.block, State.setStatus, List.append_assoc]
      rfl
    · exact (congrArg (fun a => (s.genDone.setFlash a s.genDone.flushJunk).flashByte _) hbase).trans
        (genDone_inside hinv hg hb (State.flushJunk_length s.genDone) hi)
    · exact (congrArg (fun a => (s.genDone.setFlash a s.genDone.flushJunk).flashByte _) hbase).trans
        (genDone_outside hinv hg hb (State.flushJunk_length s.genDone) hxg hxb)
  · have hboot := State.Inv.flushable hinv (b := .boot) hb
    rw [← State.Inv.boot_base hinv hb]
    have hcommit := commitBlock_plain_fail (b := .boot) hc hb hboot hp hv
    exact ⟨_, exec_nvmDone_alone_ended (c := .gen) hcommit nofun hg, rfl,
      fun x hx => flushed_outside s .boot (State.flushJunk_length s) hx⟩

end Sys2Proof.Machine
end

