-- ==== Sys2Proof/Proofs/DoneHook.lean ====
section
/-! PROOFS. NVM_DONE with the crypto hook, and power lost in NVM_DONE (spec/40_nvm_block.md R75, R89, R90;
spec/20_memory.md R46, R47; log 12). -/

namespace Sys2Proof.Machine

open Sys2Proof

/-! ## With the crypto hook -/

section
variable {s : State} {b : BlockId}

/-- With the crypto hook a flush programs what Decrypt left. -/
theorem State.flushed_crypto (hc : s.cfg.cryptoEnabled = true) (h : s.Flushable b) (v : Verdict) (l : List Byte) :
    s.flushed b v l = { s.setBuf b (s.flushImage b) with
      flash := (s.setFlash (s.block b).base.toNat l).flash
      env := s.flushEnv.answered .program s.cfg.wbs
      events := s.events ++
        [.decrypt s.cfg.wbs .ok, .programBlock (s.block b).base.toNat (s.flushImage b) v] } := by
  rw [State.flushed_eq h, State.flushEvents, if_pos hc, List.append_assoc]
  rfl

/-- STATUS is no part of what a flush does, and the end of the command writes it. -/
theorem commitBlock_setStatus (hb : (s.block b).valid = true) (h : s.Flushable b) (hon : s.env.noPowerLoss = true)
    (c : StatusCode) : (commitBlock b (s.setStatus c)).finish = (commitBlock b s).finish := by
  have hp := Env.noPowerLoss_cut hon
  have hb' : ((s.setStatus c).block b).valid = true := by cases b <;> exact hb
  have h' : (s.setStatus c).Flushable b := by cases b <;> exact ⟨h.length, h.covered⟩
  obtain ⟨hc, hv⟩ | ⟨hd, hv | hv⟩ := State.flush_verdicts hon
  · rw [commitBlock_refused hb hp hc hv, commitBlock_refused hb' hp hc hv]
    cases b <;> rfl
  · rw [commitBlock_fail hb h hp hd hv, commitBlock_fail hb' h' hp hd hv]
    cases b <;> rfl
  · rw [commitBlock_ok hb h hp hd hv, commitBlock_ok hb' h' hp hd hv]
    cases b <;> rfl

end

/-- With both blocks open, NVM_DONE goes on to the boot block from where the generic block alone leaves it. -/
theorem exec_nvmDone_genFirst {s : State} (hinv : s.Inv) (hg : s.gen.valid = true) (hb : s.boot.valid = true)
    (hon : s.env.noPowerLoss = true) : ∃ u, exec .nvmDone (s.setValid .boot false) = .next u ∧
      (u.host.status = 2 → exec .nvmDone s = .next { u with boot := s.boot }) ∧
      (u.host.status ≠ 2 → exec .nvmDone s = exec .nvmDone { u with boot := s.boot }) := by
  have hp := Env.noPowerLoss_cut hon
  have hgen := State.Inv.flushable hinv (b := .gen) hg
  have hboot := State.Inv.flushable hinv (b := .boot) hb
  have hgen' : (s.setValid .boot false).Flushable .gen := ⟨hgen.length, hgen.covered⟩
  obtain ⟨hc, hv⟩ | ⟨hd, hv | hv⟩ := State.flush_verdicts hon
  · exact ⟨_, exec_nvmDone_genEnded (commitBlock_refused (s := s.setValid .boot false) (b := .gen) hg hp hc hv),
      fun _ => exec_nvmDone_genEnded (commitBlock_refused (b := .gen) hg hp hc hv), fun hne => absurd rfl hne⟩
  · exact ⟨_, exec_nvmDone_genEnded (commitBlock_fail (b := .gen) hg hgen' hp hd hv),
      fun _ => exec_nvmDone_genEnded (commitBlock_fail (b := .gen) hg hgen hp hd hv), fun hne => absurd rfl hne⟩
  · have hcommit := commitBlock_ok (b := .gen) hg hgen hp hd hv
    set w := (s.flushed .gen .ok (s.flushImage .gen)).setValid .gen false with hw
    have hwon : w.env.noPowerLoss = true := by
      refine Env.noPowerLoss_answered ?_ _ _
      change s.flushEnv.noPowerLoss = true
      rw [State.flushEnv]
      split_ifs
      · exact Env.noPowerLoss_answered hon ..
      · exact hon
    have hwboot : w.Flushable .boot := ⟨hboot.length, hboot.covered⟩
    have hresume : exec .nvmDone (w.setStatus .ok) = (commitBlock .boot (w.setStatus .ok)).finish :=
      exec_nvmDone_both (commitBlock_invalid rfl)
    refine ⟨_, exec_nvmDone_alone_ok (c := .boot) (commitBlock_ok (b := .gen) hg hgen' hp hd hv) nofun rfl rfl,
      fun h => absurd (show (0 : BitVec 8) = 2 from h) (by decide), fun _ => ?_⟩
    rw [exec_nvmDone_both hcommit]
    exact (hresume.trans (commitBlock_setStatus (s := w) (b := .boot) hb hwboot hwon .ok)).symm

/-- Settles O35: the three ways of a flush with the hook, for each block alone, and both in turn. -/
theorem doneDecryptsBeforeItPrograms : Obligations.DoneDecryptsBeforeItPrograms := by
  intro s hinv hp hc
  refine ⟨fun b c hbc hb hcv => ?_, exec_nvmDone_genFirst hinv⟩
  have h := State.Inv.flushable hinv hb
  refine ⟨fun hv => ?_, fun hd hv => ?_, fun hd hv => ?_⟩
  · rw [exec_nvmDone_alone_ended (commitBlock_refused hb hp hc hv) hbc hcv]
    cases b <;> rfl
  · have hcommit := commitBlock_fail hb h hp (fun _ => hd) hv
    rw [State.flushed_crypto hc h] at hcommit
    refine ⟨_, exec_nvmDone_alone_ended hcommit hbc hcv, ?_, fun x hx => ?_⟩
    · cases b <;> rfl
    · refine Eq.trans ?_ (flushed_outside s b (State.flushJunk_length s) hx)
      cases b <;> rfl
  · have hcommit := commitBlock_ok hb h hp (fun _ => hd) hv
    rw [State.flushed_crypto hc h] at hcommit
    have hother : (State.setValid { s.setBuf b (s.flushImage b) with
        flash := (s.setFlash (s.block b).base.toNat (s.flushImage b)).flash
        env := s.flushEnv.answered .program s.cfg.wbs
        events := s.events ++
          [.decrypt s.cfg.wbs .ok, .programBlock (s.block b).base.toNat (s.flushImage b) .ok] } b false).block c =
        s.block c := by
      cases b with
      | gen =>
        cases c with
        | gen => exact absurd rfl hbc
        | boot => rfl
      | boot =>
        cases c with
        | gen => rfl
        | boot => exact absurd rfl hbc
    refine ⟨_, exec_nvmDone_alone_ok hcommit hbc hcv hother, ?_, fun i hi => ?_, fun x hx => ?_⟩
    · cases b <;> rfl
    · refine Eq.trans ?_ (flushed_inside hinv.1 h h.image_length hi)
      cases b <;> rfl
    · refine Eq.trans ?_ (flushed_outside s b h.image_length hx)
      cases b <;> rfl

/-! ## Power lost in NVM_DONE -/

/-- A ProgramBlock before which power is lost is not called. -/
theorem programBlock_cut {s : State} {a : Nat} {data : List Byte} (hc : rangeCovered s.cfg a data.length = true)
    (hp : s.env.powerCut = some 0) : programBlock a data s = .ended (powerOff s) := by
  rw [programBlock, if_pos hc, answeredCall_cut hp]
  rfl

/-- A ProgramBlock that succeeds, with power lost before the next call. -/
theorem programBlock_counts {s : State} {a : Nat} {data : List Byte} (hc : rangeCovered s.cfg a data.length = true)
    (hp : s.env.powerCut = some 1) (hv : s.env.verdictOf .program = .ok) :
    programBlock a data s = .ok true (((s.programmed a data .ok).withCut 0).setFlash a data) := by
  rw [programBlock, if_pos hc, answeredCall_counts hp, hv]
  rfl

/-- The boot block lies outside the open generic block. -/
theorem State.Inv.boot_outside {s : State} (hinv : s.Inv) (hg : s.gen.valid = true) {x : Nat}
    (h1 : s.cfg.bootBase ≤ x) (h2 : x < s.cfg.bootBase + s.cfg.wbs) :
    x < s.gen.base.toNat ∨ s.gen.base.toNat + s.cfg.wbs ≤ x := by
  have := State.Inv.gen_apart hinv hg
  omega

/-- The state after the generic block was programmed, with power lost before the next call. -/
def State.genDoneCut (s : State) : State :=
  { s with
    gen := { s.gen with valid := false }
    flash := (s.setFlash s.gen.base.toNat s.gen.buf).flash
    env := { s.env.answered .program s.gen.buf.length with powerCut := some 0 }
    events := s.events ++ [.programBlock s.gen.base.toNat s.gen.buf .ok] }

/-- Settles O36: power lost in the generic block's flush, before it, and after it. -/
theorem powerLossInDoneLeavesTheBootBlock : Obligations.PowerLossInDoneLeavesTheBootBlock := by
  intro s hinv hg hc
  have hgen := State.Inv.flushable hinv (b := .gen) hg
  have hcov : rangeCovered s.cfg s.gen.base.toNat s.gen.buf.length = true := by
    rw [show s.gen.buf.length = s.cfg.wbs from hgen.length]
    exact hgen.covered
  have hcommit : commitBlock .gen s = (programBlock s.gen.base.toNat s.gen.buf s).bind fun ok s =>
      if ok then .ok () (s.setValid .gen false) else raise .hwError s := by
    rw [commitBlock, if_pos (show (s.block .gen).valid = true from hg), flushBlock_plain hc]
    rfl
  refine ⟨fun hp hv => ?_, fun hp => ?_, fun hp hb hv => ?_⟩
  · rw [programBlock_lost hp hcov hv] at hcommit
    have hout : ∀ x, (x < s.gen.base.toNat ∨ s.gen.base.toNat + s.cfg.wbs ≤ x) → _ = s.flashByte x := fun x hx =>
      flushed_outside s .gen (l := s.env.bytesOf .program s.gen.buf.length)
        ((Env.bytesOf_length ..).trans hgen.length) hx
    exact ⟨_, exec_nvmDone_genEnded hcommit, rfl, rfl, rfl, hout,
      fun x h1 h2 => hout x (State.Inv.boot_outside hinv hg h1 h2)⟩
  · rw [programBlock_cut hcov hp] at hcommit
    exact ⟨_, exec_nvmDone_genEnded hcommit, rfl, rfl, rfl, rfl, rfl⟩
  · rw [programBlock_counts hcov hp hv, Res.bind_ok, if_pos rfl] at hcommit
    have hstate : State.setValid (((s.programmed s.gen.base.toNat s.gen.buf .ok).withCut 0).setFlash s.gen.base.toNat
        s.gen.buf) .gen false = s.genDoneCut := by
      simp only [State.programmed, State.withCut, State.record, State.answered, State.setFlash, State.setValid,
        State.setBlock, State.block, State.genDoneCut]
    rw [hstate] at hcommit
    set w := s.genDoneCut with hw
    have hboot := State.Inv.flushable hinv (b := .boot) hb
    have hlost : commitBlock .boot w = .ended (powerOff w) := by
      have hcov' : rangeCovered w.cfg w.boot.base.toNat w.boot.buf.length = true := by
        rw [show w.boot.buf.length = s.cfg.wbs from hboot.length]
        exact hboot.covered
      rw [commitBlock, if_pos (show (w.block .boot).valid = true from hb), flushBlock_plain (by exact hc)]
      exact congrArg (Res.bind · _) (programBlock_cut hcov' rfl)
    have hflash : (powerOff w).flashByte = (s.setFlash s.gen.base.toNat s.gen.buf).flashByte := rfl
    have hin : ∀ i, i < s.cfg.wbs → (powerOff w).flashByte (s.gen.base.toNat + i) = s.gen.buf.getD i 0 := fun i hi =>
      (congrFun hflash _).trans (flushed_inside (b := .gen) hinv.1 hgen hgen.length hi)
    have hout : ∀ x, (x < s.gen.base.toNat ∨ s.gen.base.toNat + s.cfg.wbs ≤ x) →
        (powerOff w).flashByte x = s.flashByte x := fun x hx =>
      (congrFun hflash x).trans (flushed_outside s .gen (l := s.gen.buf) hgen.length hx)
    refine ⟨powerOff w, ?_, rfl, rfl, rfl, ?_, hin, hout, fun x h1 h2 =>
      hout x (State.Inv.boot_outside hinv hg h1 h2)⟩
    · rw [exec_nvmDone_both hcommit, hlost, Res.finish_ended]
    · exact List.append_assoc _ _ _

end Sys2Proof.Machine
end

