-- ==== Sys2Proof/Proofs/Erase.lean ====
section
/-! PROOFS. NVM_ERASE (spec/40_nvm_block.md R82, R83; spec/20_memory.md R45). -/

namespace Sys2Proof.Machine

open Sys2Proof

/-! ## The erase loop over the touched sectors -/

/-- Erase the sectors of a list in turn, up to the first that fails (R82). -/
def eraseSectors : List Sector → State → Res Unit
  | [], s => .ok () s
  | e :: es, s => (eraseSector e s).bind fun ok s => if ok then eraseSectors es s else raise .hwError s

/-- R82: the loop over the table erases the entries that intersect the range. -/
theorem eraseLoop_eq (a n : Nat) (es : List Sector) (s : State) :
    eraseLoop a n es s = eraseSectors (es.filter fun e => intersects e a n) s := by
  induction es generalizing s with
  | nil => rfl
  | cons e es ih =>
    rw [eraseLoop, List.filter_cons]
    split_ifs
    · simp only [ih, eraseSectors]
    · exact ih s

/-- R82 with the operands in range. -/
theorem exec_nvmErase_inRange {s : State} {a n : Nat} (h : s.hasRange a n) (hn : n ≠ 0) (hle : a + n ≤ 2 ^ 32)
    (hfirst : covered s.cfg a = true) (hlast : covered s.cfg (a + n - 1) = true) :
    exec .nvmErase s = (eraseSectors (s.cfg.sectorTable.filter fun e => intersects e a n) s).finish := by
  obtain ⟨haddr, ha, hlen, hlen'⟩ := h
  change execNvmErase s = _
  rw [execNvmErase, readArgAddr_written haddr, Res.bind_ok, readArgLen_written hlen, Res.bind_ok, ha, hlen',
    if_pos (eraseRangeOk_iff.2 ⟨hn, hle, hfirst, hlast⟩), eraseLoop_eq]

/-- The state after the sectors `es` were erased. -/
def State.erased (s : State) (es : List Sector) : State :=
  { s with
    flash := es.foldl (fun m e => m.erase e.start e.size) s.flash
    env := s.env.afterCalls .erase (es.map Sector.size)
    events := s.events ++ es.map fun e => .eraseSector e.sectorId e.bankId .ok }

theorem State.erased_nil (s : State) : s.erased [] = s := by
  simp only [State.erased, List.map_nil, List.append_nil]
  rfl

/-- R45: an erase call that answers true. -/
theorem eraseSector_ok {e : Sector} {s : State} (hp : s.env.powerCut = none) (hv : s.env.verdictOf .erase = .ok) :
    eraseSector e s = .ok true (s.erased [e]) := by
  rw [eraseSector, answeredCall_on hp, hv]
  rfl

/-- R45: an erase call that answers false leaves bytes of the environment's in its sector. -/
theorem eraseSector_fail {e : Sector} {s : State} (hp : s.env.powerCut = none) (hv : s.env.verdictOf .erase = .fail) :
    eraseSector e s = .ok false (State.setFlash
      { s with
        env := s.env.afterCalls .erase [e.size], events := s.events ++ [.eraseSector e.sectorId e.bankId .fail] }
      e.start (s.env.bytesOf .erase e.size)) := by
  rw [eraseSector, answeredCall_on hp, hv]
  rfl

theorem State.erased_cons (s : State) (e : Sector) (es : List Sector) :
    (s.erased [e]).erased es = s.erased (e :: es) := by
  simp only [State.erased, List.append_assoc]
  rfl

/-- R82: the loop goes on past sectors that are erased. -/
theorem eraseSectors_erased (es fs : List Sector) {s : State} (hp : s.env.powerCut = none)
    (h : s.env.verdictsOf .erase (es.map Sector.size) = es.map fun _ => .ok) :
    eraseSectors (es ++ fs) s = eraseSectors fs (s.erased es) := by
  induction es generalizing s with
  | nil => rw [State.erased_nil, List.nil_append]
  | cons e es ih =>
    obtain ⟨he, hes⟩ := List.cons_eq_cons.1 h
    rw [List.cons_append, eraseSectors, eraseSector_ok hp he, Res.bind_ok, if_pos rfl,
      ih ((Env.afterCalls_powerCut ..).trans hp) hes, State.erased_cons]

/-! ## What flash reads -/

/-- A byte of an erased sector reads ERASED_BYTE, whatever else was erased. -/
theorem erased_inside {s : State} {es : List Sector} {x : Nat} (h : ∃ e ∈ es, e.start ≤ x ∧ x < e.start + e.size) :
    (s.erased es).flashByte x = s.cfg.erasedByte := by
  have hkeeps : ∀ (es : List Sector) (m : Memory), m.read s.cfg.erasedByte x = s.cfg.erasedByte →
      (es.foldl (fun m e => m.erase e.start e.size) m).read s.cfg.erasedByte x = s.cfg.erasedByte := by
    intro es
    induction es with
    | nil => exact fun m hm => hm
    | cons f es ih =>
      refine fun m hm => ih _ ?_
      by_cases hx : f.start ≤ x ∧ x < f.start + f.size
      · exact Memory.read_erase_inside hx
      · exact (Memory.read_erase_outside (by omega)).trans hm
  obtain ⟨e, he, hx⟩ := h
  obtain ⟨before, after, rfl⟩ := List.append_of_mem he
  change Memory.read s.cfg.erasedByte ((before ++ e :: after).foldl _ s.flash) x = _
  rw [List.foldl_append, List.foldl_cons]
  exact hkeeps after _ (Memory.read_erase_inside hx)

/-- A byte of no erased sector is as it was. -/
theorem erased_outside {s : State} {es : List Sector} {x : Nat}
    (h : ∀ e ∈ es, ¬(e.start ≤ x ∧ x < e.start + e.size)) : (s.erased es).flashByte x = s.flashByte x := by
  change Memory.read s.cfg.erasedByte (es.foldl _ s.flash) x = Memory.read s.cfg.erasedByte s.flash x
  generalize s.flash = m
  induction es generalizing m with
  | nil => rfl
  | cons e es ih =>
    obtain ⟨he, hes⟩ := List.forall_mem_cons.1 h
    exact (ih hes _).trans (Memory.read_erase_outside (by omega))

/-- Settles O28: every erase call answers true. -/
theorem eraseErasesEveryTouchedSector : Obligations.EraseErasesEveryTouchedSector := by
  intro s a n hinv hp hrange hn hle hfirst hlast es hverdicts
  have hloop := eraseSectors_erased es [] hp hverdicts
  rw [List.append_nil] at hloop
  refine ⟨(s.erased es).setStatus .ok, ?_, rfl, fun x hx => erased_inside (s := s) hx,
    fun x hx => erased_outside (s := s) hx⟩
  rw [exec_nvmErase_inRange hrange hn hle hfirst hlast, hloop]
  rfl

/-! ## The first failure -/

/-- R13 invariant 3: no byte lies in two entries of a disjoint table. -/
theorem disjointAll_pairwise {es : List Sector} (h : Params.disjointAll es = true) :
    es.Pairwise fun e f => ∀ x, (e.start ≤ x ∧ x < e.start + e.size) → ¬(f.start ≤ x ∧ x < f.start + f.size) := by
  induction es with
  | nil => exact .nil
  | cons e es ih =>
    simp only [Params.disjointAll, Bool.and_eq_true, List.all_eq_true] at h
    refine List.pairwise_cons.2 ⟨fun f hf x he hx => ?_, ih h.2⟩
    have hapart := h.1 f hf
    simp only [Params.overlap, Bool.not_eq_true', Bool.and_eq_false_iff, decide_eq_false_iff_not] at hapart
    omega

/-- Settles O29: the sectors before the first refused one are erased, and its call ends the command. -/
theorem eraseStopsAtTheFirstFailure : Obligations.EraseStopsAtTheFirstFailure := by
  intro s a n es fs e hinv hp hrange hn hle hfirst hlast htable hverdicts
  have hdisjoint : (es ++ e :: fs).Pairwise fun e f =>
      ∀ x, (e.start ≤ x ∧ x < e.start + e.size) → ¬(f.start ≤ x ∧ x < f.start + f.size) := by
    rw [← htable]
    exact (disjointAll_pairwise s.cfg.checks.2.2.1).filter _
  have hapart := (List.pairwise_append.1 hdisjoint).2.2
  rw [List.map_append, Env.verdictsOf_append] at hverdicts
  obtain ⟨hes, he⟩ := List.append_inj hverdicts (by simp)
  have hjunk : ((s.erased es).env.bytesOf .erase e.size).length = e.size := Env.bytesOf_length ..
  have hend := eraseSector_fail (e := e) (s := s.erased es) ((Env.afterCalls_powerCut ..).trans hp)
    (List.singleton_inj.1 he)
  have hout : ∀ x, ¬(e.start ≤ x ∧ x < e.start + e.size) →
      ((s.erased es).setFlash e.start ((s.erased es).env.bytesOf .erase e.size)).flashByte x =
        (s.erased es).flashByte x := fun x hx => flashByte_setFlash_outside (by omega)
  have hexec := exec_nvmErase_inRange hrange hn hle hfirst hlast
  rw [htable, eraseSectors_erased es _ hp hes, eraseSectors, hend, Res.bind_ok, if_neg Bool.false_ne_true] at hexec
  refine ⟨_, hexec, ?_, fun x hx => (hout x ?_).trans (erased_inside hx), fun x hx => (hout x ?_).trans
    (erased_outside fun f hf => hx f (List.mem_append_left _ hf))⟩
  · rw [List.map_append, Env.afterCalls_append]
    rfl
  · obtain ⟨f, hf, hfx⟩ := hx
    exact hapart f hf e List.mem_cons_self x hfx
  · exact hx e (List.mem_append_right _ List.mem_cons_self)

end Sys2Proof.Machine
end

