-- ==== Sys2Proof/Proofs/Write.lean ====
section
/-! PROOFS. NVM_WRITE inside one write block: into the open block, into a block still to open, and into another block
than the open one (spec/40_nvm_block.md R74 to R77, R80, R81). -/

namespace Sys2Proof.Machine

open Sys2Proof

/-! ## Splicing -/

theorem splice_nil (buf : List Byte) (off : Nat) : splice buf off [] = buf := by simp [splice]

/-- Writing one byte and then the rest. -/
theorem splice_set {buf : List Byte} {off : Nat} (d : Byte) (ds : List Byte) (h : off < buf.length) :
    splice (buf.set off d) (off + 1) ds = splice buf off (d :: ds) := by
  simp only [splice]
  rw [take_succ_set d h, List.drop_set_of_lt (by omega), List.length_cons, List.append_assoc (buf.take off),
    List.singleton_append, show off + 1 + ds.length = off + (ds.length + 1) by omega]

/-! ## Blocks -/

theorem State.setBuf_setBuf (s : State) (b : BlockId) (l l' : List Byte) :
    (s.setBuf b l).setBuf b l' = s.setBuf b l' := by cases b <;> rfl

/-- R77: a run of bytes that fits the block is copied into its buffer. -/
theorem copyBytes_inside {b : BlockId} {cb off : Nat} {ds : List Byte} {s : State} (hfit : off + ds.length ≤ s.cfg.wbs)
    (hlen : (s.block b).buf.length = s.cfg.wbs) :
    copyBytes b cb off ds s = .ok () (s.setBuf b (splice (s.block b).buf off ds)) := by
  induction ds generalizing off s with
  | nil => rw [splice_nil, State.setBuf_self, copyBytes]
  | cons d ds ih =>
    rw [List.length_cons] at hfit
    have hblock : (s.setBufByte b off d).block b = { s.block b with buf := (s.block b).buf.set off d } :=
      State.setBuf_block ..
    rw [copyBytes, if_neg (by omega), ih (by rw [State.setBufByte_cfg]; omega)
      (by rw [hblock, State.setBufByte_cfg]; exact (List.length_set ..).trans hlen), hblock, State.setBufByte,
      State.setBuf_setBuf, splice_set d ds (by omega)]

/-- The block that a write at block base `cb` goes to (R80). -/
def routeOf (c : Config) (cb : Nat) : BlockId := if cb = c.bootBase then .boot else .gen

theorem routeOf_boot_iff {c : Config} {cb : Nat} : routeOf c cb = .boot ↔ cb = c.bootBase := by
  rw [routeOf]
  split_ifs with h <;> simp [h]

theorem routeOf_eq {c : Config} {b : BlockId} {cb : Nat} (h : b = .boot ↔ cb = c.bootBase) : routeOf c cb = b := by
  rw [routeOf]
  split_ifs with hcb
  · exact (h.2 hcb).symm
  · cases b with
    | gen => rfl
    | boot => exact absurd (h.1 rfl) hcb

/-- R77: the copy from the block that was entered, or the end of the command. -/
def copyEntered (a : Nat) (data : List Byte) : Option BlockId → State → Res Unit
  | none, t => raise .hwError t
  | some b, t => copyBytes b (blockBase t.cfg a) (a - blockBase t.cfg a) data t

/-- R80: routing and the start of the copy, in one. -/
theorem routeWrite_eq (a : Nat) (data : List Byte) (s : State) : routeWrite a data s =
    (enterBlock (routeOf s.cfg (blockBase s.cfg a)) (blockBase s.cfg a) s).bind (copyEntered a data) := by
  have hcopy : ∀ b, addToBlock b a data s = (enterBlock b (blockBase s.cfg a) s).bind (copyEntered a data) := by
    intro b
    refine congrArg (Res.bind _) ?_
    funext r t
    cases r <;> rfl
  rw [routeWrite, routeOf]
  split_ifs
  · exact hcopy .boot
  · exact hcopy .gen

/-- R80 with written operands in range. -/
theorem exec_nvmWrite_inRange {s : State} {a n : Nat} (hrange : s.hasRange a n) (hpacket : s.hasPacket n)
    (hn : n ≤ s.cfg.dbufSize) (hcov : rangeCovered s.cfg a n = true) :
    exec .nvmWrite s = (routeWrite a (s.host.dbuf.take n) s).finish := by
  obtain ⟨haddr, ha, hlen, hlen'⟩ := hrange
  obtain ⟨-, -, hdata⟩ := hpacket
  change execNvmWrite s = _
  rw [execNvmWrite, readArgLen_written hlen, Res.bind_ok, hlen', if_pos (dataLenOk_iff.2 hn), readArgAddr_written haddr,
    Res.bind_ok, ha, writeBody, if_pos (writeRangeOk_iff.2 ⟨hn, hcov⟩), readData_written hdata, Res.bind_ok]

/-- DBUF holds the bytes that NVM_WRITE takes of it. -/
theorem State.Inv.data_length {s : State} (hinv : s.Inv) {n : Nat} (hn : n ≤ s.cfg.dbufSize) :
    (s.host.dbuf.take n).length = n := by
  obtain ⟨-, ⟨hdbuf, -⟩, -⟩ := hinv
  exact List.length_take_of_le (by omega)

theorem blockBase_offset (c : Config) (a : Nat) : a - blockBase c a = a % c.wbs := by
  have := Nat.mod_le a c.wbs
  rw [blockBase]
  omega

/-- The base of the block of a covered address (R13 invariant 4). -/
theorem rangeCovered_base {c : Config} {a n : Nat} (h : rangeCovered c a n = true) :
    covered c (blockBase c a) = true ∧ blockBase c a % c.wbs = 0 ∧ rangeCovered c (blockBase c a) c.wbs = true ∧
      (BitVec.ofNat 32 (blockBase c a)).toNat = blockBase c a := by
  obtain ⟨hpos, -, hall⟩ := rangeCovered_iff.1 h
  obtain ⟨hcov, hal, -, -⟩ := c.blockBase_covered (hall a le_rfl (by omega))
  have hwhole := c.block_covered hal hcov
  have hle := rangeCovered_le hwhole
  have hw := c.wbs_pos
  rw [Params.addrSpace] at hle
  exact ⟨hcov, hal, hwhole, by rw [BitVec.toNat_ofNat]; omega⟩

/-- R77: a write inside one block, once that block has been entered. -/
theorem routeWrite_inside {s t : State} {a : Nat} {data : List Byte} {b c : BlockId}
    (hroute : routeOf s.cfg (blockBase s.cfg a) = c) (henter : enterBlock c (blockBase s.cfg a) s = .ok (some b) t)
    (hcfg : t.cfg = s.cfg) (hfit : a % s.cfg.wbs + data.length ≤ s.cfg.wbs)
    (hlen : (t.block b).buf.length = s.cfg.wbs) :
    routeWrite a data s = .ok () (t.setBuf b (splice (t.block b).buf (a % s.cfg.wbs) data)) := by
  rw [routeWrite_eq, hroute, henter, Res.bind_ok, copyEntered, blockBase_offset, ← hcfg]
  rw [← hcfg] at hfit hlen
  exact copyBytes_inside hfit hlen

/-- R77: a block open at the base of the write is entered as it stands. -/
theorem enterBlock_open {s : State} {b : BlockId} {cb : Nat} (hv : (s.block b).valid = true)
    (hb : (s.block b).base.toNat = cb) : enterBlock b cb s = .ok (some b) s := by
  rw [enterBlock, if_pos hv, if_pos hb]

/-- R74, R77: an INVALID block is opened by one FlashRead. -/
theorem enterBlock_invalid {s : State} {b : BlockId} {cb : Nat} (hp : s.env.powerCut = none)
    (hv : (s.block b).valid = false) (hc : rangeCovered s.cfg cb s.cfg.wbs = true) :
    enterBlock b cb s = .ok (some b) ((s.record (.flashRead cb s.cfg.wbs)).setBlock b
      { valid := true, base := BitVec.ofNat 32 cb, buf := s.flashBytes cb s.cfg.wbs }) := by
  rw [enterBlock, if_neg (by simp [hv]), openBlock_read hp (.inl hv) hc]
  rfl

/-- Settles O21: the block is entered as it stands, and the copy stays inside. -/
theorem writeIntoOpenBlockStaysInRam : Obligations.WriteIntoOpenBlockStaysInRam := by
  intro s b a n hinv hrange hpacket h1 hn hcov hfit hv hbase
  have hmid : Mid (fun _ => True) Driven s s := .refl hinv
  have hroute : routeOf s.cfg (blockBase s.cfg a) = b := by
    obtain ⟨-, -, hboot⟩ := hmid.openAt ⟨hv, hbase⟩
    exact routeOf_eq hboot
  have henter := enterBlock_open hv hbase
  rw [exec_nvmWrite_inRange hrange hpacket hn hcov,
    routeWrite_inside hroute henter rfl (by rwa [State.Inv.data_length hinv hn]) (hmid.buf_length b)]
  rfl

/-- Settles O22: the block is opened by one FlashRead, and the copy stays inside. -/
theorem firstWriteOpensTheBlockFromFlash : Obligations.FirstWriteOpensTheBlockFromFlash := by
  intro s b a n base hinv hp hrange hpacket h1 hn hcov hfit hbase hb hv
  obtain ⟨-, -, hwhole, -⟩ := rangeCovered_base hcov
  have hroute : routeOf s.cfg (blockBase s.cfg a) = b := by
    rw [hb, hbase]
    rfl
  have henter := enterBlock_invalid hp hv hwhole
  rw [exec_nvmWrite_inRange hrange hpacket hn hcov, hbase,
    routeWrite_inside hroute henter (by simp) (by rwa [State.Inv.data_length hinv hn])
      (by cases b <;> exact flashBytes_length ..)]
  cases b <;> rfl

/-! ## Another block than the open generic one -/

/-- A run of flash bytes that read the same. -/
theorem flashBytes_congr {s t : State} {a n : Nat} (h : ∀ i, i < n → t.flashByte (a + i) = s.flashByte (a + i)) :
    t.flashBytes a n = s.flashBytes a n := by
  refine List.ext_getElem (by simp) fun i hi hi' => ?_
  rw [flashBytes_length] at hi
  rw [← List.getD_eq_getElem _ 0, ← List.getD_eq_getElem _ 0, flashBytes_getD hi, flashBytes_getD hi, h i hi]

section
variable {s : State} {a n base : Nat}

/-- R76 case 3: the generic block is open at another base, so the write begins with its flush. -/
theorem enterBlock_switch (hroute : base ≠ s.cfg.bootBase) (hv : s.gen.valid = true) (hne : s.gen.base.toNat ≠ base) :
    enterBlock (routeOf s.cfg base) base s = (flushBlock .gen s).bind fun ok t =>
      if ok then (openBlock .gen base t).bind fun _ u => .ok (some .gen) u else .ok none t := by
  have hvalid : (s.block .gen).valid = true := hv
  have hbase : (s.block .gen).base.toNat ≠ base := hne
  rw [routeOf, if_neg hroute, enterBlock, if_pos hvalid, if_neg hbase, switchBlock, if_neg hroute]

/-- R129: a flush that fails ends the write. -/
theorem routeWrite_flushFails {t : State} {data : List Byte} (hroute : blockBase s.cfg a ≠ s.cfg.bootBase)
    (hv : s.gen.valid = true) (hne : s.gen.base.toNat ≠ blockBase s.cfg a) (hflush : flushBlock .gen s = .ok false t) :
    routeWrite a data s = .ended (t.setStatus .hwError) := by
  rw [routeWrite_eq, enterBlock_switch hroute hv hne, hflush]
  rfl

end

/-- The state after the open generic block was flushed. -/
def State.genFlushed (s : State) : State :=
  { s with
    gen := { s.gen with buf := s.flushImage .gen }
    flash := (s.setFlash s.gen.base.toNat (s.flushImage .gen)).flash
    env := s.flushEnv.answered .program s.cfg.wbs
    events := s.events ++ s.flushEvents ++ [.programBlock s.gen.base.toNat (s.flushImage .gen) .ok] }

/-- Settles O23: the flush succeeds, the new block is opened from flash, and the copy stays inside. -/
theorem writeElsewhereProgramsTheGenericBlock : Obligations.WriteElsewhereProgramsTheGenericBlock := by
  rintro s a n base hinv hp hrange hpacket h1 hn hcov hfit rfl hroute hv hne hd hprogram
  obtain ⟨-, hal, hwhole, -⟩ := rangeCovered_base hcov
  have hgen := State.Inv.flushable hinv (b := .gen) hv
  have hflush := flushBlock_ok (b := .gen) hgen hp hd hprogram
  rw [State.flushed_eq hgen] at hflush
  change flushBlock .gen s = .ok true s.genFlushed at hflush
  have hwp : s.genFlushed.env.powerCut = none :=
    (Env.answered_powerCut ..).trans ((State.flushEnv_powerCut s).trans hp)
  have hread : s.genFlushed.flashBytes (blockBase s.cfg a) s.cfg.wbs = s.flashBytes (blockBase s.cfg a) s.cfg.wbs := by
    obtain ⟨-, -, ⟨-, hgenOk⟩, -⟩ := hinv
    have hapart := aligned_apart (hgenOk hv).1 hal hne
    refine flashBytes_congr fun i hi => flushed_outside s .gen hgen.image_length ?_
    change _ < s.gen.base.toNat ∨ s.gen.base.toNat + s.cfg.wbs ≤ _
    omega
  have hopen : openBlock .gen (blockBase s.cfg a) s.genFlushed = .ok ()
      ((s.genFlushed.record (.flashRead (blockBase s.cfg a) s.cfg.wbs)).setBlock .gen
        { valid := true, base := BitVec.ofNat 32 (blockBase s.cfg a)
          buf := s.flashBytes (blockBase s.cfg a) s.cfg.wbs }) := by
    rw [openBlock_read (b := .gen) (base := blockBase s.cfg a) hwp (.inr hne) hwhole, ← hread]
    rfl
  have henter := enterBlock_switch (base := blockBase s.cfg a) hroute hv hne
  rw [hflush, Res.bind_ok, if_pos rfl, hopen, Res.bind_ok] at henter
  rw [exec_nvmWrite_inRange hrange hpacket hn hcov, routeWrite_inside rfl henter rfl
    (by rwa [State.Inv.data_length hinv hn]) (flashBytes_length ..)]
  refine ⟨_, rfl, ?_, fun i hi => flushed_inside hinv.1 hgen hgen.image_length hi,
    fun x hx => flushed_outside s .gen hgen.image_length hx⟩
  simp only [State.genFlushed, State.record, State.setBlock, State.setBuf, State.block, State.setStatus,
    List.append_assoc]
  rfl

/-- Settles O24: the flush fails, in Decrypt or in ProgramBlock. -/
theorem failedSwitchKeepsTheGenericBlock : Obligations.FailedSwitchKeepsTheGenericBlock := by
  rintro s a n base hinv hp hrange hpacket h1 hn hcov rfl hroute hv hne
  have hgen := State.Inv.flushable hinv (b := .gen) hv
  rw [exec_nvmWrite_inRange hrange hpacket hn hcov]
  refine ⟨fun hc hd => ?_, fun hd hprogram => ?_⟩
  · rw [routeWrite_flushFails hroute hv hne (flushBlock_refused hp hc hd)]
    rfl
  · have hflush := flushBlock_fail (b := .gen) hgen hp hd hprogram
    rw [State.flushed_eq hgen] at hflush
    rw [routeWrite_flushFails hroute hv hne hflush]
    exact ⟨_, rfl, rfl, fun x hx => flushed_outside s .gen (State.flushJunk_length s) hx⟩

end Sys2Proof.Machine
end

