-- ==== Sys2Proof/Proofs/Checksum.lean ====
section
/-! PROOFS. NVM_WRITE_CHECKSUM (spec/40_nvm_block.md R84, R85; spec/20_memory.md R41). -/

namespace Sys2Proof.Machine

open Sys2Proof

/-! ## Words and their bytes -/

theorem littleValue_littleBytes (n v : Nat) : littleValue (littleBytes n v) = v % 256 ^ n := by
  induction n generalizing v with
  | zero => simp [littleBytes, littleValue, Nat.mod_one]
  | succ n ih =>
    rw [littleBytes, littleValue, ih, BitVec.toNat_ofNat, show 256 ^ (n + 1) = 256 * 256 ^ n from Nat.pow_succ',
      Nat.mod_mul]

/-- R73: Serialize and WordOf agree on every word that fits the checksum width. -/
theorem wordValue_serialize {c : Config} {v : Nat} (h : v < 256 ^ c.csBytes) :
    wordValue c.csEndian (serialize c v) = v := by
  have hlittle : littleValue (littleBytes c.csBytes v) = v := by
    rw [littleValue_littleBytes, Nat.mod_eq_of_lt h]
  cases hc : c.csEndian with
  | little =>
    rw [serialize, hc]
    exact hlittle
  | big =>
    rw [serialize, hc]
    exact (congrArg littleValue (List.reverse_reverse _)).trans hlittle

theorem csWidth_bytes (c : Config) : 2 ^ c.csWidth = 256 ^ c.csBytes := by
  obtain ⟨hw, hb⟩ | ⟨hw, hb⟩ := c.checksum.1 <;> rw [hw, hb] <;> norm_num

/-! ## Words of a spliced image -/

section
variable {c : Config} {buf f : List Byte} {off i : Nat}

/-- The word that was spliced in. -/
theorem wordOf_splice_inside (hoff : off ≤ buf.length) (hf : f.length = c.csBytes) :
    wordOf c (splice buf off f) off = wordValue c.csEndian f := by
  have htake : (buf.take off).length = off := List.length_take_of_le hoff
  rw [wordOf, splice, List.append_assoc, List.drop_left' htake, List.take_left' hf]

/-- A word before the splice. -/
theorem wordOf_splice_before (hoff : off ≤ buf.length) (hi : i + c.csBytes ≤ off) :
    wordOf c (splice buf off f) i = wordOf c buf i := by
  have htake : (buf.take off).length = off := List.length_take_of_le hoff
  rw [wordOf, wordOf, splice, List.append_assoc, List.drop_append_of_le_length (by omega),
    List.take_append_of_le_length (by rw [List.length_drop]; omega), List.drop_take, List.take_take,
    Nat.min_eq_left (by omega)]

end

theorem vectorSum_eq (c : Config) (buf : List Byte) (k : Nat) :
    vectorSum c buf k = ((List.range k).map fun j => wordOf c buf (j * c.csBytes)).sum := by
  induction k with
  | zero => rfl
  | succ k ih => rw [vectorSum, ih, List.range_succ, List.map_append, List.sum_append, List.map_singleton,
      List.sum_singleton]

/-- R84: a sum and its complement. -/
theorem sum_complement {m v : Nat} (hm : 0 < m) : (v + (m - v % m) % m) % m = 0 := by
  have hv := Nat.mod_lt v hm
  have hmul : v + (m - v % m) = m * (v / m + 1) := by
    have := Nat.div_add_mod v m
    rw [Nat.mul_succ]
    omega
  rw [Nat.add_mod_mod, hmul, Nat.mul_mod_right]

/-- R84: the vector words and the stored checksum sum to zero. -/
theorem splice_checksum_sums {c : Config} {buf : List Byte} (hbuf : buf.length = c.wbs) :
    (((List.range c.csWordCount).map fun k =>
        wordOf c (splice buf c.csOffset (serialize c (checksum c buf))) (k * c.csBytes)).sum +
      wordOf c (splice buf c.csOffset (serialize c (checksum c buf))) c.csOffset) % 2 ^ c.csWidth = 0 := by
  obtain ⟨-, hfits, -, hvectors, -⟩ := c.checksum
  have hoff : c.csOffset ≤ buf.length := by omega
  have hpos : 0 < 2 ^ c.csWidth := Nat.two_pow_pos _
  have hword : wordOf c (splice buf c.csOffset (serialize c (checksum c buf))) c.csOffset = checksum c buf := by
    rw [wordOf_splice_inside hoff (serialize_length _ _), wordValue_serialize]
    rw [← csWidth_bytes]
    exact Nat.mod_lt _ hpos
  have hmap : ((List.range c.csWordCount).map fun k =>
      wordOf c (splice buf c.csOffset (serialize c (checksum c buf))) (k * c.csBytes)) =
      (List.range c.csWordCount).map fun k => wordOf c buf (k * c.csBytes) := by
    refine List.map_congr_left fun k hk => wordOf_splice_before hoff ?_
    have hk' : (k + 1) * c.csBytes ≤ c.csWordCount * c.csBytes := Nat.mul_le_mul_right _ (List.mem_range.1 hk)
    rw [Nat.succ_mul] at hk'
    omega
  rw [hword, hmap, ← vectorSum_eq]
  exact sum_complement hpos

/-- Settles O30: the write of R85 stays inside the open boot block. -/
theorem writeChecksumMakesTheImageSumToZero : Obligations.WriteChecksumMakesTheImageSumToZero := by
  intro s
  refine ⟨fun hb => ?_, fun hinv hb => ?_, rfl⟩
  · change execNvmWriteChecksum s = _
    rw [execNvmWriteChecksum, if_neg (by simp [hb])]
    rfl
  · obtain ⟨-, hfits, -, -, hdbuf⟩ := s.cfg.checksum
    have hbase := State.Inv.boot_base hinv hb
    have hlen : s.boot.buf.length = s.cfg.wbs := (State.Inv.flushable hinv (b := .boot) hb).length
    have hcs : 1 ≤ s.cfg.csBytes := by rcases s.cfg.checksum.1 with ⟨-, h⟩ | ⟨-, h⟩ <;> omega
    have hmod : (s.cfg.bootBase + s.cfg.csOffset) % s.cfg.wbs = s.cfg.csOffset := by
      rw [Nat.add_mod, s.cfg.bootBase_aligned, Nat.zero_add, Nat.mod_mod, Nat.mod_eq_of_lt (by omega)]
    have hblock : blockBase s.cfg (s.cfg.bootBase + s.cfg.csOffset) = s.cfg.bootBase := by
      rw [blockBase, hmod, Nat.add_sub_cancel]
    have hroute : routeOf s.cfg (blockBase s.cfg (s.cfg.bootBase + s.cfg.csOffset)) = .boot := routeOf_boot_iff.2 hblock
    have henter : enterBlock .boot (blockBase s.cfg (s.cfg.bootBase + s.cfg.csOffset)) s = .ok (some .boot) s :=
      enterBlock_open hb (hbase.trans hblock.symm)
    have hser := serialize_length s.cfg (checksum s.cfg s.boot.buf)
    have hwrite := routeWrite_inside (data := serialize s.cfg (checksum s.cfg s.boot.buf)) hroute henter rfl
      (by rw [hmod, hser]; exact hfits) hlen
    refine ⟨serialize s.cfg (checksum s.cfg s.boot.buf), hser, ?_, splice_checksum_sums hlen⟩
    change execNvmWriteChecksum s = _
    rw [execNvmWriteChecksum, if_pos hb, writeBody, if_pos (writeRangeOk_iff.2 ⟨hdbuf, bootWord_covered hfits⟩),
      Res.bind_ok, hwrite, hmod]
    rfl

end Sys2Proof.Machine
end

