-- ==== Sys2Proof/Proofs/WriteSplit.lean ====
section
/-! PROOFS. A write split into two (spec/40_nvm_block.md R90 (e)): the copy that goes on past the split does what the
second write does on its own. -/

namespace Sys2Proof.Machine

open Sys2Proof

/-- What a state on the way of a write keeps of R27, with no claim on its calls. -/
abbrev WriteMid (s u : State) : Prop := Mid (fun _ => True) Driven s u

section
variable {s u : State} {b : BlockId} {cb : Nat}

/-- Two block bases in turn. -/
theorem next_base_ne_boot (h : WriteMid s u) (ho : u.OpenAt .boot cb) : cb + u.cfg.wbs ≠ u.cfg.bootBase := by
  obtain ⟨-, -, hboot⟩ := h.openAt ho
  have := hboot.1 rfl
  have := u.cfg.wbs_pos
  omega

/-- R76, R77: past the end of an open block, the switch does what entering the next block does. -/
theorem switchBlock_eq_enterBlock (h : WriteMid s u) (ho : u.OpenAt b cb) :
    switchBlock b (cb + u.cfg.wbs) u = enterBlock (routeOf u.cfg (cb + u.cfg.wbs)) (cb + u.cfg.wbs) u := by
  have hw := u.cfg.wbs_pos
  cases b with
  | boot =>
    have hroute : routeOf u.cfg (cb + u.cfg.wbs) = .gen := if_neg (next_base_ne_boot h ho)
    cases hv : u.gen.valid with
    | false =>
      have hinvalid : ¬ (u.block .gen).valid = true := by simp [State.block, hv]
      rw [hroute, enterBlock, if_neg hinvalid, switchBlock, hv, Bool.false_and, if_neg Bool.false_ne_true]
      rfl
    | true =>
      have hvalid : (u.block .gen).valid = true := hv
      by_cases hb : u.gen.base.toNat = cb + u.cfg.wbs
      · rw [hroute, enterBlock_open hvalid hb, switchBlock, hv, decide_eq_false (not_not_intro hb), Bool.and_false,
          if_neg Bool.false_ne_true, Res.bind_ok, if_pos rfl, openBlock_same hvalid hb]
        rfl
      · have hb' : ¬ (u.block .gen).base.toNat = cb + u.cfg.wbs := hb
        rw [hroute, enterBlock, if_pos hvalid, if_neg hb', switchBlock, hv, decide_eq_true hb, Bool.and_true,
          if_pos rfl, switchBlock, if_neg (next_base_ne_boot h ho)]
  | gen =>
    obtain ⟨hv, hb⟩ := ho
    by_cases hboot : cb + u.cfg.wbs = u.cfg.bootBase
    · have hroute : routeOf u.cfg (cb + u.cfg.wbs) = .boot := if_pos hboot
      rw [hroute, switchBlock, if_pos hboot, hboot]
      cases hbv : (u.block .boot).valid with
      | false =>
        rw [enterBlock, if_neg (by rw [hbv]; exact Bool.false_ne_true)]
      | true =>
        have hbase := h.boot.2 hbv
        rw [enterBlock_open hbv hbase, openBlock_same hbv hbase]
        rfl
    · have hroute : routeOf u.cfg (cb + u.cfg.wbs) = .gen := if_neg hboot
      rw [hroute, enterBlock, if_pos hv, if_neg (by omega)]

/-- R77: inside an open block the copy is the write that begins there; at its end, it is the write of the next block. -/
theorem copyBytes_eq_routeWrite (h : WriteMid s u) (ho : u.OpenAt b cb) {off : Nat} (hoff : off ≤ u.cfg.wbs)
    {ds : List Byte} (hds : ds ≠ []) : copyBytes b cb off ds u = routeWrite (cb + off) ds u := by
  obtain ⟨hal, -, hboot⟩ := h.openAt ho
  have hw := u.cfg.wbs_pos
  rw [routeWrite_eq]
  rcases Nat.lt_or_ge off u.cfg.wbs with hlt | hge
  · have hmod : (cb + off) % u.cfg.wbs = off := by rw [Nat.add_mod, hal, Nat.zero_add, Nat.mod_mod, Nat.mod_eq_of_lt hlt]
    have hbase : blockBase u.cfg (cb + off) = cb := by rw [blockBase, hmod, Nat.add_sub_cancel]
    rw [hbase, routeOf_eq hboot, enterBlock_open ho.1 ho.2, Res.bind_ok, copyEntered, hbase, Nat.add_sub_cancel_left]
  · obtain rfl : off = u.cfg.wbs := Nat.le_antisymm hoff hge
    have hbase : blockBase u.cfg (cb + u.cfg.wbs) = cb + u.cfg.wbs := by
      rw [blockBase, Nat.add_mod_right, hal, Nat.sub_zero]
    obtain ⟨d, ds, rfl⟩ := List.exists_cons_of_ne_nil hds
    rw [hbase, ← switchBlock_eq_enterBlock h ho, copyBytes, if_pos rfl]
    cases hsw : switchBlock b (cb + u.cfg.wbs) u with
    | fault e => rfl
    | ended t => rfl
    | ok r t =>
      have hcfg : t.cfg = u.cfg := (switchBlock_frame hsw).fields.1
      cases r with
      | none => rfl
      | some b' =>
        have hzero : ¬ 0 = t.cfg.wbs := by rw [hcfg]; omega
        change copyBytes b' (cb + t.cfg.wbs) 1 ds (t.setBufByte b' 0 d) = copyBytes b' _ _ (d :: ds) t
        rw [hcfg, hbase, Nat.sub_self, copyBytes, if_neg hzero]

/-- R90 (e): a copy split in two. -/
theorem copyBytes_append {d₁ d₂ : List Byte} {off : Nat} (h : WriteMid s u) (ho : u.OpenAt b cb)
    (hoff : off ≤ u.cfg.wbs) (hd₂ : d₂ ≠ [])
    (hcov : ∀ x, cb + off ≤ x → x < cb + off + d₁.length → covered u.cfg x = true) :
    copyBytes b cb off (d₁ ++ d₂) u =
      (copyBytes b cb off d₁ u).bind fun _ t => routeWrite (cb + off + d₁.length) d₂ t := by
  induction d₁ generalizing b cb off u with
  | nil => exact copyBytes_eq_routeWrite h ho hoff hd₂
  | cons d d₁ ih =>
    rw [List.length_cons] at hcov ⊢
    rw [List.cons_append, copyBytes, copyBytes]
    split_ifs with hend
    · subst hend
      obtain ⟨hal, -, hboot⟩ := h.openAt ho
      have hw := u.cfg.wbs_pos
      have hkeeps := switchBlock_keeps (fun _ _ => trivial) h (nb := cb + u.cfg.wbs) (b := b) (by simpa using hal)
        (hcov _ le_rfl (by omega)) (fun hb => by subst hb; exact ho.1) (fun hb => by have := hboot.1 hb; omega)
      cases hsw : switchBlock b (cb + u.cfg.wbs) u with
      | fault e => rfl
      | ended t => rfl
      | ok r t =>
        rw [hsw] at hkeeps
        obtain ⟨hmid, hopen⟩ := hkeeps
        have hcfg : t.cfg = u.cfg := (switchBlock_frame hsw).fields.1
        cases r with
        | none => rfl
        | some b' =>
          change copyBytes b' (cb + t.cfg.wbs) 1 (d₁ ++ d₂) (t.setBufByte b' 0 d) =
            (copyBytes b' (cb + t.cfg.wbs) 1 d₁ (t.setBufByte b' 0 d)).bind _
          rw [hcfg, ih (hmid.setBufByte b' 0 d) ((hopen b' rfl).setBufByte 0 d)
            (by rw [State.setBufByte_cfg, hcfg]; exact hw)
            (fun x hx hx' => by rw [State.setBufByte_cfg, hcfg]; exact hcov x (by omega) (by omega)),
            show cb + u.cfg.wbs + 1 + d₁.length = cb + u.cfg.wbs + (d₁.length + 1) by omega]
    · rw [ih (h.setBufByte b off d) (ho.setBufByte off d) (by rw [State.setBufByte_cfg]; omega)
        (fun x hx hx' => by rw [State.setBufByte_cfg]; exact hcov x (by omega) (by omega)),
        show cb + (off + 1) + d₁.length = cb + off + (d₁.length + 1) by omega]

end

/-- Settles O26: both writes enter the same block, and the copy splits. -/
theorem splitWriteHasTheSameEffect : Obligations.SplitWriteHasTheSameEffect := by
  intro s a d₁ d₂ hinv hd₁ hd₂ hcov
  have hpos : 1 ≤ d₁.length := List.length_pos_iff.2 hd₁
  obtain ⟨-, -, hall⟩ := rangeCovered_iff.1 hcov
  obtain ⟨hbcov, hal, hle, hlt⟩ := s.cfg.blockBase_covered (hall a le_rfl (by omega))
  have hmid : WriteMid s s := .refl hinv
  have hkeeps := enterBlock_keeps (fun _ _ => trivial) hmid hal hbcov (b := routeOf s.cfg (blockBase s.cfg a))
    routeOf_boot_iff
  rw [routeWrite_eq, routeWrite_eq]
  cases henter : enterBlock (routeOf s.cfg (blockBase s.cfg a)) (blockBase s.cfg a) s with
  | fault e => rfl
  | ended t => rfl
  | ok r t =>
    rw [henter] at hkeeps
    obtain ⟨hmid', hopen⟩ := hkeeps
    have hcfg : t.cfg = s.cfg := hmid'.cfg
    cases r with
    | none => rfl
    | some b =>
      rw [Res.bind_ok, Res.bind_ok, copyEntered, copyEntered, hcfg]
      rw [copyBytes_append hmid' (hopen b rfl) (by rw [hcfg]; omega) hd₂
        (fun x hx hx' => by rw [hcfg]; exact hall x (by omega) (by omega)),
        show blockBase s.cfg a + (a - blockBase s.cfg a) = a by omega]

end Sys2Proof.Machine
end

