-- ==== Sys2Proof/Proofs/WriteFrame.lean ====
section
/-! PROOFS. NVM_WRITE of any covered range completes, and what it leaves of flash (spec/40_nvm_block.md R80, R81;
spec/60_exceptions.md R128, R129). -/

namespace Sys2Proof.Machine

open Sys2Proof

/-- A part of a command that goes on with `Q` or ends the command with `E`, and does not fault. -/
def Res.Completes {α : Type} (Q : α → State → Prop) (E : State → Prop) : Res α → Prop
  | .ok a t => Q a t
  | .ended t => E t
  | .fault _ => False

theorem Res.Completes.bind {α β : Type} {Q : α → State → Prop} {Q' : β → State → Prop} {E : State → Prop} {r : Res α}
    {k : α → State → Res β} (h : r.Completes Q E) (hk : ∀ a t, Q a t → (k a t).Completes Q' E) :
    (r.bind k).Completes Q' E := by
  cases r with
  | ok a t => exact hk a t h
  | ended t => exact h
  | fault e => exact h

/-- The base of a block at or below an address is at most the base of its own block. -/
theorem le_blockBase {c : Config} {nb x : Nat} (hal : nb % c.wbs = 0) (hle : nb ≤ x) : nb ≤ blockBase c x := by
  have hdiv := Nat.div_add_mod nb c.wbs
  have hx := Nat.div_add_mod x c.wbs
  have hmul := Nat.mul_le_mul_left c.wbs (Nat.div_le_div_right (c := c.wbs) hle)
  rw [blockBase]
  omega

/-- On the way of a write that began in `s`, in the block at `lo`: of flash, only the generic block of `s` and `[lo, hi)`
may differ, the boot block never does, and power stays on. -/
structure WriteFrame (s : State) (lo hi : Nat) (u : State) : Prop where
  flash : ∀ x, ¬(s.gen.valid = true ∧ s.gen.base.toNat ≤ x ∧ x < s.gen.base.toNat + s.cfg.wbs) →
    ¬(lo ≤ x ∧ x < hi) → u.flashByte x = s.flashByte x
  boot : ∀ x, s.cfg.bootBase ≤ x → x < s.cfg.bootBase + s.cfg.wbs → u.flashByte x = s.flashByte x
  frame : NvmFrame s u
  power : u.env.noPowerLoss = true

/-- The generic block, if open, is the one that was open in `s`, or lies in `[lo, hi)`. -/
def GenWithin (s : State) (lo hi : Nat) (u : State) : Prop :=
  u.gen.valid = true → (s.gen.valid = true ∧ u.gen.base = s.gen.base) ∨
    (lo ≤ u.gen.base.toNat ∧ u.gen.base.toNat + s.cfg.wbs ≤ hi)

section
variable {s u v : State} {lo hi hi' : Nat}

theorem WriteFrame.refl (hp : s.env.noPowerLoss = true) : WriteFrame s lo hi s :=
  ⟨fun _ _ _ => rfl, fun _ _ _ => rfl, rfl, hp⟩

theorem WriteFrame.mono (h : WriteFrame s lo hi u) (hle : hi ≤ hi') : WriteFrame s lo hi' u :=
  { h with flash := fun x hg hx => h.flash x hg (by omega) }

theorem GenWithin.mono (h : GenWithin s lo hi u) (hle : hi ≤ hi') : GenWithin s lo hi' u := fun hv =>
  (h hv).imp_right fun hr => ⟨hr.1, hr.2.trans hle⟩

/-- A step that leaves flash alone. -/
theorem WriteFrame.quiet (h : WriteFrame s lo hi u) (hframe : NvmFrame u v) (hflash : v.flash = u.flash)
    (hpower : v.env.noPowerLoss = true) : WriteFrame s lo hi v := by
  have hread : ∀ x, v.flashByte x = u.flashByte x := fun x => by
    rw [State.flashByte, State.flashByte, hflash, hframe.fields.1]
  exact ⟨fun x hg hx => (hread x).trans (h.flash x hg hx), fun x h1 h2 => (hread x).trans (h.boot x h1 h2),
    h.frame.trans hframe, hpower⟩

/-- R77: a byte goes into a RAM image. -/
theorem WriteFrame.setBufByte (h : WriteFrame s lo hi u) (b : BlockId) (i : Nat) (d : Byte) :
    WriteFrame s lo hi (u.setBufByte b i d) :=
  h.quiet (NvmFrame.setBlock u b _) (State.setBufByte_flash ..) (by rw [State.setBufByte_env]; exact h.power)

theorem GenWithin.setBufByte (h : GenWithin s lo hi u) (b : BlockId) (i : Nat) (d : Byte) :
    GenWithin s lo hi (u.setBufByte b i d) := by cases b <;> exact h

/-- What the statement of a write says of the state it ends in. -/
theorem WriteFrame.ends (h : WriteFrame s lo hi u) (c : StatusCode) :
    (u.setStatus c).host = { s.host with status := (u.setStatus c).host.status } ∧ (u.setStatus c).pf = s.pf ∧
      (u.setStatus c).crcReg = s.crcReg ∧ (u.setStatus c).mb = s.mb ∧ (u.setStatus c).wait = s.wait ∧
      (u.setStatus c).cfg = s.cfg ∧ (u.setStatus c).moves = s.moves ∧
      (∀ x, ¬(s.gen.valid = true ∧ s.gen.base.toNat ≤ x ∧ x < s.gen.base.toNat + s.cfg.wbs) → ¬(lo ≤ x ∧ x < hi) →
        (u.setStatus c).flashByte x = s.flashByte x) ∧
      (∀ x, s.cfg.bootBase ≤ x → x < s.cfg.bootBase + s.cfg.wbs → (u.setStatus c).flashByte x = s.flashByte x) := by
  obtain ⟨hcfg, hhost, hpf, hcrc, hmb, hwait, hmoves, -⟩ := h.frame.fields
  exact ⟨congrArg (fun host => { host with status := (u.setStatus c).host.status }) hhost, hpf, hcrc, hmb, hwait, hcfg,
    hmoves, h.flash, h.boot⟩

theorem State.flushEnv_power (hp : u.env.noPowerLoss = true) : u.flushEnv.noPowerLoss = true := by
  rw [State.flushEnv]
  split_ifs
  · exact Env.noPowerLoss_answered hp ..
  · exact hp

/-- The flush of the generic block writes inside the frame, whatever bytes its ProgramBlock left. -/
theorem WriteFrame.flushed (h : WriteFrame s lo hi u) (hmid : WriteMid s u) (hgen : GenWithin s lo hi u)
    (hv : u.gen.valid = true) {r : Bool} {verdict : Verdict} {l : List Byte} (hl : l.length = u.cfg.wbs)
    (hflush : flushBlock .gen u = .ok r (u.flushed .gen verdict l)) :
    WriteFrame s lo hi (u.flushed .gen verdict l) := by
  have hcfg : u.cfg = s.cfg := hmid.cfg
  have hout : ∀ x, (x < u.gen.base.toNat ∨ u.gen.base.toNat + u.cfg.wbs ≤ x) →
      (u.flushed .gen verdict l).flashByte x = u.flashByte x := fun x hx => flushed_outside u .gen hl hx
  have hapart := State.Inv.gen_apart hmid.inv hv
  rw [hcfg] at hout hapart
  refine ⟨fun x hg hx => ?_, fun x h1 h2 => ?_, h.frame.trans (flushBlock_frame hflush),
    Env.noPowerLoss_answered (State.flushEnv_power h.power) ..⟩
  · refine (hout x ?_).trans (h.flash x hg hx)
    obtain ⟨hsv, hbase⟩ | ⟨h1, h2⟩ := hgen hv
    · rw [hbase]
      by_contra hin
      exact hg ⟨hsv, by omega, by omega⟩
    · omega
  · exact (hout x (by omega)).trans (h.boot x h1 h2)

/-- R75: the flush of the generic block goes on, inside the frame, and leaves it open where it was. -/
theorem flushBlock_completes (h : WriteFrame s lo hi u) (hmid : WriteMid s u) (hgen : GenWithin s lo hi u)
    (hv : u.gen.valid = true) : (flushBlock .gen u).Completes
      (fun _ v => WriteFrame s lo hi v ∧ WriteMid s v ∧ v.gen.base = u.gen.base) fun _ => False := by
  have hp := Env.noPowerLoss_cut h.power
  have hflushable := State.Inv.flushable hmid.inv (b := .gen) hv
  have hkeeps := flushGen_keeps (fun _ _ => trivial) hmid hv
  obtain ⟨hc, hd⟩ | ⟨hd, hprogram | hprogram⟩ := State.flush_verdicts h.power
  · have hflush := flushBlock_refused (b := .gen) hp hc hd
    rw [hflush] at hkeeps ⊢
    exact ⟨h.quiet (flushBlock_frame hflush) rfl (State.flushEnv_power h.power), hkeeps, rfl⟩
  · have hflush := flushBlock_fail (b := .gen) hflushable hp hd hprogram
    rw [hflush] at hkeeps ⊢
    exact ⟨h.flushed hmid hgen hv (State.flushJunk_length u) hflush, hkeeps, rfl⟩
  · have hflush := flushBlock_ok (b := .gen) hflushable hp hd hprogram
    rw [hflush] at hkeeps ⊢
    exact ⟨h.flushed hmid hgen hv hflushable.image_length hflush, hkeeps, rfl⟩

/-- R74: a block opens at `nb`, and flash stays. -/
theorem openBlock_completes {b : BlockId} {nb : Nat} (h : WriteFrame s lo nb u)
    (hgen : GenWithin s lo nb u) (hlo : lo ≤ nb) (hal : nb % u.cfg.wbs = 0) (hcov : covered u.cfg nb = true) :
    (openBlock b nb u).Completes (fun _ v => WriteFrame s lo nb v ∧ GenWithin s lo (nb + s.cfg.wbs) v)
      fun _ => False := by
  have hwhole := u.cfg.block_covered hal hcov
  have hgen' : GenWithin s lo (nb + s.cfg.wbs) u := hgen.mono (Nat.le_add_right ..)
  have hbase : (BitVec.ofNat 32 nb).toNat = nb := by
    have hw := u.cfg.wbs_pos
    have hle := rangeCovered_le hwhole
    rw [Params.addrSpace] at hle
    rw [BitVec.toNat_ofNat]
    omega
  by_cases hsame : (u.block b).valid = true ∧ (u.block b).base.toNat = nb
  · rw [openBlock_same hsame.1 hsame.2]
    exact ⟨h, hgen'⟩
  · have hdiff : (u.block b).valid = false ∨ (u.block b).base.toNat ≠ nb := by
      by_cases hb : (u.block b).valid = true
      · exact .inr fun heq => hsame ⟨hb, heq⟩
      · exact .inl (by simpa using hb)
    have hopen := openBlock_read (Env.noPowerLoss_cut h.power) hdiff hwhole
    rw [hopen]
    refine ⟨h.quiet (openBlock_frame hopen) (by simp) (by simpa using h.power), ?_⟩
    cases b with
    | gen => exact fun _ => .inr ⟨hlo.trans_eq hbase.symm, (congrArg (· + s.cfg.wbs) hbase).le⟩
    | boot => exact hgen'

/-- R76, R77: entering the block at `nb` goes on, inside the frame. -/
theorem enterBlock_completes {nb : Nat} (h : WriteFrame s lo nb u) (hmid : WriteMid s u) (hgen : GenWithin s lo nb u)
    (hlo : lo ≤ nb) (hal : nb % u.cfg.wbs = 0) (hcov : covered u.cfg nb = true) :
    (enterBlock (routeOf u.cfg nb) nb u).Completes
      (fun _ v => WriteFrame s lo nb v ∧ GenWithin s lo (nb + s.cfg.wbs) v) fun _ => False := by
  cases hv : (u.block (routeOf u.cfg nb)).valid with
  | false =>
    rw [enterBlock, if_neg (by simp [hv])]
    exact (openBlock_completes h hgen hlo hal hcov).bind fun _ _ hv => hv
  | true =>
    by_cases hb : (u.block (routeOf u.cfg nb)).base.toNat = nb
    · rw [enterBlock_open hv hb]
      exact ⟨h, hgen.mono (Nat.le_add_right ..)⟩
    · have hroute : nb ≠ u.cfg.bootBase := by
        rintro rfl
        rw [routeOf, if_pos rfl] at hv hb
        exact hb (hmid.boot.2 hv)
      have hgenRoute : routeOf u.cfg nb = .gen := if_neg hroute
      rw [hgenRoute] at hv hb
      have henter := enterBlock_switch hroute hv hb
      rw [henter]
      refine (flushBlock_completes h hmid hgen hv).bind fun ok v hflush => ?_
      obtain ⟨hframe, hmid', hbase⟩ := hflush
      have hgen' : GenWithin s lo nb v := fun _ => by rw [hbase]; exact hgen hv
      cases ok with
      | false => exact ⟨hframe, hgen'.mono (Nat.le_add_right ..)⟩
      | true =>
        have hcfg : v.cfg = u.cfg := hmid'.cfg.trans hmid.cfg.symm
        exact (openBlock_completes hframe hgen' hlo (by rwa [hcfg]) (by rwa [hcfg])).bind fun _ _ hopen => hopen

/-- R77: the copy goes on to its end or ends with HwError, inside the frame. -/
theorem copyBytes_completes {b : BlockId} {cb off : Nat} {ds : List Byte} (h : WriteFrame s lo cb u)
    (hmid : WriteMid s u) (hgen : GenWithin s lo (cb + s.cfg.wbs) u) (ho : u.OpenAt b cb) (hlo : lo ≤ cb)
    (hcov : ∀ x, cb + off ≤ x → x < cb + off + ds.length → covered s.cfg x = true)
    (hhi : ∀ nb, nb % s.cfg.wbs = 0 → nb < cb + off + ds.length → nb ≤ hi) (hcb : cb ≤ hi) :
    (copyBytes b cb off ds u).Completes (fun _ v => WriteFrame s lo hi v)
      fun v => ∃ w, v = w.setStatus .hwError ∧ WriteFrame s lo hi w := by
  induction ds generalizing b cb off u with
  | nil => exact h.mono hcb
  | cons d ds ih =>
    rw [List.length_cons] at hcov hhi
    have hcfg : u.cfg = s.cfg := hmid.cfg
    rw [copyBytes]
    split_ifs with hend
    · obtain ⟨hal, -, -⟩ := hmid.openAt ho
      rw [hcfg] at hend hal
      have hw := s.cfg.wbs_pos
      have hal' : (cb + s.cfg.wbs) % s.cfg.wbs = 0 := by simpa using hal
      have hcov' := hcov (cb + s.cfg.wbs) (by omega) (by omega)
      have hnext := hhi _ hal' (by omega)
      have hkeeps := switchBlock_keeps (fun _ _ => trivial) hmid (nb := cb + u.cfg.wbs) (b := b)
        (by rwa [hcfg]) (by rwa [hcfg]) (fun hb => by subst hb; exact ho.1)
        (fun hb => by subst hb; exact next_base_ne_boot hmid ho)
      have henter := enterBlock_completes (h.mono (Nat.le_add_right cb s.cfg.wbs)) hmid hgen (by omega)
        (by rwa [hcfg]) (by rwa [hcfg])
      rw [← hcfg, ← switchBlock_eq_enterBlock hmid ho] at henter
      cases hsw : switchBlock b (cb + u.cfg.wbs) u with
      | fault e => rw [hsw] at henter; exact henter
      | ended t => rw [hsw] at henter; exact henter.elim
      | ok r t =>
        rw [hsw] at henter hkeeps
        obtain ⟨hmid', hopen⟩ := hkeeps
        obtain ⟨hframe, hgen'⟩ := henter
        rw [hcfg] at hframe hgen' hopen
        cases r with
        | none => exact ⟨t, rfl, hframe.mono hnext⟩
        | some b' =>
          change (copyBytes b' (cb + t.cfg.wbs) 1 ds (t.setBufByte b' 0 d)).Completes _ _
          rw [hmid'.cfg]
          exact ih (hframe.setBufByte b' 0 d) (hmid'.setBufByte b' 0 d) (hgen'.setBufByte b' 0 d)
            ((hopen b' rfl).setBufByte 0 d) (by omega) (fun x hx hx' => hcov x (by omega) (by omega))
            (fun nb hnb hlt => hhi nb hnb (by omega)) hnext
    · exact ih (h.setBufByte b off d) (hmid.setBufByte b off d) (hgen.setBufByte b off d) (ho.setBufByte off d) hlo
        (fun x hx hx' => hcov x (by omega) (by omega)) (fun nb hnb hlt => hhi nb hnb (by omega)) hcb

end

/-- Settles O25: the block of the first byte is entered, and the copy stays inside the frame. -/
theorem writeCompletesAndKeepsItsFrame : Obligations.WriteCompletesAndKeepsItsFrame := by
  intro s a n hinv hrange hpacket hn hcov hp
  obtain ⟨hpos, -, hall⟩ := rangeCovered_iff.1 hcov
  obtain ⟨hbcov, hal, hle, hlt⟩ := s.cfg.blockBase_covered (hall a le_rfl (by omega))
  have hlen := State.Inv.data_length hinv hn
  have hlast : ∀ nb, nb % s.cfg.wbs = 0 → nb < a + n → nb ≤ blockBase s.cfg (a + n - 1) :=
    fun nb hnb hlt => le_blockBase hnb (by omega)
  have hmid : WriteMid s s := .refl hinv
  have hkeeps := enterBlock_keeps (fun _ _ => trivial) hmid hal hbcov (b := routeOf s.cfg (blockBase s.cfg a))
    routeOf_boot_iff
  have henter := enterBlock_completes (lo := blockBase s.cfg a) (.refl hp) hmid (fun hv => .inl ⟨hv, rfl⟩) le_rfl
    hal hbcov
  have hwrite : (routeWrite a (s.host.dbuf.take n) s).Completes
      (fun _ v => WriteFrame s (blockBase s.cfg a) (blockBase s.cfg (a + n - 1)) v)
      fun v => ∃ w, v = w.setStatus .hwError ∧
        WriteFrame s (blockBase s.cfg a) (blockBase s.cfg (a + n - 1)) w := by
    rw [routeWrite_eq]
    cases hen : enterBlock (routeOf s.cfg (blockBase s.cfg a)) (blockBase s.cfg a) s with
    | fault e => rw [hen] at henter; exact henter
    | ended t => rw [hen] at henter; exact henter.elim
    | ok r t =>
      rw [hen] at henter hkeeps
      obtain ⟨hmid', hopen⟩ := hkeeps
      obtain ⟨hframe, hgen⟩ := henter
      have hfirst := hlast _ hal (by omega)
      cases r with
      | none => exact ⟨t, rfl, hframe.mono hfirst⟩
      | some b =>
        rw [Res.bind_ok, copyEntered, hmid'.cfg]
        have hsum : blockBase s.cfg a + (a - blockBase s.cfg a) = a := by omega
        exact copyBytes_completes hframe hmid' hgen (hopen b rfl) le_rfl
          (by rw [hsum, hlen]; exact hall) (by rw [hsum, hlen]; exact hlast) hfirst
  rw [exec_nvmWrite_inRange hrange hpacket hn hcov]
  cases hres : routeWrite a (s.host.dbuf.take n) s with
  | fault e => rw [hres] at hwrite; exact hwrite.elim
  | ok r w =>
    rw [hres] at hwrite
    exact ⟨_, rfl, .inl rfl, hwrite.ends .ok⟩
  | ended t =>
    rw [hres] at hwrite
    obtain ⟨w, rfl, hframe⟩ := hwrite
    exact ⟨_, rfl, .inr rfl, hframe.ends .hwError⟩

end Sys2Proof.Machine
end
